-- ==== Sys2Proof/Word.lean ====
section
/-! DEFINITION. The word types of RTC3W (00_scope.md R6; 30_encoding.md R71, R76). -/

namespace Sys2Proof

/-- A byte: 8 bits, bit 0 the least significant (00_scope.md R6). -/
abbrev Byte := BitVec 8

/-- A command word `{op[2:0], addr[7:0], data[7:0]}` on the command port (30_encoding.md R71). -/
abbrev CmdWord := BitVec 19

/-- One bit for each of the three buttons: bit `b` is button `b` (10_state.md R22, R24). -/
abbrev Buttons := BitVec 3

end Sys2Proof
end

