-- ==== Sys2Proof/Config.lean ====
section
/-! DEFINITION. What an implementation of RTC3W fixes (00_scope.md R5) and the free values. -/

namespace Sys2Proof

/-- What is fixed when the block is built and the spec leaves to a named argument of the model (00_scope.md R5,
93_implementation_defined.md U20): the six wire constants, with the spec's defaults, and `F_CLK`. A state holds the
parameters of its machine (`State.params`), so that the machine can be instantiated for another chip's map.
PRESUMED (log entry 16): the spec marks the six values as general knowledge of the DS1302. -/
structure Params where
  /-- `CMD_WP`, command byte (write form) of the write-protect register. -/
  cmdWp : Byte := 0x8E
  /-- `CMD_TCS`, command byte (write form) of the trickle-charger register. -/
  cmdTcs : Byte := 0x90
  /-- `CMD_BURST`, command byte (write form) of the clock burst register. -/
  cmdBurst : Byte := 0xBE
  /-- `CMD_SEC`, command byte (write form) of the seconds register. -/
  cmdSec : Byte := 0x80
  /-- `VAL_WP_OFF`, the value that disables write protection. -/
  valWpOff : Byte := 0x00
  /-- `VAL_TCS_OFF`, the value that disables the trickle charger. -/
  valTcsOff : Byte := 0x00
  /-- `F_CLK`, the frequency of `clk` in hertz; none while it is open. No step reads it (70_reset_and_hazards.md R191). -/
  fClk : Option Nat := none
  deriving DecidableEq, Repr

/-- The defaults of 00_scope.md R5. -/
def Config.params : Params := {}

/-- `READ_FLAG`: bit 0 of the command byte, 1 for a read (00_scope.md R5, 30_encoding.md R76). -/
def Config.readFlag : Byte := 0x01

/-- `N_SETTLE`: the least number of cycles a `NOP2` lasts (00_scope.md R5, 70_reset_and_hazards.md R181). -/
def Config.nSettle : Nat := 2

/-- `BTN_RESET_LEVEL`, 1 (released), for all three buttons (00_scope.md R5, 10_state.md R22). -/
def Config.btnReset : Buttons := 0b111

/-- FREE VALUE (log entry 2): the level found where the spec says "a draw" (00_scope.md R7), one for each value of the
counter `draws`. No body: nothing can be proved of it. -/
opaque Config.freeLevel : Nat → Bool

namespace Machine

/-- `phase` of the reference peer (20_memory.md R55). -/
inductive Phase
  | idle
  | cmd
  | wdata
  | rdata
  | ignore
  deriving DecidableEq, Repr, Inhabited

/-- What the reference peer holds of the frame it is in: all its state but the battery-backed registers `CK` and `RAM`
(20_memory.md R55, 70_reset_and_hazards.md R173). -/
structure PeerFrame where
  latch : Vector Byte 9
  phase : Phase
  n : Fin 8
  k : Nat
  cmd : Byte
  w : Byte
  out : Byte
  wbuf : List Byte
  drive : Option Bool
  deriving DecidableEq, Repr, Inhabited

end Machine

/-- FREE VALUE (log entry 13): what the peer holds of a frame after `rst` has released its lines, one for each value of the
counter `draws` (70_reset_and_hazards.md R171, R172: it depends on the board). No body: nothing can be proved of it. -/
opaque Config.freePeerFrame : Nat → Machine.PeerFrame

end Sys2Proof
end

