-- ==== Sys2Proof/Syntax.lean ====
section
/-! DEFINITION. The instructions: one constructor for each row of spec/opcode_table.json. -/

namespace Sys2Proof

/-- The rows of the opcode table. The first eight are the command words of 30_encoding.md R72 (format CW). Each carries
both operand fields, since an accepted word is latched into `ADDR` and `DATA` whether or not the operation uses them
(30_encoding.md R73, 10_state.md R19). The last eight are the command bytes of 30_encoding.md R76 (format CB). -/
inductive Instr
  /-- INIT, 41_link_operations.md R120; both fields ignored. -/
  | init (addr data : Byte)
  /-- WRREG addr, data: 41_link_operations.md R121. -/
  | wrreg (addr data : Byte)
  /-- RDREG addr: 41_link_operations.md R122; `data` ignored. -/
  | rdreg (addr data : Byte)
  /-- RD1 addr: 41_link_operations.md R123; `data` ignored. -/
  | rd1 (addr data : Byte)
  /-- BWRITE: 41_link_operations.md R124; both fields ignored. -/
  | bwrite (addr data : Byte)
  /-- BREAD: 41_link_operations.md R125; both fields ignored. -/
  | bread (addr data : Byte)
  /-- SAMPLE: 42_button_tracker.md R140; both fields ignored. -/
  | sample (addr data : Byte)
  /-- The reserved operation code 0b111: 30_encoding.md R74. -/
  | reserved (addr data : Byte)
  /-- Command byte 0x8E: the first frame of INIT (41_link_operations.md R120). -/
  | cbWpWrite
  /-- Command byte 0x90: the second frame of INIT (41_link_operations.md R120). -/
  | cbTcsWrite
  /-- Command byte 0xBE: the frame of BWRITE (41_link_operations.md R124). -/
  | cbBurstWrite
  /-- Command byte 0xBF: the frame of BREAD (41_link_operations.md R125). -/
  | cbBurstRead
  /-- Command byte 0x80: the seconds register, written (41_link_operations.md R131, R132). -/
  | cbSecWrite
  /-- Command byte 0x81: the seconds register, read (41_link_operations.md R133). -/
  | cbSecRead
  /-- Any other write form, `addr7` in bits 7:1 and bit 0 = 0 (30_encoding.md R75). -/
  | cbAnyWrite (addr7 : BitVec 7)
  /-- Any other read form, `addr7` in bits 7:1 and bit 0 = 1 (30_encoding.md R75). -/
  | cbAnyRead (addr7 : BitVec 7)
  deriving DecidableEq, Repr

end Sys2Proof
end

