-- ==== Sys2Proof/Machine/State.lean ====
section
/-! DEFINITION. The state of RTC3W and of what the spec puts around it, as plain data, and the state after reset. -/

namespace Sys2Proof.Machine

/-- The three signal lines of LINK (10_state.md R11; names from 00_scope.md R9). -/
inductive Pin
  | ce
  | sclk
  | io
  deriving DecidableEq, Repr

/-- One bit for each line: the form of `PINDIR` and of `PINOUT` (10_state.md R11, R12). -/
structure PinLatch where
  ce : Bool
  sclk : Bool
  io : Bool
  deriving DecidableEq, Repr

/-- The record buffer `REC[0..7]` with D0's field names, in wire order (10_state.md R14). -/
structure Record where
  /-- `REC[0]` -/
  sec : Byte
  /-- `REC[1]` -/
  min : Byte
  /-- `REC[2]` -/
  hour : Byte
  /-- `REC[3]` -/
  date : Byte
  /-- `REC[4]` -/
  month : Byte
  /-- `REC[5]` -/
  dow : Byte
  /-- `REC[6]` -/
  year : Byte
  /-- `REC[7]` -/
  wp : Byte
  deriving DecidableEq, Repr

/-- The micro-operations of the LINK sequencer (00_scope.md R7). `get p i` is `SHREG[i] <- GET(p)`, the one use the
lists make of `GET` (40_link_primitives.md R103). -/
inductive MicroOp
  /-- `DIR(p, d)`; `true` is output. -/
  | dir (p : Pin) (d : Bool)
  /-- `LVL(p, v)`; `true` is high. -/
  | lvl (p : Pin) (v : Bool)
  /-- `SHREG[i] <- GET(p)`. -/
  | get (p : Pin) (i : Fin 8)
  /-- `NOP2`, the settle delay. -/
  | nop2
  deriving DecidableEq, Repr

/-- A register transfer that shares the step of a micro-operation (41_link_operations.md R126, 40_link_primitives.md
R103, 90_conflicts.md C14). -/
inductive Transfer
  /-- No transfer in this step. -/
  | none
  /-- `SHREG <- 0`, with the first micro-operation of `IN8`. -/
  | clearShreg
  /-- `RDATA <- SHREG`, with the eighth `GET` of RDREG and RD1. -/
  | toRdata
  /-- `REC[k] <- SHREG`, with the eighth `GET` of each byte of BREAD. -/
  | toRecord (k : Fin 8)
  /-- `INITED <- 1`, with the last `NOP2` of INIT. -/
  | setInited
  deriving DecidableEq, Repr

/-- One entry of an operation's expansion: a micro-operation and the transfer that shares its step (10_state.md R20). -/
structure Entry where
  op : MicroOp
  xfer : Transfer := .none
  deriving DecidableEq, Repr

/-- What a step did on the pins, in the notation of 95_test_vectors.md: `D(p,d)`, `L(p,v)`, `G(p)=b`, `N`. -/
inductive PinEvent
  | dir (p : Pin) (d : Bool)
  | lvl (p : Pin) (v : Bool)
  | get (p : Pin) (b : Bool)
  | nop2
  /-- `rst`: the three lines stop being driven at once (70_reset_and_hazards.md R171). -/
  | release
  deriving DecidableEq, Repr

/-- The wire view of 00_scope.md R8. -/
inductive WireEvent
  /-- `CE^` -/
  | ceUp
  /-- `CEv` -/
  | ceDown
  /-- `^b` -/
  | clock (b : Bool)
  /-- `?b` -/
  | sample (b : Bool)
  deriving DecidableEq, Repr

/-- The level of a line (10_state.md R13). -/
inductive LineLevel
  | level (b : Bool)
  /-- `Z`: nothing drives the line. -/
  | floating
  /-- The block and the peer both drive IO. -/
  | contention
  deriving DecidableEq, Repr

/-- Memory: cells with strictly rising addresses, none equal to what an unlisted address reads as. -/
abbrev Memory := List Host.Cell

/-- The edge a micro-operation makes on the lines the chip watches (20_memory.md R56 to R58). -/
inductive ChipEdge
  | none
  /-- `CE^` -/
  | ceRise
  /-- `CEv` -/
  | ceFall
  /-- A rising edge of SCLK while CE = 1. -/
  | sclkRise
  /-- A falling edge of SCLK while CE = 1. -/
  | sclkFall
  deriving DecidableEq, Repr

/-- State of the reference peer, the RTC chip (20_memory.md R55). It is no part of the block (00_scope.md R4 (d)). -/
structure Chip where
  /-- `CK[0..8]`: seconds to year, control, trickle charger. -/
  ck : Vector Byte 9
  /-- `RAM[0..30]`, at addresses 0 to 30. -/
  ram : Memory
  /-- `LATCH[0..8]`, a copy of `CK` taken at each `CE^`. -/
  latch : Vector Byte 9
  phase : Phase
  /-- The bit counter. -/
  n : Fin 8
  /-- The byte counter. -/
  k : Nat
  cmd : Byte
  w : Byte
  out : Byte
  /-- The bytes of a clock burst write so far. -/
  wbuf : List Byte
  /-- What the chip puts on IO; none is `Z`. -/
  drive : Option Bool
  deriving DecidableEq, Repr

/-- What the outside can do to the block in one step (10_state.md R24, R26; log entry 4). -/
inductive Input
  /-- The host waits for `BUSY = 0`, presents the word and lets the operation run to completion (70_reset_and_hazards.md
  R184, 10_state.md R19). -/
  | call (w : CmdWord)
  /-- `cmd_valid = 1` with this word for one cycle. -/
  | present (w : CmdWord)
  /-- The line `if RDATA = v then <word>` of a host program (30_encoding.md R81). -/
  | callIfRdata (v : Byte) (w : CmdWord)
  /-- Bench input: the frame that this command byte opens (log entry 7). -/
  | frame (b : Byte)
  /-- `rec_we = 1` with this index and byte for one cycle (10_state.md R26). -/
  | writeRec (k : Fin 8) (v : Byte)
  /-- The host reads `REC[k]` on the record port (10_state.md R24, R26). -/
  | readRec (k : Fin 8)
  /-- The host reads `rdata` (10_state.md R18, R24). -/
  | readRdata
  /-- A cycle in which the host does nothing. -/
  | idle
  /-- `rst = 1` for one cycle (70_reset_and_hazards.md R170). -/
  | rst
  /-- The chip's oscillator advances its time to these seven bytes (20_memory.md R60). -/
  | chipTime (t : Vector Byte 7)
  deriving DecidableEq, Repr

/-- A use of the block outside the host's contract (60_exceptions.md R151, 93_implementation_defined.md). -/
inductive Breach
  /-- U1: a command word presented while `BUSY = 1`. -/
  | commandWhileBusy
  /-- U2: the reserved operation code. -/
  | reservedOperation
  /-- U3: LINK traffic before INIT. -/
  | linkBeforeInit
  /-- U4: INIT with `INITED = 1`. -/
  | secondInit
  /-- U5: WRREG with `addr[0] = 1`. -/
  | oddWriteAddress
  /-- U10: BWRITE with a byte of `REC` never written since reset. -/
  | unwrittenRecord
  /-- U11: the host reads `RDATA` before any RDREG or RD1 has completed. -/
  | unwrittenRdata
  /-- U12: a host write to `REC` while `BUSY = 1`. -/
  | recordWriteWhileBusy
  /-- U13: `rst` while `BUSY = 1`. -/
  | resetWhileBusy
  /-- The host reads a byte of `REC` that neither it nor BREAD has written since reset (10_state.md R14, R28). -/
  | unwrittenRecordRead
  /-- The host relies on `rec_rbyte` while `BUSY = 1` (10_state.md R26, 70_reset_and_hazards.md R184). -/
  | recordReadWhileBusy
  /-- The host reads `RDATA` while `BUSY = 1` (10_state.md R18, 70_reset_and_hazards.md R184). -/
  | rdataReadWhileBusy
  deriving DecidableEq, Repr

/-- All the state the spec gives the block, its environment as plain data, and the model's own counters and marks. -/
structure State where
  /-- The parameters the machine is built with (00_scope.md R5). No register of the block: no step changes them, and they
  stand here because `exec` has no other place for a named argument of the model (log entry 16). -/
  params : Params
  /-- `PINDIR` (10_state.md R11). -/
  pinDir : PinLatch
  /-- `PINOUT` (10_state.md R12). -/
  pinOut : PinLatch
  /-- `REC[0..7]` (10_state.md R14). -/
  record : Record
  /-- `ADDR` (10_state.md R17). -/
  addr : Byte
  /-- `DATA` (10_state.md R17). -/
  data : Byte
  /-- `SHREG` (10_state.md R18). -/
  shreg : Byte
  /-- `RDATA` (10_state.md R18). -/
  rdata : Byte
  /-- `BUSY` (10_state.md R19). -/
  busy : Bool
  /-- `OP` (10_state.md R19). -/
  op : BitVec 3
  /-- `UPC` (10_state.md R20). -/
  upc : BitVec 9
  /-- `INITED` (10_state.md R21). -/
  inited : Bool
  /-- `CUR[0..2]` (10_state.md R22). -/
  cur : Buttons
  /-- `PREV[0..2]` (10_state.md R22). -/
  prev : Buttons
  /-- The chip on the other end of the lines, where it is the reference peer; none: any chip or no chip, whose every
  answer is a free value (20_memory.md R55; log entry 9). -/
  chip : Option Chip
  /-- The levels of `btn_in` at the coming SAMPLEs, the next first; a free value where the list ends (log entry 3). -/
  btnIn : List Buttons
  /-- The levels of an undriven IO at the coming `GET(IO)`s; a free value where the list ends (log entry 3). -/
  ioIn : List Bool
  /-- The inputs still to come, the next first (log entry 4). -/
  inbox : List Input
  /-- The model's own counter behind the free levels (log entry 2). -/
  draws : Nat
  /-- The model's own record of what the block did on its pins, the latest first (log entry 5). -/
  trace : List PinEvent
  /-- The model's own: bit `k` says that the host or BREAD has written `REC[k]` since reset (log entry 5). -/
  recWritten : BitVec 8
  /-- The model's own: `RDATA` has been written since reset (log entry 5). -/
  rdataWritten : Bool
  /-- The model's own: the first use outside the contract, if any (log entry 6). -/
  breach : Option Breach
  deriving DecidableEq, Repr

/-- The reasons the machine can stop with a fault. The spec gives the block none (60_exceptions.md R150). -/
inductive Fault
  /-- Raised by the sequencer alone, when `BUSY = 1` and `UPC` is the index of no micro-operation of `OP`'s list, which
  no run reaches (10_state.md R20). Safe: the spec gives such a state no step (log entry 15). -/
  | sequencerOffList
  deriving DecidableEq, Repr

/-- The reasons a step has no meaning. -/
inductive Refusal
  /-- Raised by `exec` for an instruction that has no meaning yet. Safe. No arm raises it. -/
  | notModelled (mnemonic : String)
  /-- Raised by `Safety.contractStep` alone, never by `step`: a use outside the host's contract, which the spec has a
  model refuse (00_scope.md R7, 93_implementation_defined.md). Safe (log entry 6). -/
  | outOfContract (b : Breach)
  deriving DecidableEq, Repr

/-- The outcome of a step of this machine. -/
abbrev Outcome := Host.Outcome State Fault Refusal

/-- What an input asks for: an instruction to run from a state, or nothing more than the state already reached. -/
inductive Fetched
  | run (i : Instr) (s : State)
  | done (s : State)
  deriving DecidableEq, Repr

/-- The state after reset: the table of 10_state.md R28. DESIGN CHOICE (log entry 1): zero for `REC`, `ADDR`, `DATA`,
`OP`, `SHREG`, `RDATA`, which the spec leaves unspecified. The parameters are the defaults. -/
def State.reset : State where
  params := Config.params
  pinDir := ⟨false, false, false⟩
  pinOut := ⟨false, false, false⟩
  record := ⟨0, 0, 0, 0, 0, 0, 0, 0⟩
  addr := 0
  data := 0
  shreg := 0
  rdata := 0
  busy := false
  op := 0
  upc := 0
  inited := false
  cur := Config.btnReset
  prev := Config.btnReset
  chip := none
  btnIn := []
  ioIn := []
  inbox := []
  draws := 0
  trace := []
  recWritten := 0
  rdataWritten := false
  breach := none

/-- The state after reset of a machine built with other parameters (00_scope.md R5). -/
def State.resetWith (p : Params) : State := { State.reset with params := p }

end Sys2Proof.Machine
end

