-- ==== Sys2Proof/Machine/Memory.lean ====
section
/-! DEFINITION. Memory in its canonical form: the 31 bytes of RAM in the RTC chip (20_memory.md R42, R55). -/

namespace Sys2Proof.Machine

/-- What an unlisted address reads as. DESIGN CHOICE (log entry 19): the spec gives no contents after power-on. -/
def Memory.blank : Byte := 0

/-- The byte at an address. -/
def Memory.read (m : Memory) (a : Nat) : Byte :=
  match m with
  | [] => Memory.blank
  | (k, b) :: rest => if k = a then b else Memory.read rest a

/-- Store a byte, keeping the addresses rising and no blank cell listed. -/
def Memory.write (m : Memory) (a : Nat) (v : Byte) : Memory :=
  match m with
  | [] => if v = Memory.blank then [] else [(a, v)]
  | (k, b) :: rest =>
    if a < k then (if v = Memory.blank then (k, b) :: rest else (a, v) :: (k, b) :: rest)
    else if a = k then (if v = Memory.blank then rest else (a, v) :: rest)
    else (k, b) :: Memory.write rest a v

/-- Every address of the list is above `lo`, they rise strictly, and no cell is blank. -/
def Memory.wfAbove (lo : Nat) (m : Memory) : Bool :=
  match m with
  | [] => true
  | (k, b) :: rest => decide (lo < k + 1) && b != Memory.blank && Memory.wfAbove (k + 1) rest

/-- The canonical form. -/
def Memory.wf (m : Memory) : Bool := Memory.wfAbove 0 m

end Sys2Proof.Machine
end

