-- ==== Sys2Proof/Machine/Operands.lean ====
section
/-! DEFINITION. Operand forms: the command byte each operation sends, the fields of a command byte, single bits of a
byte, and access to the record and to the pin latches by index. -/

namespace Sys2Proof.Machine

/-- `to_read_address(addr) = addr | 1` (30_encoding.md R75). -/
def toReadAddress (addr : Byte) : Byte := addr ||| Config.readFlag

/-- Bit `i` of a byte, the bit the `i`-th clock pulse carries (20_memory.md R43). -/
def bitOf (b : Byte) (i : Fin 8) : Bool := b.getLsbD i.val

/-- `b[i] <- v`. -/
def setBit (b : Byte) (i : Fin 8) (v : Bool) : Byte :=
  bif v then b ||| (1#8 <<< i.val) else b &&& ~~~(1#8 <<< i.val)

/-- Bit numbers in wire order, least significant first (20_memory.md R43). -/
def bitOrder : List (Fin 8) := [0, 1, 2, 3, 4, 5, 6, 7]

/-- Record indices in wire order, ascending (20_memory.md R44). -/
def byteOrder : List (Fin 8) := [0, 1, 2, 3, 4, 5, 6, 7]

/-- Bit 7 of a command byte; the chip ignores a frame whose command byte has it clear (30_encoding.md R76). -/
def cbOne (c : Byte) : Bool := c.getLsbD 7

/-- Bit 6 of a command byte: RAM (1) or clock registers (0) (30_encoding.md R76). -/
def cbRam (c : Byte) : Bool := c.getLsbD 6

/-- Bits 5:1 of a command byte: the register number, 31 = burst (30_encoding.md R76). -/
def cbReg (c : Byte) : Nat := (c.extractLsb' 1 5).toNat

/-- Bit 0 of a command byte, the read flag (30_encoding.md R76). -/
def cbRead (c : Byte) : Bool := c.getLsbD 0

/-- The latch of one pin. -/
def PinLatch.get (r : PinLatch) (p : Pin) : Bool :=
  match p with
  | .ce => r.ce
  | .sclk => r.sclk
  | .io => r.io

/-- A write of the latch of one pin; the other two keep theirs. -/
def PinLatch.set (r : PinLatch) (p : Pin) (v : Bool) : PinLatch :=
  match p with
  | .ce => { r with ce := v }
  | .sclk => { r with sclk := v }
  | .io => { r with io := v }

/-- `REC[k]` (10_state.md R14). -/
def Record.get (r : Record) (k : Fin 8) : Byte :=
  match k with
  | 0 => r.sec
  | 1 => r.min
  | 2 => r.hour
  | 3 => r.date
  | 4 => r.month
  | 5 => r.dow
  | 6 => r.year
  | 7 => r.wp

/-- `REC[k] <- v` (10_state.md R14). -/
def Record.set (r : Record) (k : Fin 8) (v : Byte) : Record :=
  match k with
  | 0 => { r with sec := v }
  | 1 => { r with min := v }
  | 2 => { r with hour := v }
  | 3 => { r with date := v }
  | 4 => { r with month := v }
  | 5 => { r with dow := v }
  | 6 => { r with year := v }
  | 7 => { r with wp := v }

/-- The eight bytes of the record in wire order (20_memory.md R44). -/
def Record.bytes (r : Record) : List Byte := byteOrder.map r.get

end Sys2Proof.Machine
end

