-- ==== Sys2Proof/Machine/Chip.lean ====
section
/-! DEFINITION. The reference peer, the RTC chip (20_memory.md R55 to R60). Its behaviour is marked general knowledge
in the spec and is no part of the block; a state need not hold one. -/

namespace Sys2Proof.Machine

/-- Element `a` of a bank of chip registers. -/
def bankGet {n : Nat} (v : Vector Byte n) (a : Nat) : Byte := v[a]?.getD 0

/-- `MASK` (20_memory.md R58): bits the chip does not implement read back as 0. -/
def chipMask : Vector Byte 9 := #v[0xFF, 0x7F, 0xBF, 0x3F, 0x1F, 0x07, 0xFF, 0x80, 0xFF]

/-- The write-protect flag, `CK[7][7]` (20_memory.md R55). -/
def Chip.writeProtected (c : Chip) : Bool := (bankGet c.ck 7).getLsbD 7

/-- The halt bit, `CK[0][7]` (20_memory.md R60). -/
def Chip.halted (c : Chip) : Bool := (bankGet c.ck 0).getLsbD 7

/-- `peer_read(cmd, k)` (20_memory.md R59). -/
def Chip.readByte (c : Chip) (cmd : Byte) (k : Nat) : Byte :=
  if cbReg cmd = 31 then
    (bif cbRam cmd then (if k < 31 then c.ram.read k else 0) else (if k < 8 then bankGet c.latch k else 0))
  else
    (bif cbRam cmd then c.ram.read (cbReg cmd) else (if cbReg cmd < 9 then bankGet c.latch (cbReg cmd) else 0))

/-- `peer_store(a, w, ram)` (20_memory.md R58). -/
def Chip.store (c : Chip) (a : Nat) (w : Byte) (ram : Bool) : Chip :=
  if !ram && a == 7 then { c with ck := c.ck.setIfInBounds 7 (w &&& 0x80) }
  else if c.writeProtected then c
  else if ram && decide (a < 31) then { c with ram := c.ram.write a w }
  else if !ram && decide (a < 9) then { c with ck := c.ck.setIfInBounds a (w &&& bankGet chipMask a) }
  else c

/-- `CE^` (20_memory.md R56). -/
def Chip.select (c : Chip) : Chip :=
  { c with phase := .cmd, n := 0, k := 0, cmd := 0, wbuf := [], latch := c.ck }

/-- The phase that follows the eighth bit of a command byte (20_memory.md R56). -/
def phaseAfterCommand (cmd : Byte) : Phase :=
  bif !cbOne cmd then .ignore else bif cbRead cmd then .rdata else .wdata

/-- A rising edge in phase CMD (20_memory.md R56). -/
def Chip.commandBit (c : Chip) (b : Bool) : Chip :=
  let cmd := setBit c.cmd c.n b
  if c.n = 7 then
    match phaseAfterCommand cmd with
    | .rdata => { c with cmd := cmd, n := 0, phase := .rdata, out := c.readByte cmd 0 }
    | .wdata => { c with cmd := cmd, n := 0, phase := .wdata, w := 0 }
    | ph => { c with cmd := cmd, n := 0, phase := ph }
  else { c with cmd := cmd, n := c.n + 1 }

/-- What a completed data byte of a write frame does (20_memory.md R56). -/
def Chip.takeByte (c : Chip) (w : Byte) : Chip :=
  if cbReg c.cmd = 31 then
    (bif cbRam c.cmd then c.store c.k w true else { c with wbuf := c.wbuf ++ [w] })
  else c.store (cbReg c.cmd) w (cbRam c.cmd)

/-- A rising edge in phase WDATA (20_memory.md R56). -/
def Chip.dataBit (c : Chip) (b : Bool) : Chip :=
  let w := setBit c.w c.n b
  if c.n = 7 then { c.takeByte w with k := c.k + 1, n := 0, w := 0 }
  else { c with w := w, n := c.n + 1 }

/-- A rising edge of SCLK while CE = 1, with IO at level `b` (20_memory.md R56). -/
def Chip.clockRise (c : Chip) (b : Bool) : Chip :=
  match c.phase with
  | .cmd => c.commandBit b
  | .wdata => c.dataBit b
  | .rdata => c
  | .ignore => c
  | .idle => c

/-- A falling edge of SCLK while CE = 1 (20_memory.md R57). -/
def Chip.clockFall (c : Chip) : Chip :=
  match c.phase with
  | .rdata =>
    if c.n = 7 then
      { c with drive := some (bitOf c.out 7), n := 0, k := c.k + 1, out := c.readByte c.cmd (c.k + 1) }
    else { c with drive := some (bitOf c.out c.n), n := c.n + 1 }
  | .cmd => c
  | .wdata => c
  | .ignore => c
  | .idle => c

/-- The clock registers after the commit of a burst of eight bytes (20_memory.md R58); the charger keeps its value. -/
def burstCommit (ck : Vector Byte 9) (b : List Byte) : Vector Byte 9 :=
  Vector.ofFn fun (i : Fin 9) =>
    if i.val < 8 then b.getD i.val 0 &&& bankGet chipMask i.val else bankGet ck i.val

/-- Whether `CEv` commits a clock burst write (20_memory.md R58). -/
def Chip.commits (c : Chip) : Bool :=
  decide (c.phase = .wdata) && decide (cbReg c.cmd = 31) && !cbRam c.cmd && decide (c.wbuf.length = 8) && !c.writeProtected

/-- `CEv` (20_memory.md R58). -/
def Chip.deselect (c : Chip) : Chip :=
  { c with ck := bif c.commits then burstCommit c.ck c.wbuf else c.ck, phase := .idle, drive := none }

/-- What the chip does at an edge, with IO at level `b`. -/
def Chip.react (e : ChipEdge) (b : Bool) (c : Chip) : Chip :=
  match e with
  | .none => c
  | .ceRise => c.select
  | .ceFall => c.deselect
  | .sclkRise => c.clockRise b
  | .sclkFall => c.clockFall

/-- The chip in another frame state; its battery-backed registers and RAM hold (70_reset_and_hazards.md R173). -/
def Chip.inFrame (f : PeerFrame) (c : Chip) : Chip :=
  { ck := c.ck, ram := c.ram, latch := f.latch, phase := f.phase, n := f.n, k := f.k, cmd := f.cmd, w := f.w,
    out := f.out, wbuf := f.wbuf, drive := f.drive }

/-- The chip's oscillator advances its seven time registers (20_memory.md R60): nothing while halted; otherwise to values
the environment gives, within the bits the chip implements and with the halt bit still clear (log entry 14). -/
def Chip.advance (t : Vector Byte 7) (c : Chip) : Chip :=
  bif c.halted then c
  else { c with ck := Vector.ofFn fun (i : Fin 9) =>
           if i.val = 0 then bankGet t 0 &&& 0x7F
           else if i.val < 7 then bankGet t i.val &&& bankGet chipMask i.val
           else bankGet c.ck i.val }

end Sys2Proof.Machine
end

