-- ==== Sys2Proof/Machine/Ops.lean ====
section
/-! DEFINITION. The shared operations: lines and free levels, the micro-operations, running a list of them, accepting an
operation, contract marks, one step of the sequencer, and reset.

There is no operation that takes an exception and none that returns from one: the block raises no exception, takes no
interrupt, saves no state and has no vector (60_exceptions.md R150, R153, R156). -/

namespace Sys2Proof.Machine

/-! ### Lines -/

/-- The level the block drives on a line, none while the pin is an input (10_state.md R11, R12, R24). -/
def driven (s : State) (p : Pin) : Option Bool :=
  bif s.pinDir.get p then some (s.pinOut.get p) else none

/-- What the peer puts on IO; it never drives CE or SCLK (10_state.md R13). -/
def peerDrive (s : State) (p : Pin) : Option Bool :=
  match p, s.chip with
  | .io, some c => c.drive
  | _, _ => none

/-- `line(p)` (10_state.md R13), with contention told apart. -/
def line (s : State) (p : Pin) : LineLevel :=
  match driven s p, peerDrive s p with
  | some b, none => .level b
  | none, some b => .level b
  | none, none => .floating
  | some _, some _ => .contention

/-- The free level of this step (log entry 2). -/
def drawn (s : State) : Bool := Config.freeLevel s.draws

/-- What the environment puts on a floating line: its next given level for IO, else a free level (10_state.md R25). -/
def floatingLevel (s : State) (p : Pin) : Bool :=
  match p with
  | .io => s.ioIn.headD (drawn s)
  | .ce => drawn s
  | .sclk => drawn s

/-- What `GET(p)` returns (10_state.md R13): the level of the line where it has one, else a draw. A contended line has no
meaning in the spec; reading one gives a free level (log entry 2). -/
def sense (s : State) (p : Pin) : Bool :=
  match line s p with
  | .level b => b
  | .floating => floatingLevel s p
  | .contention => drawn s

/-- The environment's given levels after `GET(p)`: one is used up when IO floats. -/
def ioInAfterGet (s : State) (p : Pin) : List Bool :=
  match p, line s p with
  | .io, .floating => s.ioIn.tail
  | _, _ => s.ioIn

/-- The level the chip finds on IO at a rising clock edge: that of the line, else a free level (log entry 10). -/
def ioAtChip (s : State) : Bool :=
  match line s .io with
  | .level b => b
  | .floating => drawn s
  | .contention => drawn s

/-- The edge the chip sees between two states of the pins (20_memory.md R56 to R58). DESIGN CHOICE (log entry 10): an
undriven CE that becomes driven is an edge to its level, a line that stops being driven makes none. -/
def edgeBetween (before after : State) : ChipEdge :=
  match driven before .ce, driven after .ce with
  | some true, some true =>
    match driven before .sclk, driven after .sclk with
    | some false, some true => .sclkRise
    | some true, some false => .sclkFall
    | _, _ => .none
  | _, some true => .ceRise
  | some false, some false => .none
  | _, some false => .ceFall
  | _, none => .none

/-! ### Micro-operations -/

/-- `PINDIR` after a micro-operation (00_scope.md R7, 10_state.md R11). -/
def MicroOp.dirAfter (m : MicroOp) (r : PinLatch) : PinLatch :=
  match m with
  | .dir p d => r.set p d
  | .lvl _ _ => r
  | .get _ _ => r
  | .nop2 => r

/-- `PINOUT` after a micro-operation (00_scope.md R7, 10_state.md R12). -/
def MicroOp.outAfter (m : MicroOp) (r : PinLatch) : PinLatch :=
  match m with
  | .dir _ _ => r
  | .lvl p v => r.set p v
  | .get _ _ => r
  | .nop2 => r

/-- `SHREG` after a micro-operation (40_link_primitives.md R103). -/
def MicroOp.shregAfter (m : MicroOp) (s : State) : Byte :=
  match m with
  | .dir _ _ => s.shreg
  | .lvl _ _ => s.shreg
  | .get p i => setBit s.shreg i (sense s p)
  | .nop2 => s.shreg

/-- The environment's given IO levels after a micro-operation. -/
def MicroOp.ioInAfter (m : MicroOp) (s : State) : List Bool :=
  match m with
  | .dir _ _ => s.ioIn
  | .lvl _ _ => s.ioIn
  | .get p _ => ioInAfterGet s p
  | .nop2 => s.ioIn

/-- A micro-operation as an event on the pins (95_test_vectors.md, notation). -/
def MicroOp.event (m : MicroOp) (s : State) : PinEvent :=
  match m with
  | .dir p d => .dir p d
  | .lvl p v => .lvl p v
  | .get p _ => .get p (sense s p)
  | .nop2 => .nop2

/-- The state with the pins as a micro-operation leaves them. -/
def MicroOp.onPins (m : MicroOp) (s : State) : State :=
  { s with pinDir := m.dirAfter s.pinDir, pinOut := m.outAfter s.pinOut }

/-- One micro-operation (00_scope.md R7): it takes effect on the pins, and the chip, if there is one, reacts to the edge
it makes, before the next begins (20_memory.md R51). -/
def MicroOp.exec (m : MicroOp) (s : State) : State :=
  { m.onPins s with
    shreg := m.shregAfter s
    chip := s.chip.map (Chip.react (edgeBetween s (m.onPins s)) (ioAtChip (m.onPins s)))
    ioIn := m.ioInAfter s
    draws := s.draws + 1
    trace := m.event s :: s.trace }

/-- `REC[k] <- v`, marked as written (10_state.md R14, R26). -/
def writeRecord (k : Fin 8) (v : Byte) (s : State) : State :=
  { s with record := s.record.set k v, recWritten := setBit s.recWritten k true }

/-- A register transfer (41_link_operations.md R126). -/
def Transfer.apply (x : Transfer) (s : State) : State :=
  match x with
  | .none => s
  | .clearShreg => { s with shreg := 0 }
  | .toRdata => { s with rdata := s.shreg, rdataWritten := true }
  | .toRecord k => writeRecord k s.shreg s
  | .setInited => { s with inited := true }

/-- One step of an expansion: the micro-operation, and the transfer that shares its step. -/
def Entry.exec (e : Entry) (s : State) : State := e.xfer.apply (e.op.exec s)

/-- A list of steps, in list order (20_memory.md R51). -/
def runEntries (es : List Entry) (s : State) : State :=
  match es with
  | [] => s
  | e :: rest => runEntries rest (e.exec s)

/-- The least number of `clk` cycles a micro-operation lasts (70_reset_and_hazards.md R181). -/
def MicroOp.minCycles (m : MicroOp) : Nat :=
  match m with
  | .dir _ _ => 1
  | .lvl _ _ => 1
  | .get _ _ => 1
  | .nop2 => Config.nSettle

/-- The least number of `clk` cycles a list lasts (40_link_primitives.md R108). -/
def minCycles (es : List Entry) : Nat := (es.map fun e => e.op.minCycles).sum

/-- The least duration of a list in seconds, once `F_CLK` is chosen (70_reset_and_hazards.md R181, R191). -/
def minSeconds (p : Params) (es : List Entry) : Option Rat := p.fClk.map fun f => (minCycles es : Rat) / f

/-- How many levels a list asks of the environment (41_link_operations.md R126). -/
def getCount (es : List Entry) : Nat :=
  es.countP fun e => match e.op with
    | .get _ _ => true
    | .dir _ _ => false
    | .lvl _ _ => false
    | .nop2 => false

/-! ### Contract marks, acceptance, completion -/

/-- Mark the run with its first breach of the contract (60_exceptions.md R151; log entry 6). -/
def mark (b : Option Breach) (s : State) : State := { s with breach := s.breach.or b }

/-- A LINK operation other than INIT before INIT (70_reset_and_hazards.md R175). -/
def breachBeforeInit (s : State) : Option Breach := bif s.inited then none else some .linkBeforeInit

/-- What acceptance of operation `op` with `addr` breaches, if anything (93_implementation_defined.md U2 to U5, U10). -/
def breachOf (op : BitVec 3) (addr : Byte) (s : State) : Option Breach :=
  match op.toNat with
  | 0 => bif s.inited then some .secondInit else none
  | 1 => (breachBeforeInit s).or (bif addr.getLsbD 0 then some .oddWriteAddress else none)
  | 2 => breachBeforeInit s
  | 3 => breachBeforeInit s
  | 4 => (breachBeforeInit s).or (bif s.recWritten == 0xFF then none else some .unwrittenRecord)
  | 5 => breachBeforeInit s
  | 6 => none
  | _ => some .reservedOperation

/-- The acceptance step (10_state.md R19): the word is latched, `UPC <- 0`; `busy` is set for the six LINK operations. -/
def accept (op : BitVec 3) (addr data : Byte) (busy : Bool) (s : State) : State :=
  { mark (breachOf op addr s) s with op := op, addr := addr, data := data, upc := 0, busy := busy }

/-- The greatest value of `UPC`, the index of the last micro-operation of the longest list (41_link_operations.md R127). -/
def upcMax : Nat := 436

/-- `UPC <- UPC + 1` (10_state.md R20), which never exceeds 436 (41_link_operations.md R127). DEDUCED (log entry 8): the
last step of BWRITE leaves it at 436. -/
def nextUpc (u : BitVec 9) : BitVec 9 := BitVec.ofNat 9 (min (u.toNat + 1) upcMax)

/-- After the last of `n` micro-operations, which `nextUpc` counted (10_state.md R19, R20; log entry 8). -/
def finish (n : Nat) (s : State) : State := { s with upc := BitVec.ofNat 9 (min n upcMax), busy := false }

/-- A LINK operation from acceptance to the fall of `BUSY`: its whole expansion `es`, in order (10_state.md R19, R20). -/
def perform (op : BitVec 3) (addr data : Byte) (es : List Entry) (s : State) : State :=
  finish es.length (runEntries es (accept op addr data true s))

/-- A command word meets an idle block, or is dropped: presented while `BUSY = 1` it is not latched and has no effect
(10_state.md R19), and the run is marked (U1). -/
def whenIdle (f : State → State) (s : State) : Outcome :=
  bif s.busy then .next (mark (some .commandWhileBusy) s) else .next (f s)

/-! ### Reset -/

/-- What is known of the chip after `rst`. Between operations its battery-backed registers hold (70_reset_and_hazards.md
R173), and what it makes of its released lines is free (R172). A frame cut short leaves it in any state whatever (R171,
93_implementation_defined.md U13; log entry 13). -/
def chipAfterReset (s : State) : Option Chip :=
  bif s.busy then none else s.chip.map (Chip.inFrame (Config.freePeerFrame s.draws))

/-- `rst` (70_reset_and_hazards.md R170, R171): every register takes its reset value and the lines stop being driven. The
parameters, the chip, the environment's lists, the counter, the record of the pins and the first breach are not the
block's registers and stay, the chip as far as `chipAfterReset` knows it. -/
def resetBlock (s : State) : State :=
  { State.reset with
    params := s.params
    chip := chipAfterReset s
    btnIn := s.btnIn
    ioIn := s.ioIn
    inbox := s.inbox
    draws := s.draws + 1
    trace := .release :: s.trace
    breach := s.breach.or (bif s.busy then some .resetWhileBusy else none) }

end Sys2Proof.Machine
end

