-- ==== Sys2Proof/Machine/Button.lean ====
section
/-! DEFINITION. BTN: the operation SAMPLE (42_button_tracker.md R140), and the reserved operation code
(30_encoding.md R74), the two that complete in the acceptance step. -/

namespace Sys2Proof.Machine

/-- The levels of `btn_in` at this step (10_state.md R25): those the environment gives, else three free levels. -/
def buttonLevels (s : State) : Buttons :=
  s.btnIn.headD (BitVec.ofBool (Config.freeLevel (s.draws + 2)) ++ BitVec.ofBool (Config.freeLevel (s.draws + 1)) ++
    BitVec.ofBool (Config.freeLevel s.draws))

/-- The six assignments of SAMPLE in one step (42_button_tracker.md R140). -/
def sampleButtons (s : State) : State :=
  { s with prev := s.cur, cur := buttonLevels s, btnIn := s.btnIn.tail, draws := s.draws + 3 }

/-- SAMPLE (42_button_tracker.md R140): completes in the step that accepts it, `BUSY` stays 0 (10_state.md R19). -/
def execSample (addr data : Byte) (s : State) : Outcome :=
  whenIdle (fun t => sampleButtons (accept 0b110 addr data false t)) s

/-- The reserved code (30_encoding.md R74): accepted, and nothing happens; no register other than `OP`, `ADDR`, `DATA`,
`UPC` changes. The run is marked (U2, log entry 6). -/
def execReserved (addr data : Byte) (s : State) : Outcome :=
  whenIdle (accept 0b111 addr data false) s

end Sys2Proof.Machine
end

