-- ==== Sys2Proof/Machine/Primitives.lean ====
section
/-! DEFINITION. The frame and byte-shift primitives as lists of steps (40_link_primitives.md R100 to R103) and the two
frame accesses (00_scope.md R7). -/

namespace Sys2Proof.Machine

/-- `START` (40_link_primitives.md R100). -/
def startList : List Entry :=
  [{ op := .dir .io true }, { op := .lvl .ce true }, { op := .nop2 }]

/-- `STOP` (40_link_primitives.md R101); `x` is the transfer that shares the step of its `NOP2`. -/
def stopList (x : Transfer) : List Entry :=
  [{ op := .lvl .ce false }, { op := .nop2, xfer := x }]

/-- Bit `i` of `OUT8(b, release)` (40_link_primitives.md R102). -/
def outBit (b : Byte) (release : Bool) (i : Fin 8) : List Entry :=
  [{ op := .lvl .io (bitOf b i) }, { op := .nop2 }, { op := .lvl .sclk true }, { op := .nop2 }] ++
  (bif release && i == 7 then [{ op := .dir .io false }] else [{ op := .lvl .sclk false }, { op := .nop2 }])

/-- `OUT8(b, release)` (40_link_primitives.md R102). -/
def out8 (b : Byte) (release : Bool) : List Entry := bitOrder.flatMap (outBit b release)

/-- Bit `i` of `IN8()` (40_link_primitives.md R103); `x` is the transfer that takes the completed byte. -/
def inBit (x : Transfer) (i : Fin 8) : List Entry :=
  [{ op := .lvl .sclk true, xfer := bif i == 0 then .clearShreg else .none }, { op := .nop2 },
   { op := .lvl .sclk false }, { op := .nop2 },
   { op := .get .io i, xfer := bif i == 7 then x else .none }]

/-- `IN8()` (40_link_primitives.md R103). -/
def in8 (x : Transfer) : List Entry := bitOrder.flatMap (inBit x)

/-- `MemWrite(c, n, v)` (00_scope.md R7); `x` is the transfer that shares its last step. -/
def memWrite (c : Byte) (v : List Byte) (x : Transfer) : List Entry :=
  startList ++ out8 c false ++ v.flatMap (fun b => out8 b false) ++ stopList x

/-- `MemRead(c, n)` (00_scope.md R7), the `k`-th byte taken by the `k`-th transfer of `dest`. -/
def memRead (c : Byte) (dest : List Transfer) : List Entry :=
  startList ++ out8 c true ++ dest.flatMap in8 ++ stopList .none

end Sys2Proof.Machine
end

