-- ==== Sys2Proof/Machine/Link.lean ====
section
/-! DEFINITION. The six LINK operations (41_link_operations.md R120 to R125) and the sequencer that runs them one
micro-operation at a time (10_state.md R20). -/

namespace Sys2Proof.Machine

/-- The expansion of INIT (41_link_operations.md R120). -/
def initList (p : Params) : List Entry :=
  [{ op := .dir .ce true }, { op := .dir .sclk true }, { op := .dir .io true },
   { op := .lvl .ce false }, { op := .lvl .sclk false }, { op := .lvl .io false }] ++
  memWrite p.cmdWp [p.valWpOff] .none ++ memWrite p.cmdTcs [p.valTcsOff] .setInited

/-- The expansion of WRREG (41_link_operations.md R121). -/
def wrregList (addr data : Byte) : List Entry := memWrite addr [data] .none

/-- The expansion of RDREG (41_link_operations.md R122). -/
def rdregList (addr : Byte) : List Entry := memRead (toReadAddress addr) [.toRdata]

/-- The expansion of RD1 (41_link_operations.md R123). -/
def rd1List (addr : Byte) : List Entry := memRead (toReadAddress addr) [.toRdata]

/-- The expansion of BWRITE (41_link_operations.md R124). -/
def bwriteList (p : Params) (r : Record) : List Entry := memWrite p.cmdBurst r.bytes .none

/-- The expansion of BREAD (41_link_operations.md R125). -/
def breadList (p : Params) : List Entry := memRead (toReadAddress p.cmdBurst) (byteOrder.map .toRecord)

/-- INIT (41_link_operations.md R120). -/
def execInit (addr data : Byte) (s : State) : Outcome :=
  whenIdle (perform 0b000 addr data (initList s.params)) s

/-- WRREG (41_link_operations.md R121). -/
def execWrreg (addr data : Byte) (s : State) : Outcome :=
  whenIdle (perform 0b001 addr data (wrregList addr data)) s

/-- RDREG (41_link_operations.md R122). -/
def execRdreg (addr data : Byte) (s : State) : Outcome :=
  whenIdle (perform 0b010 addr data (rdregList addr)) s

/-- RD1 (41_link_operations.md R123). -/
def execRd1 (addr data : Byte) (s : State) : Outcome :=
  whenIdle (perform 0b011 addr data (rd1List addr)) s

/-- BWRITE (41_link_operations.md R124): the eight bytes sent are those of `REC` at acceptance. -/
def execBwrite (addr data : Byte) (s : State) : Outcome :=
  whenIdle (perform 0b100 addr data (bwriteList s.params s.record)) s

/-- BREAD (41_link_operations.md R125). -/
def execBread (addr data : Byte) (s : State) : Outcome :=
  whenIdle (perform 0b101 addr data (breadList s.params)) s

/-- The list the sequencer is in, a function of `OP`, the operand latches, `REC` and the parameters (10_state.md R20).
SAMPLE and the reserved code have none (10_state.md R19). -/
def expansion (s : State) : List Entry :=
  match s.op.toNat with
  | 0 => initList s.params
  | 1 => wrregList s.addr s.data
  | 2 => rdregList s.addr
  | 3 => rd1List s.addr
  | 4 => bwriteList s.params s.record
  | 5 => breadList s.params
  | _ => []

/-- One step of the LINK sequencer (10_state.md R20): micro-operation number `UPC`, then `UPC <- UPC + 1` (`nextUpc`);
`BUSY` falls with the last (R19). -/
def sequencerStep (s : State) : Outcome :=
  match (expansion s)[s.upc.toNat]? with
  | none => .fault .sequencerOffList
  | some e =>
    .next { e.exec s with
            upc := nextUpc s.upc
            busy := decide (s.upc.toNat + 1 < (expansion s).length) }

end Sys2Proof.Machine
end

