-- ==== Sys2Proof/Machine/CommandByte.lean ====
section
/-! DEFINITION. The rows of format CB (30_encoding.md R76): a command byte is the first byte of a frame (00_scope.md R9),
and its meaning is the frame it opens, sent as the operation its row names sends it. DESIGN CHOICE (log entry 7): the
frame runs by itself, outside an operation, so `OP`, `ADDR`, `DATA`, `UPC`, `BUSY` and `INITED` keep their values.
The bytes of the named rows are parameters (00_scope.md R5; the table gives their defaults). -/

namespace Sys2Proof.Machine

/-- A frame by itself, with the breach it is, if any. -/
def sendFrame (b : Option Breach) (es : List Entry) (s : State) : State := runEntries es (mark b s)

/-- A write frame of one data byte by itself, with the breach a WRREG of that command byte is. -/
def writeFrame (c v : Byte) (s : State) : State := sendFrame (breachOf 0b001 c s) (memWrite c [v] .none) s

/-- A read frame by itself, with the breach a read is. -/
def readFrame (c : Byte) (dest : List Transfer) (s : State) : State :=
  sendFrame (breachBeforeInit s) (memRead c dest) s

/-- Command byte `CMD_WP` with `VAL_WP_OFF`: INIT's first frame (41_link_operations.md R120). -/
def execCbWpWrite (s : State) : Outcome := whenIdle (writeFrame s.params.cmdWp s.params.valWpOff) s

/-- Command byte `CMD_TCS` with `VAL_TCS_OFF`: INIT's second frame (41_link_operations.md R120). -/
def execCbTcsWrite (s : State) : Outcome := whenIdle (writeFrame s.params.cmdTcs s.params.valTcsOff) s

/-- Command byte `CMD_BURST` with `REC[0..7]`: the frame of BWRITE (41_link_operations.md R124). -/
def execCbBurstWrite (s : State) : Outcome :=
  whenIdle (fun t => sendFrame (breachOf 0b100 t.params.cmdBurst t) (bwriteList t.params t.record) t) s

/-- Command byte `CMD_BURST | 1` and eight bytes into `REC[0..7]`: the frame of BREAD (41_link_operations.md R125). -/
def execCbBurstRead (s : State) : Outcome :=
  whenIdle (readFrame (toReadAddress s.params.cmdBurst) (byteOrder.map .toRecord)) s

/-- Command byte `CMD_SEC` with the byte in `DATA`: the frame WRREG sends to the seconds register
(41_link_operations.md R131, R132). -/
def execCbSecWrite (s : State) : Outcome := whenIdle (writeFrame s.params.cmdSec s.data) s

/-- Command byte `CMD_SEC | 1` and one byte into `RDATA`: the frame of the seconds probe (41_link_operations.md R133). -/
def execCbSecRead (s : State) : Outcome := whenIdle (readFrame (toReadAddress s.params.cmdSec) [.toRdata]) s

/-- Any other write form with the byte in `DATA`: the frame WRREG sends (30_encoding.md R75, 41_link_operations.md R121). -/
def execCbAnyWrite (addr7 : BitVec 7) (s : State) : Outcome := whenIdle (writeFrame (addr7 ++ 0#1) s.data) s

/-- Any other read form and one byte into `RDATA`: the frame RDREG and RD1 send (30_encoding.md R75,
41_link_operations.md R122). -/
def execCbAnyRead (addr7 : BitVec 7) (s : State) : Outcome := whenIdle (readFrame (addr7 ++ 1#1) [.toRdata]) s

end Sys2Proof.Machine
end

