-- ==== Sys2Proof/Machine/Dispatch.lean ====
section
/-! DEFINITION. The one dispatch: an arm for each row of the opcode table. -/

namespace Sys2Proof.Machine

def exec (i : Instr) (s : State) : Host.Outcome State Fault Refusal :=
  match i with
  | .init addr data => Sys2Proof.Machine.execInit addr data s
  | .wrreg addr data => Sys2Proof.Machine.execWrreg addr data s
  | .rdreg addr data => Sys2Proof.Machine.execRdreg addr data s
  | .rd1 addr data => Sys2Proof.Machine.execRd1 addr data s
  | .bwrite addr data => Sys2Proof.Machine.execBwrite addr data s
  | .bread addr data => Sys2Proof.Machine.execBread addr data s
  | .sample addr data => Sys2Proof.Machine.execSample addr data s
  | .reserved addr data => Sys2Proof.Machine.execReserved addr data s
  | .cbWpWrite => Sys2Proof.Machine.execCbWpWrite s
  | .cbTcsWrite => Sys2Proof.Machine.execCbTcsWrite s
  | .cbBurstWrite => Sys2Proof.Machine.execCbBurstWrite s
  | .cbBurstRead => Sys2Proof.Machine.execCbBurstRead s
  | .cbSecWrite => Sys2Proof.Machine.execCbSecWrite s
  | .cbSecRead => Sys2Proof.Machine.execCbSecRead s
  | .cbAnyWrite addr7 => Sys2Proof.Machine.execCbAnyWrite addr7 s
  | .cbAnyRead addr7 => Sys2Proof.Machine.execCbAnyRead addr7 s

end Sys2Proof.Machine
end

