-- ==== Sys2Proof/WellFormed.lean ====
section
/-! DEFINITION. Which instructions are well formed. -/

namespace Sys2Proof

/-- The bits 7:1 of the write forms that have a row of their own in the opcode table: 0x80, 0x8E, 0x90, 0xBE. -/
def namedWriteForms : List (BitVec 7) := [0x40, 0x47, 0x48, 0x5F]

/-- The bits 7:1 of the read forms that have a row of their own in the opcode table: 0x81, 0xBF. -/
def namedReadForms : List (BitVec 7) := [0x40, 0x5F]

/-- Every command word is well formed (30_encoding.md R73: an ignored field may hold any value). A generic command byte
is well formed unless a more specific row names that byte (log entry 12). -/
def Instr.wellFormed (i : Instr) : Bool :=
  match i with
  | .init _ _ => true
  | .wrreg _ _ => true
  | .rdreg _ _ => true
  | .rd1 _ _ => true
  | .bwrite _ _ => true
  | .bread _ _ => true
  | .sample _ _ => true
  | .reserved _ _ => true
  | .cbWpWrite => true
  | .cbTcsWrite => true
  | .cbBurstWrite => true
  | .cbBurstRead => true
  | .cbSecWrite => true
  | .cbSecRead => true
  | .cbAnyWrite a => !namedWriteForms.contains a
  | .cbAnyRead a => !namedReadForms.contains a

end Sys2Proof
end

