-- ==== Sys2Proof/Decode.lean ====
section
/-! DEFINITION. Decoding of command words and command bytes, the encoder, and the rows of the opcode table. -/

namespace Sys2Proof

/-- What is encoded: a word on the command port or a byte on the wire (30_encoding.md, opening: "two encodings"). -/
inductive Code
  | command (w : CmdWord)
  | wire (b : Byte)
  deriving DecidableEq, Repr

/-- Why bits are no instruction. -/
inductive DecodeError
  /-- The word has a bit set above bit 18; the command port has 19 bits (10_state.md R24). -/
  | commandWordTooWide
  /-- Neither one byte (a command byte) nor three (a command word). -/
  | notOneOrThreeBytes
  deriving DecidableEq, Repr

/-- `op`, bits 18:16 of a command word (30_encoding.md R71). -/
def opField (w : CmdWord) : BitVec 3 := w.extractLsb' 16 3

/-- `addr`, bits 15:8 of a command word (30_encoding.md R71). -/
def addrField (w : CmdWord) : Byte := w.extractLsb' 8 8

/-- `data`, bits 7:0 of a command word (30_encoding.md R71). -/
def dataField (w : CmdWord) : Byte := w.extractLsb' 0 8

/-- Decoding a command word, total (30_encoding.md R72): every `op` has a row, the reserved code among them. -/
def decodeCommand (w : CmdWord) : Instr :=
  match (opField w).toNat with
  | 0 => .init (addrField w) (dataField w)
  | 1 => .wrreg (addrField w) (dataField w)
  | 2 => .rdreg (addrField w) (dataField w)
  | 3 => .rd1 (addrField w) (dataField w)
  | 4 => .bwrite (addrField w) (dataField w)
  | 5 => .bread (addrField w) (dataField w)
  | 6 => .sample (addrField w) (dataField w)
  | _ => .reserved (addrField w) (dataField w)

/-- Decoding a command byte, total (30_encoding.md R76). The rows overlap: a byte with a row of its own is that row, any
other the generic write or read form by its bit 0. DEDUCED (log entry 12): the table lists the specific rows first. -/
def decodeByte (b : Byte) : Instr :=
  match b.toNat with
  | 0x8E => .cbWpWrite
  | 0x90 => .cbTcsWrite
  | 0xBE => .cbBurstWrite
  | 0xBF => .cbBurstRead
  | 0x80 => .cbSecWrite
  | 0x81 => .cbSecRead
  | _ => bif b.getLsbD 0 then .cbAnyRead (b.extractLsb' 1 7) else .cbAnyWrite (b.extractLsb' 1 7)

/-- Decoding either encoding. -/
def decode (c : Code) : Instr :=
  match c with
  | .command w => decodeCommand w
  | .wire b => decodeByte b

/-- The code that bytes stand for: one byte is a command byte, three are a command word, the first byte the least
significant. DESIGN CHOICE (log entry 18): the command port has no bytes; 00_scope.md R5 gives the word 19 bits. -/
def codeOfBytes (bs : List Byte) : Except DecodeError Code :=
  match bs with
  | [b] => .ok (.wire b)
  | [b0, b1, b2] =>
    if b2.toNat < 8 then .ok (.command ((b2 ++ b1 ++ b0).setWidth 19)) else .error .commandWordTooWide
  | _ => .error .notOneOrThreeBytes

/-- Decoding of any bytes: an instruction, or the name of what is wrong with them. -/
def decodeBytes (bs : List Byte) : Except DecodeError Instr :=
  match codeOfBytes bs with
  | .ok c => .ok (decode c)
  | .error e => .error e

/-- A command word from its three fields: `op << 16 | addr << 8 | data` (30_encoding.md R81). -/
def commandWord (op : BitVec 3) (addr data : Byte) : CmdWord := op ++ addr ++ data

/-- The code of an instruction, from the match column of 30_encoding.md R72 and the bits of R76. -/
def encode (i : Instr) : Code :=
  match i with
  | .init a d => .command (commandWord 0b000 a d)
  | .wrreg a d => .command (commandWord 0b001 a d)
  | .rdreg a d => .command (commandWord 0b010 a d)
  | .rd1 a d => .command (commandWord 0b011 a d)
  | .bwrite a d => .command (commandWord 0b100 a d)
  | .bread a d => .command (commandWord 0b101 a d)
  | .sample a d => .command (commandWord 0b110 a d)
  | .reserved a d => .command (commandWord 0b111 a d)
  | .cbWpWrite => .wire 0x8E
  | .cbTcsWrite => .wire 0x90
  | .cbBurstWrite => .wire 0xBE
  | .cbBurstRead => .wire 0xBF
  | .cbSecWrite => .wire 0x80
  | .cbSecRead => .wire 0x81
  | .cbAnyWrite a => .wire (a ++ 0#1)
  | .cbAnyRead a => .wire (a ++ 1#1)

/-- The bytes of a code, least significant first (log entry 18). -/
def bytesOfCode (c : Code) : List Byte :=
  match c with
  | .command w => [w.extractLsb' 0 8, w.extractLsb' 8 8, (w.extractLsb' 16 3).setWidth 8]
  | .wire b => [b]

/-- The bytes of a table word of `nbits` bits, least significant first. -/
def layOut (nbits w : Nat) : List Byte :=
  (List.range ((nbits + 7) / 8)).map fun j => BitVec.ofNat 8 (w >>> (8 * j))

/-- The instruction the decoder reads from a word numbered as spec/opcode_table.json numbers it. -/
def decodeTableWord (nbits w : Nat) : Option Instr :=
  match decodeBytes (layOut nbits w) with
  | .ok i => some i
  | .error _ => none

/-- One row of the opcode table: a word `w` selects the row when `w & mask = match` (30_encoding.md R72). -/
structure Row (width : Nat) where
  mnemonic : String
  pattern : BitVec width
  mask : BitVec width
  deriving DecidableEq, Repr

/-- The rows of format CW (30_encoding.md R72). -/
def commandRows : List (Row 19) :=
  [ ⟨"INIT", 0x00000, 0x70000⟩, ⟨"WRREG", 0x10000, 0x70000⟩, ⟨"RDREG", 0x20000, 0x70000⟩,
    ⟨"RD1", 0x30000, 0x70000⟩, ⟨"BWRITE", 0x40000, 0x70000⟩, ⟨"BREAD", 0x50000, 0x70000⟩,
    ⟨"SAMPLE", 0x60000, 0x70000⟩, ⟨"RESERVED", 0x70000, 0x70000⟩ ]

/-- The rows of format CB, as spec/opcode_table.json lists them. -/
def wireRows : List (Row 8) :=
  [ ⟨"CB_WP_WRITE", 0x8E, 0xFF⟩, ⟨"CB_TCS_WRITE", 0x90, 0xFF⟩, ⟨"CB_BURST_WRITE", 0xBE, 0xFF⟩,
    ⟨"CB_BURST_READ", 0xBF, 0xFF⟩, ⟨"CB_SEC_WRITE", 0x80, 0xFF⟩, ⟨"CB_SEC_READ", 0x81, 0xFF⟩,
    ⟨"CB_ANY_WRITE", 0x00, 0x01⟩, ⟨"CB_ANY_READ", 0x01, 0x01⟩ ]

/-- The row's selection rule of 30_encoding.md R72. -/
def Row.selects {n : Nat} (r : Row n) (w : BitVec n) : Bool := w &&& r.mask == r.pattern

/-- The mnemonic of an instruction, as spec/opcode_table.json spells it. -/
def Instr.mnemonic (i : Instr) : String :=
  match i with
  | .init _ _ => "INIT"
  | .wrreg _ _ => "WRREG"
  | .rdreg _ _ => "RDREG"
  | .rd1 _ _ => "RD1"
  | .bwrite _ _ => "BWRITE"
  | .bread _ _ => "BREAD"
  | .sample _ _ => "SAMPLE"
  | .reserved _ _ => "RESERVED"
  | .cbWpWrite => "CB_WP_WRITE"
  | .cbTcsWrite => "CB_TCS_WRITE"
  | .cbBurstWrite => "CB_BURST_WRITE"
  | .cbBurstRead => "CB_BURST_READ"
  | .cbSecWrite => "CB_SEC_WRITE"
  | .cbSecRead => "CB_SEC_READ"
  | .cbAnyWrite _ => "CB_ANY_WRITE"
  | .cbAnyRead _ => "CB_ANY_READ"

end Sys2Proof
end

