-- ==== Sys2Proof/Machine/Flags.lean ====
section
/-! DEFINITION. The block's only condition flags, functions of CUR and PREV (10_state.md R23). -/

namespace Sys2Proof.Machine

/-- `PRESS[2:0]`: bit `b` is 1 exactly when `PREV[b] = 1` and `CUR[b] = 0` (42_button_tracker.md R141). -/
def press (s : State) : Buttons := s.prev &&& ~~~s.cur

/-- `RELEASE[2:0]`: bit `b` is 1 exactly when `PREV[b] = 0` and `CUR[b] = 1` (42_button_tracker.md R142). -/
def release (s : State) : Buttons := ~~~s.prev &&& s.cur

end Sys2Proof.Machine
end

