-- ==== Sys2Proof/Machine/Ports.lean ====
section
/-! DEFINITION. The ports of 10_state.md R24: what the host reads, what the coming input asks for, and a step of a busy
block with the input of that cycle. -/

namespace Sys2Proof.Machine

/-! ### Outputs -/

/-- `busy` (10_state.md R19, R24). -/
def portBusy (s : State) : Bool := s.busy

/-- `rdata` (10_state.md R18, R24): what the register holds. The host's read is the input `readRdata`. -/
def portRdata (s : State) : Byte := s.rdata

/-- `rec_rbyte`, `REC[rec_idx]` (10_state.md R24, R26): what the register holds. The host's read is the input `readRec`. -/
def portRecByte (s : State) (k : Fin 8) : Byte := s.record.get k

/-- `ce`, `sclk`, `io` as the block drives them, none for high impedance (10_state.md R24). -/
def portLine (s : State) (p : Pin) : Option Bool := driven s p

/-! ### Inputs -/

/-- The chip's time advances (20_memory.md R60); without a reference peer there is nothing to advance. -/
def advanceChip (t : Vector Byte 7) (s : State) : State := { s with chip := s.chip.map (Chip.advance t) }

/-- A command word presented for one cycle to an idle block (10_state.md R19): a LINK operation is accepted and its first
micro-operation is the next step; SAMPLE and the reserved code complete at once. -/
def presentWord (w : CmdWord) (s : State) : Fetched :=
  if (opField w).toNat < 6 then .done (accept (opField w) (addrField w) (dataField w) true s)
  else .run (decodeCommand w) s

/-- The host reads `REC[k]`, whose byte is `portRecByte`. Nothing changes; a read of a byte that nothing has written since
reset is out of contract (10_state.md R14, R28). -/
def readRecord (k : Fin 8) (s : State) : State :=
  mark (bif bitOf s.recWritten k then none else some .unwrittenRecordRead) s

/-- The host reads `RDATA`, whose byte is `portRdata`. Nothing changes; a read before any RDREG or RD1 has completed is out
of contract (10_state.md R18, R28, 93_implementation_defined.md U11). -/
def readResult (s : State) : State := mark (bif s.rdataWritten then none else some .unwrittenRdata) s

/-- The host's line `if RDATA = v then <word>` (30_encoding.md R81): a read of `RDATA`, then the word or nothing. -/
def callIfRdata (v : Byte) (w : CmdWord) (s : State) : Fetched :=
  if s.rdata = v then .run (decodeCommand w) (readResult s) else .done (readResult s)

/-- What the coming input asks of an idle block; `s` is the state with that input taken from the inbox. -/
def fetch (x : Input) (s : State) : Fetched :=
  match x with
  | .call w => .run (decodeCommand w) s
  | .present w => presentWord w s
  | .callIfRdata v w => callIfRdata v w s
  | .frame b => .run (decodeByte b) s
  | .writeRec k v => .done (writeRecord k v s)
  | .readRec k => .done (readRecord k s)
  | .readRdata => .done (readResult s)
  | .idle => .done s
  | .rst => .done (resetBlock s)
  | .chipTime t => .done (advanceChip t s)

/-- A busy block with the input of this cycle, before the sequencer's step. A host that calls waits for `BUSY = 0`
(70_reset_and_hazards.md R184); a word presented or a record write is dropped and marked (U1, U12), and so is a read of
`REC` or `RDATA` (10_state.md R18, R26). -/
def busyInput (s : State) : State :=
  match s.inbox with
  | [] => s
  | .call _ :: _ => s
  | .callIfRdata _ _ :: _ => s
  | .frame _ :: _ => s
  | .present _ :: rest => mark (some .commandWhileBusy) { s with inbox := rest }
  | .writeRec _ _ :: rest => mark (some .recordWriteWhileBusy) { s with inbox := rest }
  | .readRec _ :: rest => mark (some .recordReadWhileBusy) { s with inbox := rest }
  | .readRdata :: rest => mark (some .rdataReadWhileBusy) { s with inbox := rest }
  | .idle :: rest => { s with inbox := rest }
  | .rst :: rest => { s with inbox := rest }
  | .chipTime t :: rest => advanceChip t { s with inbox := rest }

/-- Whether the input of this cycle is `rst`. -/
def resetRequested (s : State) : Bool :=
  match s.inbox with
  | .rst :: _ => true
  | _ => false

/-- A step of a busy block: `rst` ends the operation (60_exceptions.md R156), else the sequencer steps. -/
def busyStep (s : State) : Outcome :=
  bif resetRequested s then .next (resetBlock (busyInput s)) else sequencerStep (busyInput s)

/-- Bits of the opcode table as the input that brings them to the block: a command byte as a frame, a command word as a
call (log entry 4); nothing for bits that are neither. -/
def inputOfTableWord (nbits w : Nat) : List Input :=
  match codeOfBytes (layOut nbits w) with
  | .ok (.command c) => [.call c]
  | .ok (.wire b) => [.frame b]
  | .error _ => []

end Sys2Proof.Machine
end

