-- ==== Sys2Proof/Machine/Step.lean ====
section
/-! DEFINITION. One step of the machine. -/

namespace Sys2Proof.Machine

/-- One step. A busy block steps its sequencer (10_state.md R20). An idle block takes the next input; without one it
waits (70_reset_and_hazards.md R170, 60_exceptions.md R162). -/
def step (s : State) : Host.Outcome State Fault Refusal :=
  bif s.busy then busyStep s
  else
    match s.inbox with
    | [] => .next s
    | x :: rest =>
      match fetch x { s with inbox := rest } with
      | .run i t => exec i t
      | .done t => .next t

/-- `s` with an instruction as the next thing its step runs: the block idle, and the instruction first in the inbox. -/
def State.withFetchWord (s : State) (nbits w : Nat) : State :=
  { s with busy := false, inbox := inputOfTableWord nbits w ++ s.inbox }

end Sys2Proof.Machine
end

