-- ==== Sys2Proof/Machine/Idioms.lean ====
section
/-! DEFINITION. The host idioms of 30_encoding.md R82 as lists of inputs (41_link_operations.md R131 to R134,
42_button_tracker.md R145). None is an
operation of the block. -/

namespace Sys2Proof.Machine

/-- `REC <- r`: eight writes on the record port, in index order (30_encoding.md R81, 10_state.md R26). -/
def loadRecord (r : Record) : List Input := byteOrder.map fun k => .writeRec k (r.get k)

/-- `INITREC r` = `INIT; REC <- r; BWRITE` (30_encoding.md R82, 70_reset_and_hazards.md R176). -/
def initrec (r : Record) : List Input := .call (commandWord 0b000 0 0) :: loadRecord r ++ [.call (commandWord 0b100 0 0)]

/-- `HALT` = `WRREG CMD_SEC, v` with `v[7] = 1`; the low seven bits are the host's choice (41_link_operations.md R131,
93_implementation_defined.md U21). -/
def haltOscillator (p : Params) (low : BitVec 7) : List Input := [.call (commandWord 0b001 p.cmdSec (1#1 ++ low))]

/-- `RESUME` = `WRREG CMD_SEC, 0x00` (41_link_operations.md R132). -/
def resumeOscillator (p : Params) : List Input := [.call (commandWord 0b001 p.cmdSec 0x00)]

/-- `COMMIT` = `BWRITE; RESUME` (41_link_operations.md R134). -/
def commit (p : Params) : List Input := .call (commandWord 0b100 0 0) :: resumeOscillator p

/-- `PROBE` = `RD1 CMD_SEC` (41_link_operations.md R133). -/
def probe (p : Params) : List Input := [.call (commandWord 0b011 p.cmdSec 0)]

/-- `on_button_sample()` = `SAMPLE`; the host code that follows it is outside the block (42_button_tracker.md R145). -/
def onButtonSample : List Input := [.call (commandWord 0b110 0 0)]

/-- `HEARTBEAT` = `RD1 CMD_SEC; if RDATA = 0x00 then BREAD` (41_link_operations.md R133). -/
def heartbeat (p : Params) : List Input := probe p ++ [.callIfRdata 0x00 (commandWord 0b101 0 0)]

end Sys2Proof.Machine
end

