-- ==== Sys2Proof/Machine/RecordFields.lean ====
section
/-! DEFINITION. The fields inside the record bytes and the invariant the host owes (10_state.md R15, R16). The block
depends on none of it: LINK treats each byte as eight opaque bits (R14). PRESUMED (log entry 20): the bit positions are
the spec's table, which it marks as general knowledge. -/

namespace Sys2Proof.Machine

/-- Bits `lo + len - 1 .. lo` of a byte as a number. -/
def bits (b : Byte) (lo len : Nat) : Nat := (b.extractLsb' lo len).toNat

/-- Units digit of a byte, bits 3:0. -/
def units (b : Byte) : Nat := bits b 0 4

/-- CH, the clock-halt flag, bit 7 of SEC (`HALT_BIT`, 00_scope.md R5). -/
def Record.haltFlag (r : Record) : Bool := r.sec.getLsbD 7

/-- Seconds: tens in bits 6:4. -/
def Record.seconds (r : Record) : Nat := 10 * bits r.sec 4 3 + units r.sec

/-- Minutes: tens in bits 6:4. -/
def Record.minutes (r : Record) : Nat := 10 * bits r.min 4 3 + units r.min

/-- The mode flag, bit 7 of HOUR, 1 = 12-hour. -/
def Record.twelveHour (r : Record) : Bool := r.hour.getLsbD 7

/-- The AM/PM bit, bit 5 of HOUR in 12-hour mode, 1 = PM. -/
def Record.pm (r : Record) : Bool := r.twelveHour && r.hour.getLsbD 5

/-- Hours: tens in bit 4 in 12-hour mode, in bits 5:4 in 24-hour mode. -/
def Record.hours (r : Record) : Nat := 10 * (bif r.twelveHour then bits r.hour 4 1 else bits r.hour 4 2) + units r.hour

/-- Day of the month: tens in bits 5:4. -/
def Record.day (r : Record) : Nat := 10 * bits r.date 4 2 + units r.date

/-- Month: tens in bit 4. -/
def Record.monthNumber (r : Record) : Nat := 10 * bits r.month 4 1 + units r.month

/-- Weekday: the whole byte, whose bits 7:3 are 0 by the layout and whose bits 2:0 are the weekday. -/
def Record.weekday (r : Record) : Nat := 10 * bits r.dow 4 4 + units r.dow

/-- Year of the century: tens in bits 7:4. -/
def Record.yearNumber (r : Record) : Nat := 10 * bits r.year 4 4 + units r.year

/-- The write-protect flag, bit 7 of WP. -/
def Record.writeProtect (r : Record) : Bool := r.wp.getLsbD 7

/-- The bits that the layout of 10_state.md R15 gives as 0 are 0. -/
def Record.layoutOk (r : Record) : Bool :=
  r.min &&& 0x80 == 0 && r.hour &&& 0x40 == 0 && r.date &&& 0xC0 == 0 &&
  r.month &&& 0xE0 == 0 && r.dow &&& 0xF8 == 0 && r.wp &&& 0x7F == 0

/-- The invariant of 10_state.md R16: every units digit at most 9 and every field within its calendar-legal range, in the
layout of R15. DEDUCED (log entry 20): hours 1 to 12 or 0 to 23, date 1 to 31, the ranges of 41_link_operations.md R127.
Owed by the host, not checked by the block. -/
def Record.legal (r : Record) : Bool :=
  r.layoutOk && [r.sec, r.min, r.hour, r.date, r.month, r.dow, r.year].all (fun b => decide (units b ≤ 9)) &&
  decide (r.seconds ≤ 59) && decide (r.minutes ≤ 59) &&
  (bif r.twelveHour then decide (1 ≤ r.hours ∧ r.hours ≤ 12) else decide (r.hours ≤ 23)) &&
  decide (1 ≤ r.day ∧ r.day ≤ 31) && decide (1 ≤ r.monthNumber ∧ r.monthNumber ≤ 12) &&
  decide (1 ≤ r.weekday ∧ r.weekday ≤ 7) && decide (r.yearNumber ≤ 99)

end Sys2Proof.Machine
end

