-- ==== Sys2Proof/Machine/Wire.lean ====
section
/-! DEFINITION. The wire view of 00_scope.md R8, derived from what the block did on its pins. -/

namespace Sys2Proof.Machine

/-- `PINDIR` after an event on the pins. -/
def PinEvent.dirAfter (e : PinEvent) (d : PinLatch) : PinLatch :=
  match e with
  | .dir p v => d.set p v
  | .lvl _ _ => d
  | .get _ _ => d
  | .nop2 => d
  | .release => ⟨false, false, false⟩

/-- `PINOUT` after an event on the pins. -/
def PinEvent.outAfter (e : PinEvent) (o : PinLatch) : PinLatch :=
  match e with
  | .dir _ _ => o
  | .lvl p v => o.set p v
  | .get _ _ => o
  | .nop2 => o
  | .release => ⟨false, false, false⟩

/-- What the chip sees of one event, from `PINDIR` and `PINOUT` before it (00_scope.md R8): `CE^`, `CEv`, `^b` only
with CE high and the block driving IO, `?b`. Falling edges of the clock are not written. -/
def PinEvent.seen (e : PinEvent) (d o : PinLatch) : List WireEvent :=
  match e with
  | .lvl .ce true => bif d.ce && !o.ce then [.ceUp] else []
  | .lvl .ce false => bif d.ce && o.ce then [.ceDown] else []
  | .lvl .sclk true => bif d.sclk && !o.sclk && d.ce && o.ce && d.io then [.clock o.io] else []
  | .lvl .sclk false => []
  | .lvl .io _ => []
  | .get .io b => [.sample b]
  | .get .ce _ => []
  | .get .sclk _ => []
  | .dir _ _ => []
  | .nop2 => []
  | .release => []

/-- The wire view of a sequence of events, the earliest first, from `PINDIR` and `PINOUT` before them. -/
def wireView (d o : PinLatch) (es : List PinEvent) : List WireEvent :=
  match es with
  | [] => []
  | e :: rest => e.seen d o ++ wireView (e.dirAfter d) (e.outAfter o) rest

/-- What the block did on its pins on the way from `s` to `t`, the earliest first. -/
def eventsSince (s t : State) : List PinEvent := (t.trace.take (t.trace.length - s.trace.length)).reverse

/-- The wire view of a run from `s` to `t`. -/
def wireSince (s t : State) : List WireEvent := wireView s.pinDir s.pinOut (eventsSince s t)

/-- A byte sent, in the wire view: `^b[0]` to `^b[7]` (40_link_primitives.md R102). -/
def sentByte (b : Byte) : List WireEvent := bitOrder.map fun i => .clock (bitOf b i)

/-- A byte received, in the wire view: `?b[0]` to `?b[7]` (40_link_primitives.md R103). -/
def receivedByte (b : Byte) : List WireEvent := bitOrder.map fun i => .sample (bitOf b i)

end Sys2Proof.Machine
end

