-- ==== Sys2Proof/Safety.lean ====
section
/-! DEFINITION. What counts as a run within the host's contract, the rest state, and the invariants of the machine. -/

namespace Sys2Proof.Safety

open Sys2Proof.Machine

/-- The run so far is within the host's contract (60_exceptions.md R151). -/
def InContract (s : State) : Prop := s.breach = none

/-- A step that refuses what the spec has a model refuse (00_scope.md R7, 93_implementation_defined.md): where `step`
marks a breach of the contract this refuses it by name, everywhere else it is `step`. -/
def contractStep (s : State) : Outcome :=
  match step s with
  | .next t =>
    match t.breach with
    | none => .next t
    | some b => .refused (.outOfContract b)
  | .fault r => .fault r
  | .refused r => .refused r

/-- The command bytes among the parameters are write forms, bit 0 = 0, as 00_scope.md R5 says of each. -/
def writeForms (p : Params) : Bool := !cbRead p.cmdWp && !cbRead p.cmdTcs && !cbRead p.cmdBurst && !cbRead p.cmdSec

/-- The host may issue this command word to an idle block (93_implementation_defined.md U2 to U5, U10). -/
def wordAllowed (s : State) (w : CmdWord) : Bool :=
  match (opField w).toNat with
  | 0 => !s.inited
  | 1 => s.inited && !cbRead (addrField w)
  | 2 => s.inited
  | 3 => s.inited
  | 4 => s.inited && s.recWritten == 0xFF
  | 5 => s.inited
  | 6 => true
  | _ => false

/-- The bench may send this command byte's frame by itself: the duties of the operation that sends it (log entry 7). -/
def frameAllowed (s : State) (b : Byte) : Bool :=
  s.inited &&
    match decodeByte b with
    | .cbWpWrite => !cbRead s.params.cmdWp
    | .cbTcsWrite => !cbRead s.params.cmdTcs
    | .cbSecWrite => !cbRead s.params.cmdSec
    | .cbBurstWrite => s.recWritten == 0xFF
    | _ => true

/-- What the outside may do to an idle block (60_exceptions.md R151, 10_state.md R28). -/
def idleAllowed (s : State) (x : Input) : Bool :=
  match x with
  | .call w => wordAllowed s w
  | .present w => wordAllowed s w
  | .callIfRdata v w => s.rdataWritten && (s.rdata != v || wordAllowed s w)
  | .frame b => frameAllowed s b
  | .writeRec _ _ => true
  | .readRec k => bitOf s.recWritten k
  | .readRdata => s.rdataWritten
  | .idle => true
  | .rst => true
  | .chipTime _ => true

/-- What the outside may do to a busy block (70_reset_and_hazards.md R184, 93_implementation_defined.md U1, U12, U13). A
host that calls waits. -/
def busyAllowed (x : Input) : Bool :=
  match x with
  | .call _ => true
  | .present _ => false
  | .callIfRdata _ _ => true
  | .frame _ => true
  | .writeRec _ _ => false
  | .readRec _ => false
  | .readRdata => false
  | .idle => true
  | .rst => false
  | .chipTime _ => true

/-- The coming input is within the host's contract. -/
def allowed (s : State) : Bool :=
  match s.inbox with
  | [] => true
  | x :: _ => bif s.busy then busyAllowed x else idleAllowed s x

/-- CE and SCLK are outputs and low: what 40_link_primitives.md R104 says of every state between operations. -/
def restPins (d o : PinLatch) : Bool := d.ce && d.sclk && !o.ce && !o.sclk

/-- The rest state of 40_link_primitives.md R104. -/
def atRest (s : State) : Bool := restPins s.pinDir s.pinOut

/-- `PINDIR` after a list of steps. -/
def dirAfter (es : List Entry) (d : PinLatch) : PinLatch := es.foldl (fun r e => e.op.dirAfter r) d

/-- `PINOUT` after a list of steps. -/
def outAfter (es : List Entry) (o : PinLatch) : PinLatch := es.foldl (fun r e => e.op.outAfter r) o

/-- The steps a busy block has still to take (10_state.md R20). -/
def remaining (s : State) : List Entry := (expansion s).drop s.upc.toNat

/-- A busy block is at a micro-operation of its list (10_state.md R20). -/
def sequencerOk (s : State) : Bool := !s.busy || decide (s.upc.toNat < (expansion s).length)

/-- An idle block that has been initialised is at rest; a busy one will be when its list is done (R104). -/
def restOk (s : State) : Bool :=
  bif s.busy then
    (!(s.inited || s.op == 0)) || restPins (dirAfter (remaining s) s.pinDir) (outAfter (remaining s) s.pinOut)
  else !s.inited || atRest s

/-- The chip's RAM is in its canonical form, with no address past the 31 bytes (20_memory.md R55). -/
def memoryOk (s : State) : Bool :=
  match s.chip with
  | none => true
  | some c => c.ram.wf && c.ram.all (fun x => decide (x.1 < 31))

/-- The bits the chip does not implement are 0 (20_memory.md R58). -/
def chipMasked (s : State) : Bool :=
  match s.chip with
  | none => true
  | some c => (List.range 9).all fun a => bankGet c.ck a &&& ~~~bankGet chipMask a == 0

/-- The block and the chip drive IO at once (10_state.md R13). -/
def contended (s : State) : Bool := line s .io == .contention

/-! ### Frames -/

/-- All that a write frame leaves alone: the record, `SHREG`, `RDATA`, `INITED`, the buttons, the environment's lists, the
coming inputs, and the directions of CE and SCLK (41_link_operations.md R121, R124: "pin state only"). -/
def KeepsAllButPins (s t : State) : Prop :=
  t.params = s.params ∧ t.record = s.record ∧ t.recWritten = s.recWritten ∧ t.shreg = s.shreg ∧ t.rdata = s.rdata ∧
  t.rdataWritten = s.rdataWritten ∧ t.inited = s.inited ∧ t.cur = s.cur ∧ t.prev = s.prev ∧ t.btnIn = s.btnIn ∧
  t.ioIn = s.ioIn ∧ t.inbox = s.inbox ∧ t.pinDir.ce = s.pinDir.ce ∧ t.pinDir.sclk = s.pinDir.sclk

/-- All that a single read leaves alone: the record, `INITED`, the buttons, the coming inputs, and the directions of CE
and SCLK (41_link_operations.md R122). -/
def KeepsInSingleRead (s t : State) : Prop :=
  t.params = s.params ∧ t.record = s.record ∧ t.recWritten = s.recWritten ∧ t.inited = s.inited ∧ t.cur = s.cur ∧ t.prev = s.prev ∧
  t.btnIn = s.btnIn ∧ t.inbox = s.inbox ∧ t.pinDir.ce = s.pinDir.ce ∧ t.pinDir.sclk = s.pinDir.sclk

/-- All that a burst read leaves alone: `RDATA`, `INITED`, the buttons, the coming inputs, and the directions of CE and
SCLK (41_link_operations.md R125). -/
def KeepsInBurstRead (s t : State) : Prop :=
  t.params = s.params ∧ t.rdata = s.rdata ∧ t.rdataWritten = s.rdataWritten ∧ t.inited = s.inited ∧ t.cur = s.cur ∧ t.prev = s.prev ∧
  t.btnIn = s.btnIn ∧ t.inbox = s.inbox ∧ t.pinDir.ce = s.pinDir.ce ∧ t.pinDir.sclk = s.pinDir.sclk

/-- The latches of acceptance and of completion (10_state.md R17, R19, R20). -/
def LatchesAre (op : BitVec 3) (addr data : Byte) (upc : BitVec 9) (t : State) : Prop :=
  t.op = op ∧ t.addr = addr ∧ t.data = data ∧ t.upc = upc ∧ t.busy = false

/-- The latches of acceptance are untouched: a frame outside an operation (log entry 7). -/
def KeepsLatches (s t : State) : Prop :=
  t.op = s.op ∧ t.addr = s.addr ∧ t.data = s.data ∧ t.upc = s.upc ∧ t.busy = s.busy

/-- The chip at rest between frames: it drives nothing (20_memory.md R58: `drive <- Z` at every `CEv`). -/
def ChipQuiet (s : State) (c : Chip) : Prop := s.chip = some c ∧ c.drive = none

/-! ### Timing placement -/

/-- Every change of SCLK or CE in a list has a `NOP2` between it and the change before it (40_link_primitives.md R106);
`sclk` and `ce` are the levels before the list, `settled` says a `NOP2` has passed since the last change. -/
def settles (es : List Entry) (sclk ce settled : Bool) : Bool :=
  match es with
  | [] => true
  | e :: rest =>
    match e.op with
    | .lvl .sclk v => if v = sclk then settles rest sclk ce settled else settled && settles rest v ce false
    | .lvl .ce v => if v = ce then settles rest sclk ce settled else settled && settles rest sclk v false
    | .lvl .io _ => settles rest sclk ce settled
    | .dir _ _ => settles rest sclk ce settled
    | .get _ _ => settles rest sclk ce settled
    | .nop2 => settles rest sclk ce true

/-- At every rising edge of SCLK the data line has been still for a `NOP2`, and it is not written again before the next
`NOP2` (40_link_primitives.md R105); `sclk` is the level before the list, `still` says a `NOP2` has passed since IO was
last written, `held` that a rising edge has not yet been followed by a `NOP2`. -/
def stable (es : List Entry) (sclk still held : Bool) : Bool :=
  match es with
  | [] => true
  | e :: rest =>
    match e.op with
    | .lvl .sclk v => if v && !sclk then still && stable rest v still true else stable rest v still held
    | .lvl .io _ => !held && stable rest sclk false held
    | .dir .io _ => !held && stable rest sclk false held
    | .dir .ce _ => stable rest sclk still held
    | .dir .sclk _ => stable rest sclk still held
    | .lvl .ce _ => stable rest sclk still held
    | .get _ _ => stable rest sclk still held
    | .nop2 => stable rest sclk true false

/-- How many rising edges of SCLK a list makes from level `sclk` (41_link_operations.md R126). -/
def risingEdges (es : List Entry) (sclk : Bool) : Nat :=
  match es with
  | [] => 0
  | e :: rest =>
    match e.op with
    | .lvl .sclk v => (if v && !sclk then 1 else 0) + risingEdges rest v
    | .lvl .io _ => risingEdges rest sclk
    | .lvl .ce _ => risingEdges rest sclk
    | .dir _ _ => risingEdges rest sclk
    | .get _ _ => risingEdges rest sclk
    | .nop2 => risingEdges rest sclk

/-- How many frames a list holds: how often it raises CE (41_link_operations.md R126). -/
def frameCount (es : List Entry) : Nat := es.countP fun e => e.op == .lvl .ce true

end Sys2Proof.Safety
end

