-- ==== Sys2Proof/Certificates/Slice0/Obligations.lean ====
section
/-! DEFINITION. The statements for the provers. -/

open Sys2Proof Sys2Proof.Machine Sys2Proof.Safety

/-! ### Encoding -/

/-- 30_encoding.md R72, R76: words written out from the match column decode to the row's instruction. The model's choices:
a byte with a row of its own is that row and not the generic one (DEDUCED, log entry 12), and a word of three bytes wider
than the command port is none (DESIGN CHOICE, log entry 18). -/
def Obligations.TableWordsDecode : Prop :=
  decodeTableWord 24 0x00000 = some (.init 0x00 0x00) ∧ decodeTableWord 24 0x18080 = some (.wrreg 0x80 0x80) ∧
  decodeTableWord 24 0x28100 = some (.rdreg 0x81 0x00) ∧ decodeTableWord 24 0x38000 = some (.rd1 0x80 0x00) ∧
  decodeTableWord 24 0x40000 = some (.bwrite 0x00 0x00) ∧ decodeTableWord 24 0x50000 = some (.bread 0x00 0x00) ∧
  decodeTableWord 24 0x60000 = some (.sample 0x00 0x00) ∧ decodeTableWord 24 0x70000 = some (.reserved 0x00 0x00) ∧
  decodeTableWord 8 0x8E = some .cbWpWrite ∧ decodeTableWord 8 0xBF = some .cbBurstRead ∧
  decodeTableWord 8 0xC2 = some (.cbAnyWrite 0x61) ∧ decodeTableWord 24 0x80000 = none

/-- Decoding the code of a well-formed instruction gives it back, with every operand at every value. -/
def Obligations.DecodeOfEncode : Prop :=
  ∀ i : Instr, i.wellFormed = true → decode (encode i) = i

/-- Every code is the code of the instruction it decodes to, and that instruction is well formed: no bit of a word is
dropped (30_encoding.md R73: ignored fields are latched). The same holds through the bytes of the code. -/
def Obligations.EncodeOfDecode : Prop :=
  ∀ c : Code, encode (decode c) = c ∧ (decode c).wellFormed = true ∧
    ∃ i, decodeBytes (bytesOfCode c) = .ok i ∧ encode i = c

/-- 30_encoding.md R72: "a word `w` selects the row when `w & mask = match`", for every command word and every row. -/
def Obligations.CommandWordSelectsItsRow : Prop :=
  ∀ (w : CmdWord) (r : Row 19), r ∈ commandRows → (w &&& r.mask = r.pattern ↔ (decodeCommand w).mnemonic = r.mnemonic)

/-! ### The step -/

/-- An idle block whose next input brings an instruction runs exactly it, on the state with that input taken: a command
word called, or (the model's bench input, log entry 7) the frame of a command byte. The same of `withFetchWord`. -/
def Obligations.StepRunsTheDecodedInstruction : Prop :=
  (∀ (s : State) (w : CmdWord) (rest : List Input), s.busy = false → s.inbox = .call w :: rest →
    step s = exec (decodeCommand w) { s with inbox := rest }) ∧
  (∀ (s : State) (b : Byte) (rest : List Input), s.busy = false → s.inbox = .frame b :: rest →
    step s = exec (decodeByte b) { s with inbox := rest }) ∧
  (∀ (s : State) (nbits w : Nat) (i : Instr), decodeTableWord nbits w = some i →
    step (s.withFetchWord nbits w) = exec i { s with busy := false })

/-- 10_state.md R20: a step of a busy block without an input executes micro-operation number `UPC` and sets
`UPC <- UPC + 1`, and `BUSY` falls with the last (R19). The increment never exceeds 436 (41_link_operations.md R127): the
model's reading of the two rules together, DEDUCED, log entry 8. -/
def Obligations.SequencerRunsTheEntryAtUpc : Prop :=
  ∀ (s : State) (e : Entry), s.busy = true → s.inbox = [] → (expansion s)[s.upc.toNat]? = some e →
    step s = .next { e.exec s with upc := nextUpc s.upc, busy := decide (s.upc.toNat + 1 < (expansion s).length) }

/-- 41_link_operations.md R127: `UPC` never exceeds 436 and never wraps, whatever the step is (after BWRITE the model's
reading, DEDUCED, log entry 8). -/
def Obligations.UpcNeverExceeds436 : Prop :=
  ∀ (s t : State), s.upc.toNat ≤ 436 → step s = .next t → t.upc.toNat ≤ 436

/-- 10_state.md R19, R20, 41_link_operations.md R126: presenting a LINK command word for one cycle and letting the
sequencer step through the list, one micro-operation a step, ends in the very state that the operation run whole ends in.
Presenting SAMPLE or the reserved code completes in that one step, as the call does, and never sets `BUSY`. Presenting and
calling are the model's inputs (DESIGN CHOICE, log entry 4). -/
def Obligations.PresentAndStepIsCall : Prop :=
  ∀ (s : State) (w : CmdWord), s.busy = false →
    ((opField w).toNat < 6 →
      ∃ n : Nat, [208, 101, 92, 92, 437, 372][(opField w).toNat]? = some n ∧
        Host.Core.run Sys2Proof.core (n + 1) { s with inbox := [.present w] } = step { s with inbox := [.call w] }) ∧
    (6 ≤ (opField w).toNat →
      step { s with inbox := [.present w] } = step { s with inbox := [.call w] } ∧
      ∃ t, step { s with inbox := [.present w] } = .next t ∧ t.busy = false ∧ t.op = opField w ∧
        t.addr = addrField w ∧ t.data = dataField w ∧ t.upc = 0)

/-- 10_state.md R19: "A command word presented while `BUSY = 1` is not latched and has no effect": the step is that of a
cycle in which the host does nothing, but for the mark of the contract (log entry 6). -/
def Obligations.BusyBlockIgnoresACommandWord : Prop :=
  ∀ (s t : State) (w : CmdWord) (rest : List Input), s.busy = true →
    step { s with inbox := .idle :: rest } = .next t →
    step { s with inbox := .present w :: rest } = .next { t with breach := s.breach.or (some .commandWhileBusy) }

/-- 10_state.md R26: while `BUSY = 0` a cycle with `rec_we = 1` performs `REC[rec_idx] <- rec_wbyte`, and `rec_rbyte`
shows `REC[rec_idx]`, every other byte as before; while `BUSY = 1` the write is not performed. The block's other
registers keep their values; the `recWritten` and `breach` clauses are the model's own (DESIGN CHOICE, log entries 5, 6). -/
def Obligations.RecordPortWritesOnlyWhenIdle : Prop :=
  (∀ (s : State) (k : Fin 8) (v : Byte) (rest : List Input), s.busy = false → s.inbox = .writeRec k v :: rest →
    ∃ t, step s = .next t ∧ portRecByte t k = v ∧ (∀ j, j ≠ k → portRecByte t j = portRecByte s j) ∧
      t = { s with inbox := rest, record := t.record, recWritten := setBit s.recWritten k true }) ∧
  (∀ (s t : State) (k : Fin 8) (v : Byte) (rest : List Input), s.busy = true →
    step { s with inbox := .idle :: rest } = .next t →
    step { s with inbox := .writeRec k v :: rest } = .next { t with breach := s.breach.or (some .recordWriteWhileBusy) })

/-- 10_state.md R26, R28, 93_implementation_defined.md U11: a host read of `REC[k]` or of `RDATA` changes nothing but the mark
of the contract, which it leaves alone when the register has been written since reset and the block is idle. A read
before the first write, and a read while `BUSY = 1`, is marked (the marks are the model's, DESIGN CHOICE, log entries 5,
6). -/
def Obligations.HostReadsChangeNothing : Prop :=
  (∀ (s : State) (k : Fin 8) (rest : List Input), s.busy = false → s.inbox = .readRec k :: rest →
    ∃ b, step s = .next { s with inbox := rest, breach := b } ∧
      (bitOf s.recWritten k = true → b = s.breach) ∧
      (bitOf s.recWritten k = false → b = s.breach.or (some .unwrittenRecordRead))) ∧
  (∀ (s : State) (rest : List Input), s.busy = false → s.inbox = .readRdata :: rest →
    ∃ b, step s = .next { s with inbox := rest, breach := b } ∧
      (s.rdataWritten = true → b = s.breach) ∧ (s.rdataWritten = false → b = s.breach.or (some .unwrittenRdata))) ∧
  (∀ (s t : State) (k : Fin 8) (rest : List Input), s.busy = true → step { s with inbox := .idle :: rest } = .next t →
    step { s with inbox := .readRec k :: rest } = .next { t with breach := s.breach.or (some .recordReadWhileBusy) } ∧
    step { s with inbox := .readRdata :: rest } = .next { t with breach := s.breach.or (some .rdataReadWhileBusy) })

/-- 70_reset_and_hazards.md R170, 10_state.md R28: `rst` puts every register the spec gives a reset value at that value,
whatever the block was doing; no line is driven and no flag is set. The parameters are the machine's. -/
def Obligations.ResetFromAnyState : Prop :=
  ∀ (s : State) (rest : List Input), s.inbox = .rst :: rest →
    ∃ t, step s = .next t ∧ t.pinDir = ⟨false, false, false⟩ ∧ t.pinOut = ⟨false, false, false⟩ ∧ t.busy = false ∧
      t.upc = 0 ∧ t.inited = false ∧ t.cur = 0b111 ∧ t.prev = 0b111 ∧ press t = 0 ∧ release t = 0 ∧
      (∀ p, portLine t p = none) ∧ t.inbox = rest ∧ t.params = s.params

/-! ### What the operations do -/

/-- 41_link_operations.md R120: INIT makes the three lines outputs and leaves CE and SCLK low and IO at the last bit, sets
`INITED`, and, from pins at their reset levels, sends the two frames CMD_WP VAL_WP_OFF and CMD_TCS VAL_TCS_OFF, in that
order, whatever the parameters are. Everything a write frame leaves alone but `INITED` and the directions is as before. -/
def Obligations.InitConfiguresPinsAndSendsTwoFrames : Prop :=
  ∀ (s : State) (a d : Byte), s.busy = false →
    ∃ t, exec (.init a d) s = .next t ∧ t.inited = true ∧ t.pinDir = ⟨true, true, true⟩ ∧
      t.pinOut = ⟨false, false, bitOf s.params.valTcsOff 7⟩ ∧ LatchesAre 0b000 a d 208 t ∧
      KeepsAllButPins { s with inited := true, pinDir := ⟨true, true, true⟩ } t ∧
      (s.pinOut.ce = false → s.pinOut.sclk = false →
        wireSince s t = [.ceUp] ++ sentByte s.params.cmdWp ++ sentByte s.params.valWpOff ++ [.ceDown, .ceUp] ++
          sentByte s.params.cmdTcs ++ sentByte s.params.valTcsOff ++ [.ceDown])

/-- 41_link_operations.md R121: WRREG sends one frame, the byte in `addr` unchanged and then `data`, each least
significant bit first, and leaves IO an output at the last bit, CE and SCLK low; it writes pin state only. -/
def Obligations.WrregSendsAddressAndData : Prop :=
  ∀ (s : State) (a d : Byte), s.busy = false →
    ∃ t, exec (.wrreg a d) s = .next t ∧ LatchesAre 0b001 a d 101 t ∧ KeepsAllButPins s t ∧ t.pinDir.io = true ∧
      t.pinOut = ⟨false, false, bitOf d 7⟩ ∧
      (atRest s = true → wireSince s t = [.ceUp] ++ sentByte a ++ sentByte d ++ [.ceDown])

/-- 41_link_operations.md R122, R123: RDREG and RD1 send `addr | 1`, sample eight bits least significant first, put the
byte they make into `RDATA`, and leave IO an input; whatever the answers are. -/
def Obligations.SingleReadsAssembleTheAnswer : Prop :=
  ∀ (s : State) (a d : Byte), s.busy = false →
    (∃ t, exec (.rdreg a d) s = .next t ∧ LatchesAre 0b010 a d 92 t ∧ KeepsInSingleRead s t ∧ t.shreg = t.rdata ∧
      t.rdataWritten = true ∧ t.pinDir.io = false ∧ t.pinOut = ⟨false, false, bitOf a 7⟩ ∧
      (atRest s = true →
        wireSince s t = [.ceUp] ++ sentByte (a ||| 0x01) ++ receivedByte t.rdata ++ [.ceDown])) ∧
    (∃ t, exec (.rd1 a d) s = .next t ∧ LatchesAre 0b011 a d 92 t ∧ KeepsInSingleRead s t ∧ t.shreg = t.rdata ∧
      t.rdataWritten = true ∧ t.pinDir.io = false ∧ t.pinOut = ⟨false, false, bitOf a 7⟩ ∧
      (atRest s = true →
        wireSince s t = [.ceUp] ++ sentByte (a ||| 0x01) ++ receivedByte t.rdata ++ [.ceDown]))

/-- 41_link_operations.md R124, 20_memory.md R44: BWRITE sends CMD_BURST and the eight bytes of `REC` in index order and
writes pin state only; `UPC` ends at 436 (DEDUCED, log entry 8). -/
def Obligations.BwriteSendsTheRecord : Prop :=
  ∀ (s : State) (a d : Byte), s.busy = false →
    ∃ t, exec (.bwrite a d) s = .next t ∧ LatchesAre 0b100 a d 436 t ∧ KeepsAllButPins s t ∧ t.pinDir.io = true ∧
      t.pinOut = ⟨false, false, bitOf s.record.wp 7⟩ ∧
      (atRest s = true → wireSince s t = [.ceUp] ++ sentByte s.params.cmdBurst ++ sentByte s.record.sec ++ sentByte s.record.min ++
        sentByte s.record.hour ++ sentByte s.record.date ++ sentByte s.record.month ++ sentByte s.record.dow ++
        sentByte s.record.year ++ sentByte s.record.wp ++ [.ceDown])

/-- 41_link_operations.md R125, 20_memory.md R44: BREAD sends CMD_BURST | 1 and puts the eight bytes it samples into
`REC` in index order, whatever the answers are; `RDATA` is not written. -/
def Obligations.BreadFillsTheRecord : Prop :=
  ∀ (s : State) (a d : Byte), s.busy = false →
    ∃ t, exec (.bread a d) s = .next t ∧ LatchesAre 0b101 a d 372 t ∧ KeepsInBurstRead s t ∧ t.recWritten = 0xFF ∧
      t.shreg = t.record.wp ∧ t.pinDir.io = false ∧ t.pinOut = ⟨false, false, bitOf s.params.cmdBurst 7⟩ ∧
      (atRest s = true → wireSince s t = [.ceUp] ++ sentByte (s.params.cmdBurst ||| 0x01) ++ receivedByte t.record.sec ++
        receivedByte t.record.min ++ receivedByte t.record.hour ++ receivedByte t.record.date ++
        receivedByte t.record.month ++ receivedByte t.record.dow ++ receivedByte t.record.year ++
        receivedByte t.record.wp ++ [.ceDown])

/-- 42_button_tracker.md R140: SAMPLE shifts `CUR` into `PREV` and takes `btn_in`, completes in the step that accepts it,
and touches no pin and no other register but the latches (DEDUCED, log entry 11). The levels are those the environment
gives; where it gives none they are free values (log entries 2, 3). -/
def Obligations.SampleShiftsTheLevels : Prop :=
  ∀ (s : State) (a d : Byte), s.busy = false →
    ∃ t, exec (.sample a d) s = .next t ∧
      t = { s with prev := s.cur, cur := t.cur, op := 0b110, addr := a, data := d, upc := 0,
                   btnIn := s.btnIn.tail, draws := s.draws + 3 } ∧
      (∀ b rest, s.btnIn = b :: rest → t.cur = b)

/-- 30_encoding.md R74: the reserved code is accepted and does nothing: no register other than `OP`, `ADDR`, `DATA`, `UPC`
changes, `BUSY` stays 0, no pin moves. The step of a model that keeps to the contract refuses it, the machine's own step
marks it (log entry 6). Every command word decodes to one of the eight rows: there are no hints and no custom space. -/
def Obligations.ReservedCodeDoesNothing : Prop :=
  (∀ (s : State) (a d : Byte), s.busy = false →
    exec (.reserved a d) s = .next { s with op := 0b111, addr := a, data := d, upc := 0,
                                            breach := s.breach.or (some .reservedOperation) }) ∧
  (∀ (s : State) (w : CmdWord) (rest : List Input), s.busy = false → s.breach = none → opField w = 0b111 →
    s.inbox = .call w :: rest → contractStep s = .refused (.outOfContract .reservedOperation)) ∧
  (∀ w : CmdWord, (decodeCommand w).mnemonic ∈
    ["INIT", "WRREG", "RDREG", "RD1", "BWRITE", "BREAD", "SAMPLE", "RESERVED"])

/-- 30_encoding.md R73: a field an operation does not use may hold any value, and the behaviour does not depend on it: it
reaches `ADDR` or `DATA` and nothing else. -/
def Obligations.IgnoredFieldsOnlyReachTheLatches : Prop :=
  ∀ (s : State) (a d a' d' : Byte), s.busy = false →
    (∃ t, exec (.init a d) s = .next t ∧ t.addr = a ∧ t.data = d ∧
      exec (.init a' d') s = .next { t with addr := a', data := d' }) ∧
    (∃ t, exec (.rdreg a d) s = .next t ∧ t.data = d ∧ exec (.rdreg a d') s = .next { t with data := d' }) ∧
    (∃ t, exec (.rd1 a d) s = .next t ∧ t.data = d ∧ exec (.rd1 a d') s = .next { t with data := d' }) ∧
    (∃ t, exec (.bwrite a d) s = .next t ∧ t.addr = a ∧ t.data = d ∧
      exec (.bwrite a' d') s = .next { t with addr := a', data := d' }) ∧
    (∃ t, exec (.bread a d) s = .next t ∧ t.addr = a ∧ t.data = d ∧
      exec (.bread a' d') s = .next { t with addr := a', data := d' }) ∧
    (∃ t, exec (.sample a d) s = .next t ∧ t.addr = a ∧ t.data = d ∧
      exec (.sample a' d') s = .next { t with addr := a', data := d' }) ∧
    (∃ t, exec (.reserved a d) s = .next t ∧ t.addr = a ∧ t.data = d ∧
      exec (.reserved a' d') s = .next { t with addr := a', data := d' })

/-- 40_link_primitives.md R104: after INIT, from any pins, and after any operation or frame begun at rest, CE and SCLK are
outputs and low; IO is an output at its last written level after INIT and after a write frame (the last bit sent), an
input after a read frame; SAMPLE and the reserved code move no pin. That a row of format CB is a frame run by itself,
with the byte in `DATA`, is the model's choice (DESIGN CHOICE, log entry 7). -/
def Obligations.RestStateBetweenOperations : Prop :=
  ∀ (s : State) (a d : Byte) (a7 : BitVec 7), s.busy = false →
    (∃ t, exec (.init a d) s = .next t ∧ t.pinDir = ⟨true, true, true⟩ ∧
      t.pinOut = ⟨false, false, bitOf s.params.valTcsOff 7⟩) ∧
    (atRest s = true →
      (∀ p ∈ [(Instr.wrreg a d, bitOf d 7), (.bwrite a d, bitOf s.record.wp 7), (.cbWpWrite, bitOf s.params.valWpOff 7),
          (.cbTcsWrite, bitOf s.params.valTcsOff 7), (.cbBurstWrite, bitOf s.record.wp 7), (.cbSecWrite, bitOf s.data 7),
          (.cbAnyWrite a7, bitOf s.data 7)],
        ∃ t, exec p.1 s = .next t ∧ t.pinDir = ⟨true, true, true⟩ ∧ t.pinOut = ⟨false, false, p.2⟩) ∧
      (∀ i ∈ [Instr.rdreg a d, .rd1 a d, .bread a d, .cbBurstRead, .cbSecRead, .cbAnyRead a7],
        ∃ t, exec i s = .next t ∧ t.pinDir = ⟨true, true, false⟩ ∧ t.pinOut.ce = false ∧ t.pinOut.sclk = false) ∧
      (∀ i ∈ [Instr.sample a d, .reserved a d],
        ∃ t, exec i s = .next t ∧ t.pinDir = s.pinDir ∧ t.pinOut = s.pinOut))

/-- 30_encoding.md R76, R77, R80, 00_scope.md R9 (the model's choice, DESIGN CHOICE, log entry 7): each write row of format
CB runs the frame that the operation of its row sends, and nothing else of that operation: its next state is that
operation's but for the latches, which it keeps. The two rows of INIT carry INIT's values, the burst row the record, the
seconds row and the generic write form the byte in `DATA`. The named command bytes are the parameters, whatever they
are. `UPC` after the operation: log entry 8. -/
def Obligations.WriteCommandBytesSendTheirFrame : Prop :=
  ∀ (s : State), s.busy = false →
    (∃ t, exec .cbWpWrite s = .next t ∧ KeepsLatches s t ∧
      exec (.wrreg s.params.cmdWp s.params.valWpOff) s =
        .next { t with op := 0b001, addr := s.params.cmdWp, data := s.params.valWpOff, upc := 101 }) ∧
    (∃ t, exec .cbTcsWrite s = .next t ∧ KeepsLatches s t ∧
      exec (.wrreg s.params.cmdTcs s.params.valTcsOff) s =
        .next { t with op := 0b001, addr := s.params.cmdTcs, data := s.params.valTcsOff, upc := 101 }) ∧
    (∃ t, exec .cbBurstWrite s = .next t ∧ KeepsLatches s t ∧
      exec (.bwrite 0x00 0x00) s = .next { t with op := 0b100, addr := 0x00, data := 0x00, upc := 436 }) ∧
    (∃ t, exec .cbSecWrite s = .next t ∧ KeepsLatches s t ∧
      exec (.wrreg s.params.cmdSec s.data) s = .next { t with op := 0b001, addr := s.params.cmdSec, upc := 101 }) ∧
    (∀ a : BitVec 7, ∃ t, exec (.cbAnyWrite a) s = .next t ∧ KeepsLatches s t ∧
      exec (.wrreg (a ++ 0#1) s.data) s = .next { t with op := 0b001, addr := a ++ 0#1, upc := 101 })

/-- 30_encoding.md R76, R77, 00_scope.md R9 (the model's choice, DESIGN CHOICE, log entry 7): each read row of format CB runs
the frame that the operation of its row sends, and nothing else of that operation. The named command bytes are the
parameters, whatever they are. `UPC` after the operation: log entry 8. -/
def Obligations.ReadCommandBytesSendTheirFrame : Prop :=
  ∀ (s : State), s.busy = false →
    (∃ t, exec .cbBurstRead s = .next t ∧ KeepsLatches s t ∧
      exec (.bread 0x00 0x00) s = .next { t with op := 0b101, addr := 0x00, data := 0x00, upc := 372 }) ∧
    (∃ t, exec .cbSecRead s = .next t ∧ KeepsLatches s t ∧
      exec (.rd1 s.params.cmdSec 0x00) s =
        .next { t with op := 0b011, addr := s.params.cmdSec, data := 0x00, upc := 92 }) ∧
    (∀ a : BitVec 7, ∃ t, exec (.cbAnyRead a) s = .next t ∧ KeepsLatches s t ∧
      exec (.rdreg (a ++ 1#1) 0x00) s = .next { t with op := 0b010, addr := a ++ 1#1, data := 0x00, upc := 92 })

/-- 30_encoding.md R75: the read flag is forced, not toggled: RDREG of either form of a register gives the same state but
for `ADDR`; 41_link_operations.md R123: RD1 and RDREG differ in `OP` and in nothing else. -/
def Obligations.ReadFlagIsForced : Prop :=
  ∀ (s : State) (a d : Byte), s.busy = false →
    ∃ t, exec (.rdreg a d) s = .next t ∧
      exec (.rdreg (a ||| 0x01) d) s = .next { t with addr := a ||| 0x01 } ∧
      exec (.rd1 a d) s = .next { t with op := 0b011 }

/-- 10_state.md R13, R25, 40_link_primitives.md R103: with nothing driving IO, RDREG returns the byte whose bits the
environment puts on the line at the eight `GET(IO)`s, the first as bit 0, and uses up exactly those. -/
def Obligations.RdregReturnsTheLevelsOnTheLine : Prop :=
  ∀ (s : State) (a d v : Byte) (rest : List Bool), s.busy = false → s.chip = none →
    s.ioIn = bitOrder.map (bitOf v) ++ rest →
    ∃ t, exec (.rdreg a d) s = .next t ∧ t.rdata = v ∧ t.ioIn = rest

/-! ### The buttons -/

/-- 42_button_tracker.md R141: "`PRESS[b] = 1` exactly when `PREV[b] = 1` and `CUR[b] = 0`"; R142: "`RELEASE[b] = 1`
exactly when `PREV[b] = 0` and `CUR[b] = 1`". -/
def Obligations.PressAndReleaseAreTheEdges : Prop :=
  ∀ (s : State) (b : Nat), b < 3 →
    ((press s).getLsbD b = true ↔ s.prev.getLsbD b = true ∧ s.cur.getLsbD b = false) ∧
    ((release s).getLsbD b = true ↔ s.prev.getLsbD b = false ∧ s.cur.getLsbD b = true)

/-- 42_button_tracker.md R143 (d), (c): over any number of SAMPLEs, between two presses of a button there is a release of it
and between two releases a press, so a button held reports one press; and from the samples as they are after reset
(10_state.md R22: released) a press comes before any release, so the first event is a press. -/
def Obligations.PressesAndReleasesAlternate : Prop :=
  ∀ (q : Nat → State) (a d : Nat → Byte),
    (∀ n, (q n).busy = false ∧ exec (.sample (a n) (d n)) (q n) = .next (q (n + 1))) →
    ∀ (b i j : Nat), b < 3 →
      (i < j → (press (q i)).getLsbD b = true → (press (q j)).getLsbD b = true →
        ∃ k, i < k ∧ k < j ∧ (release (q k)).getLsbD b = true) ∧
      (i < j → (release (q i)).getLsbD b = true → (release (q j)).getLsbD b = true →
        ∃ k, i < k ∧ k < j ∧ (press (q k)).getLsbD b = true) ∧
      ((q 0).cur = 0b111 → (q 0).prev = 0b111 → (release (q j)).getLsbD b = true →
        ∃ k, k < j ∧ (press (q k)).getLsbD b = true)

/-! ### Whole-machine rules -/

/-- 60_exceptions.md R150: every instruction completes in every state, and a step stops only in a state in which a busy
block has no micro-operation to execute. -/
def Obligations.EveryInstructionCompletes : Prop :=
  (∀ (i : Instr) (s : State), ∃ t, exec i s = .next t) ∧
  (∀ (s : State), sequencerOk s = true → ∃ t, step s = .next t)

/-- 10_state.md R21: `INITED` is set by INIT alone and cleared by no instruction; R11: only INIT writes the directions of
CE and SCLK, and it makes both outputs. -/
def Obligations.OnlyInitSetsInitedAndTurnsTheLines : Prop :=
  ∀ (i : Instr) (s t : State), exec i s = .next t →
    ((∀ a d, i ≠ .init a d) → t.inited = s.inited ∧ t.pinDir.ce = s.pinDir.ce ∧ t.pinDir.sclk = s.pinDir.sclk) ∧
    (s.inited = true → t.inited = true) ∧
    (s.pinDir.ce = true → t.pinDir.ce = true) ∧ (s.pinDir.sclk = true → t.pinDir.sclk = true)

/-- 10_state.md R14: only BREAD (and its frame) changes `REC`; R18: only RDREG, RD1 (and their frames) change `RDATA`; R22:
only SAMPLE changes `CUR` and `PREV`. -/
def Obligations.WhoWritesTheDataRegisters : Prop :=
  ∀ (i : Instr) (s t : State), exec i s = .next t →
    ((∀ a d, i ≠ .bread a d) → i ≠ .cbBurstRead → t.record = s.record) ∧
    ((∀ a d, i ≠ .rdreg a d) → (∀ a d, i ≠ .rd1 a d) → i ≠ .cbSecRead → (∀ a, i ≠ .cbAnyRead a) → t.rdata = s.rdata) ∧
    ((∀ a d, i ≠ .sample a d) → t.cur = s.cur ∧ t.prev = s.prev ∧ press t = press s ∧ release t = release s)

/-- 00_scope.md R5: the parameters are fixed when the machine is built: no step changes them. -/
def Obligations.NoStepChangesTheParameters : Prop :=
  ∀ (s t : State), step s = .next t → t.params = s.params

/-! ### Invariants -/

/-- The invariants hold at reset. -/
def Obligations.InvariantsHoldAtReset : Prop :=
  sequencerOk State.reset = true ∧ restOk State.reset = true ∧ memoryOk State.reset = true ∧
  chipMasked State.reset = true

/-- 10_state.md R20, 40_link_primitives.md R104: from every state in which a busy block is at a micro-operation of its
list, and an idle initialised block is at rest (a busy one will be when its list is done), a step gives another. So
every frame starts from the rest state and returns to it. -/
def Obligations.StepKeepsSequencerAndRest : Prop :=
  ∀ (s t : State), sequencerOk s = true → restOk s = true → step s = .next t →
    sequencerOk t = true ∧ restOk t = true

/-- The chip's RAM keeps its canonical form and its 31 addresses (20_memory.md R55), and the chip's unimplemented bits
stay 0 (R58), whatever the step is. -/
def Obligations.StepKeepsTheChip : Prop :=
  ∀ (s t : State), step s = .next t → (memoryOk s = true → memoryOk t = true) ∧ (chipMasked s = true → chipMasked t = true)

/-! ### Timing placement -/

/-- 41_link_operations.md R126: micro-operations, least cycles, frames, rising edges and `GET`s of the six operations, for
every operand, record and choice of the parameters. -/
def Obligations.ExpansionSizes : Prop :=
  ∀ (p : Params) (a d : Byte) (r : Record),
    [initList p, wrregList a d, rdregList a, rd1List a, bwriteList p r, breadList p].map (fun es =>
      (es.length, minCycles es, frameCount es, risingEdges es false, getCount es)) =
    [(208, 308, 2, 32, 0), (101, 151, 1, 16, 0), (92, 133, 1, 15, 8), (92, 133, 1, 15, 8), (437, 655, 1, 72, 0),
      (372, 525, 1, 71, 64)]

/-- 40_link_primitives.md R106: in every operation's list, whatever is sent, there is a `NOP2` between any two changes of
the clock line, between `CE^` and the first clock edge, and between the last clock edge and `CEv`. -/
def Obligations.ListsSettleBetweenTransitions : Prop :=
  ∀ (s : State), settles (expansion s) false false true = true

/-- 40_link_primitives.md R105: in `OUT8`, of each bit the first step alone writes `PINOUT[IO]`, and the rising edge
comes after it with a `NOP2` on each side. So in every operation's list, whatever is sent, the data line is still for a
`NOP2` before every rising edge and is not written again before the `NOP2` after it. -/
def Obligations.ListsHoldDataAcrossRisingEdges : Prop :=
  (∀ (b : Byte) (release : Bool), out8 b release = bitOrder.flatMap (outBit b release) ∧
    ∀ i : Fin 8, ∃ tail : List Entry,
      outBit b release i = [{ op := .lvl .io (bitOf b i) }, { op := .nop2 }, { op := .lvl .sclk true }, { op := .nop2 }] ++
        tail ∧ ∀ e ∈ tail, ∀ v, e.op ≠ .lvl .io v) ∧
  (∀ (s : State), stable (expansion s) false true false = true)

/-! ### The block with the reference peer (20_memory.md R55 to R60, general knowledge in the spec's words; PRESUMED, log
entry 9). Where a parameter is sent, it is the reference peer's: the defaults of 00_scope.md R5 (log entry 16). -/

/-- 41_link_operations.md R121, 20_memory.md R56, R58: WRREG of an even command byte, at rest with a quiet chip, stores
`data` where `peer_store` says (a single register; the first byte of RAM for RAM burst; nothing for a clock burst of one
byte or a byte with bit 7 clear), and leaves the chip idle and quiet. -/
def Obligations.WrregStoresOneByteInTheChip : Prop :=
  ∀ (s : State) (c : Chip) (a d : Byte), s.busy = false → atRest s = true → ChipQuiet s c → cbRead a = false →
    ∃ t c', exec (.wrreg a d) s = .next t ∧ ChipQuiet t c' ∧ c'.phase = .idle ∧ atRest t = true ∧
      (cbOne a = true → cbReg a ≠ 31 → c'.ck = (c.store (cbReg a) d (cbRam a)).ck ∧ c'.ram = (c.store (cbReg a) d (cbRam a)).ram) ∧
      (cbOne a = true → cbReg a = 31 → cbRam a = true → c'.ck = c.ck ∧ c'.ram = (c.store 0 d true).ram) ∧
      (cbOne a = true → cbReg a = 31 → cbRam a = false → c'.ck = c.ck ∧ c'.ram = c.ram) ∧
      (cbOne a = false → c'.ck = c.ck ∧ c'.ram = c.ram)

/-- The frame of WRREG in the chip's memory, for every address byte, an odd one (U5) too: every byte of RAM reads as before
but the one stored to, and none changes for a clock register, a protected chip, a frame the chip ignores or takes for a
read (20_memory.md R56, R58, 30_encoding.md R76, R80). -/
def Obligations.WrregLeavesOtherMemory : Prop :=
  ∀ (s : State) (c : Chip) (a d : Byte), s.busy = false → atRest s = true → ChipQuiet s c → c.ram.wf = true →
    ∃ t c', exec (.wrreg a d) s = .next t ∧ t.chip = some c' ∧
      (∀ j : Nat, j ≠ (if cbReg a = 31 then 0 else cbReg a) → c'.ram.read j = c.ram.read j) ∧
      (cbRam a = false ∨ c.writeProtected = true ∨ cbOne a = false ∨ cbRead a = true → c'.ram = c.ram) ∧
      (cbRam a = true → c.writeProtected = false → cbOne a = true → cbRead a = false →
        c'.ram.read (if cbReg a = 31 then 0 else cbReg a) = d)

/-- 41_link_operations.md R122, 20_memory.md R48, R57, R59: RDREG and RD1, at rest with a quiet chip, change no register and
no byte of memory of the chip; with bit 7 of the command byte set they return the byte `peer_read` gives for the chip's
registers as they are. -/
def Obligations.SingleReadsReturnTheChipsByte : Prop :=
  ∀ (s : State) (c : Chip) (a d : Byte), s.busy = false → atRest s = true → ChipQuiet s c →
    ∀ i ∈ [Instr.rdreg a d, .rd1 a d],
      ∃ t c', exec i s = .next t ∧ ChipQuiet t c' ∧ c'.phase = .idle ∧ c'.ck = c.ck ∧ c'.ram = c.ram ∧
        (cbOne a = true → t.rdata = Chip.readByte { c with latch := c.ck } (a ||| 0x01) 0)

/-- 41_link_operations.md R124, 20_memory.md R58: BWRITE to a quiet chip that is not protected replaces the eight clock and
control registers by the record, within the bits the chip implements; a protected chip keeps them. RAM and the
charger are untouched. -/
def Obligations.BwriteCommitsTheRecordInTheChip : Prop :=
  ∀ (s : State) (c : Chip) (a d : Byte), s.params = Config.params → s.busy = false → atRest s = true → ChipQuiet s c →
    ∃ t c', exec (.bwrite a d) s = .next t ∧ ChipQuiet t c' ∧ c'.phase = .idle ∧ atRest t = true ∧ c'.ram = c.ram ∧
      bankGet c'.ck 8 = bankGet c.ck 8 ∧
      (c.writeProtected = true → c'.ck = c.ck) ∧
      (c.writeProtected = false → ∀ k : Fin 8, bankGet c'.ck k.val = s.record.get k &&& bankGet chipMask k.val)

/-- 41_link_operations.md R125, 20_memory.md R59: BREAD from a quiet chip puts its eight registers into `REC`, and changes no
register and no byte of memory of the chip. -/
def Obligations.BreadReadsTheChipsClock : Prop :=
  ∀ (s : State) (c : Chip) (a d : Byte), s.params = Config.params → s.busy = false → atRest s = true → ChipQuiet s c →
    ∃ t c', exec (.bread a d) s = .next t ∧ ChipQuiet t c' ∧ c'.phase = .idle ∧ c'.ck = c.ck ∧ c'.ram = c.ram ∧
      ∀ k : Fin 8, t.record.get k = bankGet c.ck k.val

/-- 20_memory.md R61: if the chip is not protected, no bit of the record is one the chip does not implement, and the halt
bit of `REC[0]` is 1 or the chip does not advance in between, BWRITE followed by BREAD leaves `REC` unchanged, whatever
the host writes to it in between. The chip and its advances are the model's: PRESUMED and DESIGN CHOICE, log entries 9,
14. -/
def Obligations.RecordRoundTrip : Prop :=
  ∀ (s : State) (c : Chip) (scrambled : Record) (times : List (Vector Byte 7)) (a d a' d' : Byte),
    s.params = Config.params → s.busy = false → atRest s = true → ChipQuiet s c → c.writeProtected = false →
    (∀ k : Fin 8, s.record.get k &&& ~~~bankGet chipMask k.val = 0) → (s.record.haltFlag = true ∨ times = []) →
    ∃ t u, exec (.bwrite a d) s = .next t ∧
      exec (.bread a' d') (times.foldl (fun x time => advanceChip time x) { t with record := scrambled }) = .next u ∧
      u.record = s.record

/-- 20_memory.md R48: "repeated `write_register(addr, v)` with the same value leaves chip-observable state unchanged": the
second of two equal WRREGs changes no register and no byte of memory of the chip. -/
def Obligations.RepeatedWriteChangesNothing : Prop :=
  ∀ (s : State) (c : Chip) (a d : Byte), s.busy = false → atRest s = true → ChipQuiet s c → cbRead a = false →
    c.ram.wf = true →
    ∃ t u c' c'', exec (.wrreg a d) s = .next t ∧ exec (.wrreg a d) t = .next u ∧ t.chip = some c' ∧
      u.chip = some c'' ∧ c''.ck = c'.ck ∧ c''.ram = c'.ram

/-- 41_link_operations.md R120, 20_memory.md R58, 70_reset_and_hazards.md R173, V20: INIT on undriven low pins and a chip in
any state, or at rest with a quiet chip, turns write protection and the trickle charger off, the chip protected or not,
and leaves RAM as it is. It leaves the seven time registers too, unless the chip stands at the end of a burst write that
the first case commits. The chip is PRESUMED (log entry 9); that an undriven CE which becomes driven low is `CEv` to the
chip, on which the first case rests, is the model's choice (DESIGN CHOICE, log entry 10). -/
def Obligations.InitTurnsProtectionAndChargerOff : Prop :=
  ∀ (s : State) (c : Chip) (a d : Byte), s.params = Config.params → s.busy = false → s.chip = some c →
    (s.pinDir = ⟨false, false, false⟩ ∧ s.pinOut = ⟨false, false, false⟩ ∨ atRest s = true ∧ c.drive = none) →
    ∃ t c', exec (.init a d) s = .next t ∧ ChipQuiet t c' ∧ c'.phase = .idle ∧ atRest t = true ∧
      bankGet c'.ck 7 = 0 ∧ bankGet c'.ck 8 = 0 ∧ c'.ram = c.ram ∧
      (c.commits = false ∨ atRest s = true → ∀ k : Nat, k < 7 → bankGet c'.ck k = bankGet c.ck k)

/-- 70_reset_and_hazards.md R173: the chip is battery-backed, so over a `rst` between operations its registers and RAM hold
what they held, and INIT, which depends on none of it, then turns protection and charger off. What the chip makes of its
released lines is a free value (R172; DESIGN CHOICE, log entry 13), and the chip itself is PRESUMED (log entry 9); what
it sees of CE before INIT is the model's choice (DESIGN CHOICE, log entry 10). -/
def Obligations.ChipKeepsItsRegistersOverReset : Prop :=
  ∀ (s : State) (c : Chip) (rest : List Input) (a d : Byte), s.busy = false → s.chip = some c → s.inbox = .rst :: rest →
    ∃ t c', step s = .next t ∧ t.chip = some c' ∧ c'.ck = c.ck ∧ c'.ram = c.ram ∧
      (s.params = Config.params →
        ∃ u c'', exec (.init a d) t = .next u ∧ ChipQuiet u c'' ∧ bankGet c''.ck 7 = 0 ∧ bankGet c''.ck 8 = 0 ∧
          c''.ram = c.ram)

/-- 70_reset_and_hazards.md R186: BWRITE with bit 7 of `REC[7]` set protects the chip, and the `WRREG CMD_SEC, 0x00` that
follows is ignored: the chip's registers stay as the burst left them. -/
def Obligations.WriteProtectRidesInTheBurst : Prop :=
  ∀ (s : State) (c : Chip) (a d : Byte), s.params = Config.params → s.busy = false → atRest s = true → ChipQuiet s c →
    c.writeProtected = false → s.record.wp.getLsbD 7 = true →
    ∃ t u c' c'', exec (.bwrite a d) s = .next t ∧ t.chip = some c' ∧ c'.writeProtected = true ∧
      exec (.wrreg s.params.cmdSec 0x00) t = .next u ∧ u.chip = some c'' ∧ c''.ck = c'.ck

/-- 41_link_operations.md R131, R132, 20_memory.md R60: the host's HALT, with any low seven bits, stops an unprotected
chip's oscillator, after which no advance changes its time; RESUME then clears the halt bit and the seconds. -/
def Obligations.HaltStopsTheOscillatorAndResumeStartsIt : Prop :=
  ∀ (s : State) (c : Chip) (low : BitVec 7) (time : Vector Byte 7), s.busy = false → atRest s = true → ChipQuiet s c →
    c.writeProtected = false → s.inbox = haltOscillator Config.params low ++ .chipTime time :: resumeOscillator Config.params →
    ∃ t u v c' c'', step s = .next t ∧ t.chip = some c' ∧ c'.halted = true ∧ bankGet c'.ck 0 = 1#1 ++ low ∧
      step t = .next u ∧ u.chip = some c' ∧ step u = .next v ∧ v.chip = some c'' ∧ c''.halted = false ∧ bankGet c''.ck 0 = 0

/-- 41_link_operations.md R133: the heartbeat. After the probe a second line with `RDATA` not zero does nothing more, and
with `RDATA` zero it is a BREAD. -/
def Obligations.HeartbeatReadsTheRecordOnlyAtZero : Prop :=
  ∀ (s t : State), s.busy = false → s.inbox = heartbeat s.params → step s = .next t →
    t.rdataWritten = true ∧
    (t.rdata ≠ 0x00 → step t = .next { t with inbox := [] }) ∧
    (t.rdata = 0x00 → step t = exec (.bread 0x00 0x00) { t with inbox := [] })

/-! ### The contract -/

/-- 70_reset_and_hazards.md R183: at every point of every LINK operation within the contract, the block and the chip do not
drive IO at once: INIT on the undriven low pins it finds after reset, the chip in any state, and every other operation but
WRREG of an odd command byte, begun at rest with a quiet chip; the parameters are write forms, as 00_scope.md R5 says. The chip is
PRESUMED (log entry 9); what it sees of CE before INIT is the model's choice (DESIGN CHOICE, log entry 10). -/
def Obligations.NoContentionWithinTheContract : Prop :=
  ∀ (s : State) (c : Chip) (w : CmdWord) (n : Nat), s.busy = false → s.chip = some c → writeForms s.params = true →
    ((opField w).toNat = 0 → s.pinDir = ⟨false, false, false⟩ ∧ s.pinOut = ⟨false, false, false⟩) →
    ((opField w).toNat ≠ 0 → atRest s = true ∧ c.drive = none) → (opField w).toNat ≤ 5 →
    ((opField w).toNat = 1 → cbRead (addrField w) = false) →
    contended (runEntries ((expansion (accept (opField w) (addrField w) (dataField w) true s)).take n)
      (accept (opField w) (addrField w) (dataField w) true s)) = false

/-- 30_encoding.md R80 (a), 93_implementation_defined.md U5: WRREG of an odd command byte with bit 7 set, begun at rest
with a quiet chip: after micro-operation 49 (counting from 0), the falling edge that follows the eighth address bit, the
block and the chip both drive IO, and at no point before. The run is marked (log entry 6). -/
def Obligations.OddWriteAddressContends : Prop :=
  ∀ (s : State) (c : Chip) (a d : Byte), s.busy = false → atRest s = true → ChipQuiet s c → cbRead a = true →
    cbOne a = true →
    (∀ n : Nat, n ≤ 49 → contended (runEntries ((wrregList a d).take n) s) = false) ∧
    contended (runEntries ((wrregList a d).take 50) s) = true ∧
    ∃ t, exec (.wrreg a d) s = .next t ∧ t.breach ≠ none

/-- 00_scope.md R7, 93_implementation_defined.md U1 to U5, U10 to U13, 10_state.md R26, R28: each use the host must not make
is refused by name by the step that keeps to the contract; the machine's own step runs it and marks it (DESIGN CHOICE,
log entry 6; the frame of a command byte by itself is log entry 7). -/
def Obligations.ContractStepRefusesByName : Prop :=
  ∀ (s : State) (rest : List Input), s.breach = none → sequencerOk s = true →
    (s.busy = false → ∀ w : CmdWord, s.inbox = .call w :: rest ∨ s.inbox = .present w :: rest →
      ((opField w).toNat = 7 → contractStep s = .refused (.outOfContract .reservedOperation)) ∧
      ((opField w).toNat = 0 → s.inited = true → contractStep s = .refused (.outOfContract .secondInit)) ∧
      (1 ≤ (opField w).toNat → (opField w).toNat ≤ 5 → s.inited = false →
        contractStep s = .refused (.outOfContract .linkBeforeInit)) ∧
      ((opField w).toNat = 1 → s.inited = true → cbRead (addrField w) = true →
        contractStep s = .refused (.outOfContract .oddWriteAddress)) ∧
      ((opField w).toNat = 4 → s.inited = true → s.recWritten ≠ 0xFF →
        contractStep s = .refused (.outOfContract .unwrittenRecord))) ∧
    (s.busy = false → ∀ b : Byte, s.inbox = .frame b :: rest → s.inited = false →
      contractStep s = .refused (.outOfContract .linkBeforeInit)) ∧
    (s.busy = false → s.rdataWritten = false →
      (∀ v w, s.inbox = .callIfRdata v w :: rest → contractStep s = .refused (.outOfContract .unwrittenRdata)) ∧
      (s.inbox = .readRdata :: rest → contractStep s = .refused (.outOfContract .unwrittenRdata))) ∧
    (s.busy = false → ∀ k, s.inbox = .readRec k :: rest → bitOf s.recWritten k = false →
      contractStep s = .refused (.outOfContract .unwrittenRecordRead)) ∧
    (s.busy = true →
      (∀ w, s.inbox = .present w :: rest → contractStep s = .refused (.outOfContract .commandWhileBusy)) ∧
      (∀ k v, s.inbox = .writeRec k v :: rest → contractStep s = .refused (.outOfContract .recordWriteWhileBusy)) ∧
      (∀ k, s.inbox = .readRec k :: rest → contractStep s = .refused (.outOfContract .recordReadWhileBusy)) ∧
      (s.inbox = .readRdata :: rest → contractStep s = .refused (.outOfContract .rdataReadWhileBusy)) ∧
      (s.inbox = .rst :: rest → contractStep s = .refused (.outOfContract .resetWhileBusy)))

/-- 60_exceptions.md R151, 93_implementation_defined.md U1 to U5, U10 to U13 (the marks and the contract step are the
model's, DESIGN CHOICE, log entry 6): an unmarked block on its list whose coming input is within the contract steps,
unmarked, and both steps agree; one whose coming input is not is refused; and the two steps agree on every step that
ends unmarked. -/
def Obligations.ContractStepRunsEverythingElse : Prop :=
  (∀ (s : State), s.breach = none → sequencerOk s = true →
    (allowed s = true → ∃ t, step s = .next t ∧ contractStep s = .next t ∧ InContract t) ∧
    (allowed s = false → ∃ b, contractStep s = .refused (.outOfContract b))) ∧
  (∀ (s t : State), step s = .next t → InContract t → contractStep s = .next t)
end

