-- ==== Sys2Proof/Laws/State.lean ====
section
/-! SUPPORT. The fields of State under each update of the model, one lemma a field, all true by rfl. -/

namespace Sys2Proof.Machine

/-! ### `mark` -/

@[simp] theorem mark_params (b : Option Breach) (s : State) : (mark b s).params = s.params := (rfl)
@[simp] theorem mark_pinDir (b : Option Breach) (s : State) : (mark b s).pinDir = s.pinDir := (rfl)
@[simp] theorem mark_pinOut (b : Option Breach) (s : State) : (mark b s).pinOut = s.pinOut := (rfl)
@[simp] theorem mark_record (b : Option Breach) (s : State) : (mark b s).record = s.record := (rfl)
@[simp] theorem mark_addr (b : Option Breach) (s : State) : (mark b s).addr = s.addr := (rfl)
@[simp] theorem mark_data (b : Option Breach) (s : State) : (mark b s).data = s.data := (rfl)
@[simp] theorem mark_shreg (b : Option Breach) (s : State) : (mark b s).shreg = s.shreg := (rfl)
@[simp] theorem mark_rdata (b : Option Breach) (s : State) : (mark b s).rdata = s.rdata := (rfl)
@[simp] theorem mark_busy (b : Option Breach) (s : State) : (mark b s).busy = s.busy := (rfl)
@[simp] theorem mark_op (b : Option Breach) (s : State) : (mark b s).op = s.op := (rfl)
@[simp] theorem mark_upc (b : Option Breach) (s : State) : (mark b s).upc = s.upc := (rfl)
@[simp] theorem mark_inited (b : Option Breach) (s : State) : (mark b s).inited = s.inited := (rfl)
@[simp] theorem mark_cur (b : Option Breach) (s : State) : (mark b s).cur = s.cur := (rfl)
@[simp] theorem mark_prev (b : Option Breach) (s : State) : (mark b s).prev = s.prev := (rfl)
@[simp] theorem mark_chip (b : Option Breach) (s : State) : (mark b s).chip = s.chip := (rfl)
@[simp] theorem mark_btnIn (b : Option Breach) (s : State) : (mark b s).btnIn = s.btnIn := (rfl)
@[simp] theorem mark_ioIn (b : Option Breach) (s : State) : (mark b s).ioIn = s.ioIn := (rfl)
@[simp] theorem mark_inbox (b : Option Breach) (s : State) : (mark b s).inbox = s.inbox := (rfl)
@[simp] theorem mark_draws (b : Option Breach) (s : State) : (mark b s).draws = s.draws := (rfl)
@[simp] theorem mark_trace (b : Option Breach) (s : State) : (mark b s).trace = s.trace := (rfl)
@[simp] theorem mark_recWritten (b : Option Breach) (s : State) : (mark b s).recWritten = s.recWritten := (rfl)
@[simp] theorem mark_rdataWritten (b : Option Breach) (s : State) : (mark b s).rdataWritten = s.rdataWritten := (rfl)
@[simp] theorem mark_breach (b : Option Breach) (s : State) : (mark b s).breach = s.breach.or b := (rfl)

/-! ### `accept` -/

@[simp] theorem accept_params (op : BitVec 3) (addr data : Byte) (busy : Bool) (s : State) : (accept op addr data busy s).params = s.params := (rfl)
@[simp] theorem accept_pinDir (op : BitVec 3) (addr data : Byte) (busy : Bool) (s : State) : (accept op addr data busy s).pinDir = s.pinDir := (rfl)
@[simp] theorem accept_pinOut (op : BitVec 3) (addr data : Byte) (busy : Bool) (s : State) : (accept op addr data busy s).pinOut = s.pinOut := (rfl)
@[simp] theorem accept_record (op : BitVec 3) (addr data : Byte) (busy : Bool) (s : State) : (accept op addr data busy s).record = s.record := (rfl)
@[simp] theorem accept_addr (op : BitVec 3) (addr data : Byte) (busy : Bool) (s : State) : (accept op addr data busy s).addr = addr := (rfl)
@[simp] theorem accept_data (op : BitVec 3) (addr data : Byte) (busy : Bool) (s : State) : (accept op addr data busy s).data = data := (rfl)
@[simp] theorem accept_shreg (op : BitVec 3) (addr data : Byte) (busy : Bool) (s : State) : (accept op addr data busy s).shreg = s.shreg := (rfl)
@[simp] theorem accept_rdata (op : BitVec 3) (addr data : Byte) (busy : Bool) (s : State) : (accept op addr data busy s).rdata = s.rdata := (rfl)
@[simp] theorem accept_busy (op : BitVec 3) (addr data : Byte) (busy : Bool) (s : State) : (accept op addr data busy s).busy = busy := (rfl)
@[simp] theorem accept_op (op : BitVec 3) (addr data : Byte) (busy : Bool) (s : State) : (accept op addr data busy s).op = op := (rfl)
@[simp] theorem accept_upc (op : BitVec 3) (addr data : Byte) (busy : Bool) (s : State) : (accept op addr data busy s).upc = 0 := (rfl)
@[simp] theorem accept_inited (op : BitVec 3) (addr data : Byte) (busy : Bool) (s : State) : (accept op addr data busy s).inited = s.inited := (rfl)
@[simp] theorem accept_cur (op : BitVec 3) (addr data : Byte) (busy : Bool) (s : State) : (accept op addr data busy s).cur = s.cur := (rfl)
@[simp] theorem accept_prev (op : BitVec 3) (addr data : Byte) (busy : Bool) (s : State) : (accept op addr data busy s).prev = s.prev := (rfl)
@[simp] theorem accept_chip (op : BitVec 3) (addr data : Byte) (busy : Bool) (s : State) : (accept op addr data busy s).chip = s.chip := (rfl)
@[simp] theorem accept_btnIn (op : BitVec 3) (addr data : Byte) (busy : Bool) (s : State) : (accept op addr data busy s).btnIn = s.btnIn := (rfl)
@[simp] theorem accept_ioIn (op : BitVec 3) (addr data : Byte) (busy : Bool) (s : State) : (accept op addr data busy s).ioIn = s.ioIn := (rfl)
@[simp] theorem accept_inbox (op : BitVec 3) (addr data : Byte) (busy : Bool) (s : State) : (accept op addr data busy s).inbox = s.inbox := (rfl)
@[simp] theorem accept_draws (op : BitVec 3) (addr data : Byte) (busy : Bool) (s : State) : (accept op addr data busy s).draws = s.draws := (rfl)
@[simp] theorem accept_trace (op : BitVec 3) (addr data : Byte) (busy : Bool) (s : State) : (accept op addr data busy s).trace = s.trace := (rfl)
@[simp] theorem accept_recWritten (op : BitVec 3) (addr data : Byte) (busy : Bool) (s : State) : (accept op addr data busy s).recWritten = s.recWritten := (rfl)
@[simp] theorem accept_rdataWritten (op : BitVec 3) (addr data : Byte) (busy : Bool) (s : State) : (accept op addr data busy s).rdataWritten = s.rdataWritten := (rfl)
@[simp] theorem accept_breach (op : BitVec 3) (addr data : Byte) (busy : Bool) (s : State) : (accept op addr data busy s).breach = s.breach.or (breachOf op addr s) := (rfl)

/-! ### `finish` -/

@[simp] theorem finish_params (n : Nat) (s : State) : (finish n s).params = s.params := (rfl)
@[simp] theorem finish_pinDir (n : Nat) (s : State) : (finish n s).pinDir = s.pinDir := (rfl)
@[simp] theorem finish_pinOut (n : Nat) (s : State) : (finish n s).pinOut = s.pinOut := (rfl)
@[simp] theorem finish_record (n : Nat) (s : State) : (finish n s).record = s.record := (rfl)
@[simp] theorem finish_addr (n : Nat) (s : State) : (finish n s).addr = s.addr := (rfl)
@[simp] theorem finish_data (n : Nat) (s : State) : (finish n s).data = s.data := (rfl)
@[simp] theorem finish_shreg (n : Nat) (s : State) : (finish n s).shreg = s.shreg := (rfl)
@[simp] theorem finish_rdata (n : Nat) (s : State) : (finish n s).rdata = s.rdata := (rfl)
@[simp] theorem finish_busy (n : Nat) (s : State) : (finish n s).busy = false := (rfl)
@[simp] theorem finish_op (n : Nat) (s : State) : (finish n s).op = s.op := (rfl)
@[simp] theorem finish_upc (n : Nat) (s : State) : (finish n s).upc = BitVec.ofNat 9 (min n upcMax) := (rfl)
@[simp] theorem finish_inited (n : Nat) (s : State) : (finish n s).inited = s.inited := (rfl)
@[simp] theorem finish_cur (n : Nat) (s : State) : (finish n s).cur = s.cur := (rfl)
@[simp] theorem finish_prev (n : Nat) (s : State) : (finish n s).prev = s.prev := (rfl)
@[simp] theorem finish_chip (n : Nat) (s : State) : (finish n s).chip = s.chip := (rfl)
@[simp] theorem finish_btnIn (n : Nat) (s : State) : (finish n s).btnIn = s.btnIn := (rfl)
@[simp] theorem finish_ioIn (n : Nat) (s : State) : (finish n s).ioIn = s.ioIn := (rfl)
@[simp] theorem finish_inbox (n : Nat) (s : State) : (finish n s).inbox = s.inbox := (rfl)
@[simp] theorem finish_draws (n : Nat) (s : State) : (finish n s).draws = s.draws := (rfl)
@[simp] theorem finish_trace (n : Nat) (s : State) : (finish n s).trace = s.trace := (rfl)
@[simp] theorem finish_recWritten (n : Nat) (s : State) : (finish n s).recWritten = s.recWritten := (rfl)
@[simp] theorem finish_rdataWritten (n : Nat) (s : State) : (finish n s).rdataWritten = s.rdataWritten := (rfl)
@[simp] theorem finish_breach (n : Nat) (s : State) : (finish n s).breach = s.breach := (rfl)

/-! ### `writeRecord` -/

@[simp] theorem writeRecord_params (k : Fin 8) (v : Byte) (s : State) : (writeRecord k v s).params = s.params := (rfl)
@[simp] theorem writeRecord_pinDir (k : Fin 8) (v : Byte) (s : State) : (writeRecord k v s).pinDir = s.pinDir := (rfl)
@[simp] theorem writeRecord_pinOut (k : Fin 8) (v : Byte) (s : State) : (writeRecord k v s).pinOut = s.pinOut := (rfl)
@[simp] theorem writeRecord_record (k : Fin 8) (v : Byte) (s : State) : (writeRecord k v s).record = s.record.set k v := (rfl)
@[simp] theorem writeRecord_addr (k : Fin 8) (v : Byte) (s : State) : (writeRecord k v s).addr = s.addr := (rfl)
@[simp] theorem writeRecord_data (k : Fin 8) (v : Byte) (s : State) : (writeRecord k v s).data = s.data := (rfl)
@[simp] theorem writeRecord_shreg (k : Fin 8) (v : Byte) (s : State) : (writeRecord k v s).shreg = s.shreg := (rfl)
@[simp] theorem writeRecord_rdata (k : Fin 8) (v : Byte) (s : State) : (writeRecord k v s).rdata = s.rdata := (rfl)
@[simp] theorem writeRecord_busy (k : Fin 8) (v : Byte) (s : State) : (writeRecord k v s).busy = s.busy := (rfl)
@[simp] theorem writeRecord_op (k : Fin 8) (v : Byte) (s : State) : (writeRecord k v s).op = s.op := (rfl)
@[simp] theorem writeRecord_upc (k : Fin 8) (v : Byte) (s : State) : (writeRecord k v s).upc = s.upc := (rfl)
@[simp] theorem writeRecord_inited (k : Fin 8) (v : Byte) (s : State) : (writeRecord k v s).inited = s.inited := (rfl)
@[simp] theorem writeRecord_cur (k : Fin 8) (v : Byte) (s : State) : (writeRecord k v s).cur = s.cur := (rfl)
@[simp] theorem writeRecord_prev (k : Fin 8) (v : Byte) (s : State) : (writeRecord k v s).prev = s.prev := (rfl)
@[simp] theorem writeRecord_chip (k : Fin 8) (v : Byte) (s : State) : (writeRecord k v s).chip = s.chip := (rfl)
@[simp] theorem writeRecord_btnIn (k : Fin 8) (v : Byte) (s : State) : (writeRecord k v s).btnIn = s.btnIn := (rfl)
@[simp] theorem writeRecord_ioIn (k : Fin 8) (v : Byte) (s : State) : (writeRecord k v s).ioIn = s.ioIn := (rfl)
@[simp] theorem writeRecord_inbox (k : Fin 8) (v : Byte) (s : State) : (writeRecord k v s).inbox = s.inbox := (rfl)
@[simp] theorem writeRecord_draws (k : Fin 8) (v : Byte) (s : State) : (writeRecord k v s).draws = s.draws := (rfl)
@[simp] theorem writeRecord_trace (k : Fin 8) (v : Byte) (s : State) : (writeRecord k v s).trace = s.trace := (rfl)
@[simp] theorem writeRecord_recWritten (k : Fin 8) (v : Byte) (s : State) : (writeRecord k v s).recWritten = setBit s.recWritten k true := (rfl)
@[simp] theorem writeRecord_rdataWritten (k : Fin 8) (v : Byte) (s : State) : (writeRecord k v s).rdataWritten = s.rdataWritten := (rfl)
@[simp] theorem writeRecord_breach (k : Fin 8) (v : Byte) (s : State) : (writeRecord k v s).breach = s.breach := (rfl)

/-! ### `sampleButtons` -/

@[simp] theorem sampleButtons_params (s : State) : (sampleButtons s).params = s.params := (rfl)
@[simp] theorem sampleButtons_pinDir (s : State) : (sampleButtons s).pinDir = s.pinDir := (rfl)
@[simp] theorem sampleButtons_pinOut (s : State) : (sampleButtons s).pinOut = s.pinOut := (rfl)
@[simp] theorem sampleButtons_record (s : State) : (sampleButtons s).record = s.record := (rfl)
@[simp] theorem sampleButtons_addr (s : State) : (sampleButtons s).addr = s.addr := (rfl)
@[simp] theorem sampleButtons_data (s : State) : (sampleButtons s).data = s.data := (rfl)
@[simp] theorem sampleButtons_shreg (s : State) : (sampleButtons s).shreg = s.shreg := (rfl)
@[simp] theorem sampleButtons_rdata (s : State) : (sampleButtons s).rdata = s.rdata := (rfl)
@[simp] theorem sampleButtons_busy (s : State) : (sampleButtons s).busy = s.busy := (rfl)
@[simp] theorem sampleButtons_op (s : State) : (sampleButtons s).op = s.op := (rfl)
@[simp] theorem sampleButtons_upc (s : State) : (sampleButtons s).upc = s.upc := (rfl)
@[simp] theorem sampleButtons_inited (s : State) : (sampleButtons s).inited = s.inited := (rfl)
@[simp] theorem sampleButtons_cur (s : State) : (sampleButtons s).cur = buttonLevels s := (rfl)
@[simp] theorem sampleButtons_prev (s : State) : (sampleButtons s).prev = s.cur := (rfl)
@[simp] theorem sampleButtons_chip (s : State) : (sampleButtons s).chip = s.chip := (rfl)
@[simp] theorem sampleButtons_btnIn (s : State) : (sampleButtons s).btnIn = s.btnIn.tail := (rfl)
@[simp] theorem sampleButtons_ioIn (s : State) : (sampleButtons s).ioIn = s.ioIn := (rfl)
@[simp] theorem sampleButtons_inbox (s : State) : (sampleButtons s).inbox = s.inbox := (rfl)
@[simp] theorem sampleButtons_draws (s : State) : (sampleButtons s).draws = s.draws + 3 := (rfl)
@[simp] theorem sampleButtons_trace (s : State) : (sampleButtons s).trace = s.trace := (rfl)
@[simp] theorem sampleButtons_recWritten (s : State) : (sampleButtons s).recWritten = s.recWritten := (rfl)
@[simp] theorem sampleButtons_rdataWritten (s : State) : (sampleButtons s).rdataWritten = s.rdataWritten := (rfl)
@[simp] theorem sampleButtons_breach (s : State) : (sampleButtons s).breach = s.breach := (rfl)

/-! ### `advanceChip` -/

@[simp] theorem advanceChip_params (t : Vector Byte 7) (s : State) : (advanceChip t s).params = s.params := (rfl)
@[simp] theorem advanceChip_pinDir (t : Vector Byte 7) (s : State) : (advanceChip t s).pinDir = s.pinDir := (rfl)
@[simp] theorem advanceChip_pinOut (t : Vector Byte 7) (s : State) : (advanceChip t s).pinOut = s.pinOut := (rfl)
@[simp] theorem advanceChip_record (t : Vector Byte 7) (s : State) : (advanceChip t s).record = s.record := (rfl)
@[simp] theorem advanceChip_addr (t : Vector Byte 7) (s : State) : (advanceChip t s).addr = s.addr := (rfl)
@[simp] theorem advanceChip_data (t : Vector Byte 7) (s : State) : (advanceChip t s).data = s.data := (rfl)
@[simp] theorem advanceChip_shreg (t : Vector Byte 7) (s : State) : (advanceChip t s).shreg = s.shreg := (rfl)
@[simp] theorem advanceChip_rdata (t : Vector Byte 7) (s : State) : (advanceChip t s).rdata = s.rdata := (rfl)
@[simp] theorem advanceChip_busy (t : Vector Byte 7) (s : State) : (advanceChip t s).busy = s.busy := (rfl)
@[simp] theorem advanceChip_op (t : Vector Byte 7) (s : State) : (advanceChip t s).op = s.op := (rfl)
@[simp] theorem advanceChip_upc (t : Vector Byte 7) (s : State) : (advanceChip t s).upc = s.upc := (rfl)
@[simp] theorem advanceChip_inited (t : Vector Byte 7) (s : State) : (advanceChip t s).inited = s.inited := (rfl)
@[simp] theorem advanceChip_cur (t : Vector Byte 7) (s : State) : (advanceChip t s).cur = s.cur := (rfl)
@[simp] theorem advanceChip_prev (t : Vector Byte 7) (s : State) : (advanceChip t s).prev = s.prev := (rfl)
@[simp] theorem advanceChip_chip (t : Vector Byte 7) (s : State) : (advanceChip t s).chip = s.chip.map (Chip.advance t) := (rfl)
@[simp] theorem advanceChip_btnIn (t : Vector Byte 7) (s : State) : (advanceChip t s).btnIn = s.btnIn := (rfl)
@[simp] theorem advanceChip_ioIn (t : Vector Byte 7) (s : State) : (advanceChip t s).ioIn = s.ioIn := (rfl)
@[simp] theorem advanceChip_inbox (t : Vector Byte 7) (s : State) : (advanceChip t s).inbox = s.inbox := (rfl)
@[simp] theorem advanceChip_draws (t : Vector Byte 7) (s : State) : (advanceChip t s).draws = s.draws := (rfl)
@[simp] theorem advanceChip_trace (t : Vector Byte 7) (s : State) : (advanceChip t s).trace = s.trace := (rfl)
@[simp] theorem advanceChip_recWritten (t : Vector Byte 7) (s : State) : (advanceChip t s).recWritten = s.recWritten := (rfl)
@[simp] theorem advanceChip_rdataWritten (t : Vector Byte 7) (s : State) : (advanceChip t s).rdataWritten = s.rdataWritten := (rfl)
@[simp] theorem advanceChip_breach (t : Vector Byte 7) (s : State) : (advanceChip t s).breach = s.breach := (rfl)

/-! ### `MicroOp.onPins` -/

@[simp] theorem onPins_params (m : MicroOp) (s : State) : (m.onPins s).params = s.params := (rfl)
@[simp] theorem onPins_pinDir (m : MicroOp) (s : State) : (m.onPins s).pinDir = m.dirAfter s.pinDir := (rfl)
@[simp] theorem onPins_pinOut (m : MicroOp) (s : State) : (m.onPins s).pinOut = m.outAfter s.pinOut := (rfl)
@[simp] theorem onPins_record (m : MicroOp) (s : State) : (m.onPins s).record = s.record := (rfl)
@[simp] theorem onPins_addr (m : MicroOp) (s : State) : (m.onPins s).addr = s.addr := (rfl)
@[simp] theorem onPins_data (m : MicroOp) (s : State) : (m.onPins s).data = s.data := (rfl)
@[simp] theorem onPins_shreg (m : MicroOp) (s : State) : (m.onPins s).shreg = s.shreg := (rfl)
@[simp] theorem onPins_rdata (m : MicroOp) (s : State) : (m.onPins s).rdata = s.rdata := (rfl)
@[simp] theorem onPins_busy (m : MicroOp) (s : State) : (m.onPins s).busy = s.busy := (rfl)
@[simp] theorem onPins_op (m : MicroOp) (s : State) : (m.onPins s).op = s.op := (rfl)
@[simp] theorem onPins_upc (m : MicroOp) (s : State) : (m.onPins s).upc = s.upc := (rfl)
@[simp] theorem onPins_inited (m : MicroOp) (s : State) : (m.onPins s).inited = s.inited := (rfl)
@[simp] theorem onPins_cur (m : MicroOp) (s : State) : (m.onPins s).cur = s.cur := (rfl)
@[simp] theorem onPins_prev (m : MicroOp) (s : State) : (m.onPins s).prev = s.prev := (rfl)
@[simp] theorem onPins_chip (m : MicroOp) (s : State) : (m.onPins s).chip = s.chip := (rfl)
@[simp] theorem onPins_btnIn (m : MicroOp) (s : State) : (m.onPins s).btnIn = s.btnIn := (rfl)
@[simp] theorem onPins_ioIn (m : MicroOp) (s : State) : (m.onPins s).ioIn = s.ioIn := (rfl)
@[simp] theorem onPins_inbox (m : MicroOp) (s : State) : (m.onPins s).inbox = s.inbox := (rfl)
@[simp] theorem onPins_draws (m : MicroOp) (s : State) : (m.onPins s).draws = s.draws := (rfl)
@[simp] theorem onPins_trace (m : MicroOp) (s : State) : (m.onPins s).trace = s.trace := (rfl)
@[simp] theorem onPins_recWritten (m : MicroOp) (s : State) : (m.onPins s).recWritten = s.recWritten := (rfl)
@[simp] theorem onPins_rdataWritten (m : MicroOp) (s : State) : (m.onPins s).rdataWritten = s.rdataWritten := (rfl)
@[simp] theorem onPins_breach (m : MicroOp) (s : State) : (m.onPins s).breach = s.breach := (rfl)

/-! ### `MicroOp.exec` -/

@[simp] theorem microExec_params (m : MicroOp) (s : State) : (m.exec s).params = s.params := (rfl)
@[simp] theorem microExec_pinDir (m : MicroOp) (s : State) : (m.exec s).pinDir = m.dirAfter s.pinDir := (rfl)
@[simp] theorem microExec_pinOut (m : MicroOp) (s : State) : (m.exec s).pinOut = m.outAfter s.pinOut := (rfl)
@[simp] theorem microExec_record (m : MicroOp) (s : State) : (m.exec s).record = s.record := (rfl)
@[simp] theorem microExec_addr (m : MicroOp) (s : State) : (m.exec s).addr = s.addr := (rfl)
@[simp] theorem microExec_data (m : MicroOp) (s : State) : (m.exec s).data = s.data := (rfl)
@[simp] theorem microExec_shreg (m : MicroOp) (s : State) : (m.exec s).shreg = m.shregAfter s := (rfl)
@[simp] theorem microExec_rdata (m : MicroOp) (s : State) : (m.exec s).rdata = s.rdata := (rfl)
@[simp] theorem microExec_busy (m : MicroOp) (s : State) : (m.exec s).busy = s.busy := (rfl)
@[simp] theorem microExec_op (m : MicroOp) (s : State) : (m.exec s).op = s.op := (rfl)
@[simp] theorem microExec_upc (m : MicroOp) (s : State) : (m.exec s).upc = s.upc := (rfl)
@[simp] theorem microExec_inited (m : MicroOp) (s : State) : (m.exec s).inited = s.inited := (rfl)
@[simp] theorem microExec_cur (m : MicroOp) (s : State) : (m.exec s).cur = s.cur := (rfl)
@[simp] theorem microExec_prev (m : MicroOp) (s : State) : (m.exec s).prev = s.prev := (rfl)
@[simp] theorem microExec_chip (m : MicroOp) (s : State) : (m.exec s).chip = s.chip.map (Chip.react (edgeBetween s (m.onPins s)) (ioAtChip (m.onPins s))) := (rfl)
@[simp] theorem microExec_btnIn (m : MicroOp) (s : State) : (m.exec s).btnIn = s.btnIn := (rfl)
@[simp] theorem microExec_ioIn (m : MicroOp) (s : State) : (m.exec s).ioIn = m.ioInAfter s := (rfl)
@[simp] theorem microExec_inbox (m : MicroOp) (s : State) : (m.exec s).inbox = s.inbox := (rfl)
@[simp] theorem microExec_draws (m : MicroOp) (s : State) : (m.exec s).draws = s.draws + 1 := (rfl)
@[simp] theorem microExec_trace (m : MicroOp) (s : State) : (m.exec s).trace = m.event s :: s.trace := (rfl)
@[simp] theorem microExec_recWritten (m : MicroOp) (s : State) : (m.exec s).recWritten = s.recWritten := (rfl)
@[simp] theorem microExec_rdataWritten (m : MicroOp) (s : State) : (m.exec s).rdataWritten = s.rdataWritten := (rfl)
@[simp] theorem microExec_breach (m : MicroOp) (s : State) : (m.exec s).breach = s.breach := (rfl)

/-! ### `resetBlock` -/

@[simp] theorem resetBlock_params (s : State) : (resetBlock s).params = s.params := (rfl)
@[simp] theorem resetBlock_pinDir (s : State) : (resetBlock s).pinDir = State.reset.pinDir := (rfl)
@[simp] theorem resetBlock_pinOut (s : State) : (resetBlock s).pinOut = State.reset.pinOut := (rfl)
@[simp] theorem resetBlock_record (s : State) : (resetBlock s).record = State.reset.record := (rfl)
@[simp] theorem resetBlock_addr (s : State) : (resetBlock s).addr = State.reset.addr := (rfl)
@[simp] theorem resetBlock_data (s : State) : (resetBlock s).data = State.reset.data := (rfl)
@[simp] theorem resetBlock_shreg (s : State) : (resetBlock s).shreg = State.reset.shreg := (rfl)
@[simp] theorem resetBlock_rdata (s : State) : (resetBlock s).rdata = State.reset.rdata := (rfl)
@[simp] theorem resetBlock_busy (s : State) : (resetBlock s).busy = State.reset.busy := (rfl)
@[simp] theorem resetBlock_op (s : State) : (resetBlock s).op = State.reset.op := (rfl)
@[simp] theorem resetBlock_upc (s : State) : (resetBlock s).upc = State.reset.upc := (rfl)
@[simp] theorem resetBlock_inited (s : State) : (resetBlock s).inited = State.reset.inited := (rfl)
@[simp] theorem resetBlock_cur (s : State) : (resetBlock s).cur = State.reset.cur := (rfl)
@[simp] theorem resetBlock_prev (s : State) : (resetBlock s).prev = State.reset.prev := (rfl)
@[simp] theorem resetBlock_chip (s : State) : (resetBlock s).chip = chipAfterReset s := (rfl)
@[simp] theorem resetBlock_btnIn (s : State) : (resetBlock s).btnIn = s.btnIn := (rfl)
@[simp] theorem resetBlock_ioIn (s : State) : (resetBlock s).ioIn = s.ioIn := (rfl)
@[simp] theorem resetBlock_inbox (s : State) : (resetBlock s).inbox = s.inbox := (rfl)
@[simp] theorem resetBlock_draws (s : State) : (resetBlock s).draws = s.draws + 1 := (rfl)
@[simp] theorem resetBlock_trace (s : State) : (resetBlock s).trace = .release :: s.trace := (rfl)
@[simp] theorem resetBlock_recWritten (s : State) : (resetBlock s).recWritten = State.reset.recWritten := (rfl)
@[simp] theorem resetBlock_rdataWritten (s : State) : (resetBlock s).rdataWritten = State.reset.rdataWritten := (rfl)
@[simp] theorem resetBlock_breach (s : State) : (resetBlock s).breach = s.breach.or (bif s.busy then some .resetWhileBusy else none) := (rfl)

/-! ### `nextUpc`, and the reads of the host -/

/-- The increment with its bound (10_state.md R20, 41_link_operations.md R127). -/
@[simp] theorem nextUpc_toNat (u : BitVec 9) : (nextUpc u).toNat = min (u.toNat + 1) 436 := by
  rw [nextUpc, BitVec.toNat_ofNat, upcMax]; omega

/-- The bound of 41_link_operations.md R127. -/
theorem nextUpc_le (u : BitVec 9) : (nextUpc u).toNat ≤ 436 := by rw [nextUpc_toNat]; omega

/-- Below the bound the increment is that of 10_state.md R20. -/
theorem nextUpc_of_lt (u : BitVec 9) (h : u.toNat < 436) : nextUpc u = u + 1 := by
  apply BitVec.eq_of_toNat_eq
  rw [nextUpc_toNat, BitVec.toNat_add]
  simp; omega

/-- A host read is a mark and nothing else. -/
theorem readRecord_eq (k : Fin 8) (s : State) :
    readRecord k s = { s with breach := s.breach.or (bif bitOf s.recWritten k then none else some .unwrittenRecordRead) } :=
  (rfl)

theorem readResult_eq (s : State) :
    readResult s = { s with breach := s.breach.or (bif s.rdataWritten then none else some .unwrittenRdata) } := (rfl)

/-- Between operations the chip, if there is one, keeps its registers and its RAM over `rst`. -/
theorem chipAfterReset_idle (s : State) (c : Chip) (hb : s.busy = false) (hc : s.chip = some c) :
    chipAfterReset s = some (c.inFrame (Config.freePeerFrame s.draws)) := by
  simp [chipAfterReset, hb, hc]

theorem chipAfterReset_busy (s : State) (hb : s.busy = true) : chipAfterReset s = none := by
  simp [chipAfterReset, hb]

@[simp] theorem inFrame_ck (f : PeerFrame) (c : Chip) : (c.inFrame f).ck = c.ck := (rfl)
@[simp] theorem inFrame_ram (f : PeerFrame) (c : Chip) : (c.inFrame f).ram = c.ram := (rfl)

@[simp] theorem resetWith_params (p : Params) : (State.resetWith p).params = p := (rfl)

end Sys2Proof.Machine
end

