-- ==== Sys2Proof/Laws/Run.lean ====
section
/-! SUPPORT. What a list of steps does: lists run one after the other, the registers no step writes, the pins, the
number of events, and that the operand latches do not matter to the steps themselves. -/

namespace Sys2Proof.Machine

open Sys2Proof.Safety

/-! ### Lists -/

@[simp] theorem runEntries_nil (s : State) : runEntries [] s = s := (rfl)

@[simp] theorem runEntries_cons (e : Entry) (es : List Entry) (s : State) :
    runEntries (e :: es) s = runEntries es (e.exec s) := (rfl)

theorem entryExec_def (m : MicroOp) (x : Transfer) (s : State) : Entry.exec ⟨m, x⟩ s = x.apply (m.exec s) := (rfl)

theorem runEntries_append (xs ys : List Entry) (s : State) :
    runEntries (xs ++ ys) s = runEntries ys (runEntries xs s) := by
  induction xs generalizing s with
  | nil => rfl
  | cons e rest ih => simp [ih]

/-! ### Registers that no transfer and no micro-operation writes -/

@[simp] theorem entryExec_pinDir (e : Entry) (s : State) : (e.exec s).pinDir = e.op.dirAfter s.pinDir := by
  rcases e with ⟨m, x⟩; cases x <;> rfl

@[simp] theorem entryExec_pinOut (e : Entry) (s : State) : (e.exec s).pinOut = e.op.outAfter s.pinOut := by
  rcases e with ⟨m, x⟩; cases x <;> rfl

@[simp] theorem entryExec_params (e : Entry) (s : State) : (e.exec s).params = s.params := by
  rcases e with ⟨m, x⟩; cases x <;> rfl

@[simp] theorem entryExec_addr (e : Entry) (s : State) : (e.exec s).addr = s.addr := by
  rcases e with ⟨m, x⟩; cases x <;> rfl

@[simp] theorem entryExec_data (e : Entry) (s : State) : (e.exec s).data = s.data := by
  rcases e with ⟨m, x⟩; cases x <;> rfl

@[simp] theorem entryExec_busy (e : Entry) (s : State) : (e.exec s).busy = s.busy := by
  rcases e with ⟨m, x⟩; cases x <;> rfl

@[simp] theorem entryExec_op (e : Entry) (s : State) : (e.exec s).op = s.op := by
  rcases e with ⟨m, x⟩; cases x <;> rfl

@[simp] theorem entryExec_upc (e : Entry) (s : State) : (e.exec s).upc = s.upc := by
  rcases e with ⟨m, x⟩; cases x <;> rfl

@[simp] theorem entryExec_cur (e : Entry) (s : State) : (e.exec s).cur = s.cur := by
  rcases e with ⟨m, x⟩; cases x <;> rfl

@[simp] theorem entryExec_prev (e : Entry) (s : State) : (e.exec s).prev = s.prev := by
  rcases e with ⟨m, x⟩; cases x <;> rfl

@[simp] theorem entryExec_btnIn (e : Entry) (s : State) : (e.exec s).btnIn = s.btnIn := by
  rcases e with ⟨m, x⟩; cases x <;> rfl

@[simp] theorem entryExec_inbox (e : Entry) (s : State) : (e.exec s).inbox = s.inbox := by
  rcases e with ⟨m, x⟩; cases x <;> rfl

@[simp] theorem entryExec_breach (e : Entry) (s : State) : (e.exec s).breach = s.breach := by
  rcases e with ⟨m, x⟩; cases x <;> rfl

@[simp] theorem entryExec_chip (e : Entry) (s : State) : (e.exec s).chip = (e.op.exec s).chip := by
  rcases e with ⟨m, x⟩; cases x <;> rfl

@[simp] theorem entryExec_ioIn (e : Entry) (s : State) : (e.exec s).ioIn = e.op.ioInAfter s := by
  rcases e with ⟨m, x⟩; cases x <;> rfl

@[simp] theorem entryExec_draws (e : Entry) (s : State) : (e.exec s).draws = s.draws + 1 := by
  rcases e with ⟨m, x⟩; cases x <;> rfl

@[simp] theorem entryExec_trace (e : Entry) (s : State) : (e.exec s).trace = e.op.event s :: s.trace := by
  rcases e with ⟨m, x⟩; cases x <;> rfl

@[simp] theorem runEntries_params (es : List Entry) (s : State) : (runEntries es s).params = s.params := by
  induction es generalizing s <;> simp_all

@[simp] theorem runEntries_addr (es : List Entry) (s : State) : (runEntries es s).addr = s.addr := by
  induction es generalizing s <;> simp_all

@[simp] theorem runEntries_data (es : List Entry) (s : State) : (runEntries es s).data = s.data := by
  induction es generalizing s <;> simp_all

@[simp] theorem runEntries_busy (es : List Entry) (s : State) : (runEntries es s).busy = s.busy := by
  induction es generalizing s <;> simp_all

@[simp] theorem runEntries_op (es : List Entry) (s : State) : (runEntries es s).op = s.op := by
  induction es generalizing s <;> simp_all

@[simp] theorem runEntries_upc (es : List Entry) (s : State) : (runEntries es s).upc = s.upc := by
  induction es generalizing s <;> simp_all

@[simp] theorem runEntries_cur (es : List Entry) (s : State) : (runEntries es s).cur = s.cur := by
  induction es generalizing s <;> simp_all

@[simp] theorem runEntries_prev (es : List Entry) (s : State) : (runEntries es s).prev = s.prev := by
  induction es generalizing s <;> simp_all

@[simp] theorem runEntries_btnIn (es : List Entry) (s : State) : (runEntries es s).btnIn = s.btnIn := by
  induction es generalizing s <;> simp_all

@[simp] theorem runEntries_inbox (es : List Entry) (s : State) : (runEntries es s).inbox = s.inbox := by
  induction es generalizing s <;> simp_all

@[simp] theorem runEntries_breach (es : List Entry) (s : State) : (runEntries es s).breach = s.breach := by
  induction es generalizing s <;> simp_all

theorem runEntries_draws (es : List Entry) (s : State) : (runEntries es s).draws = s.draws + es.length := by
  induction es generalizing s with
  | nil => rfl
  | cons e rest ih => simp only [runEntries_cons, ih, entryExec_draws, List.length_cons]; omega

/-! ### Pins -/

theorem runEntries_pinDir (es : List Entry) (s : State) : (runEntries es s).pinDir = dirAfter es s.pinDir := by
  induction es generalizing s with
  | nil => rfl
  | cons e rest ih => simp [ih, dirAfter]

theorem runEntries_pinOut (es : List Entry) (s : State) : (runEntries es s).pinOut = outAfter es s.pinOut := by
  induction es generalizing s with
  | nil => rfl
  | cons e rest ih => simp [ih, outAfter]

/-! ### Registers a list writes only by a transfer -/

/-- The list writes no byte of `REC`. -/
def keepsRecord (es : List Entry) : Bool :=
  es.all fun e => match e.xfer with
    | .toRecord _ => false
    | _ => true

/-- The list does not write `RDATA`. -/
def keepsRdata (es : List Entry) : Bool := es.all fun e => e.xfer != .toRdata

/-- The list does not write `INITED`. -/
def keepsInited (es : List Entry) : Bool := es.all fun e => e.xfer != .setInited

theorem runEntries_record (es : List Entry) (s : State) (h : keepsRecord es = true) :
    (runEntries es s).record = s.record ∧ (runEntries es s).recWritten = s.recWritten := by
  induction es generalizing s with
  | nil => exact ⟨rfl, rfl⟩
  | cons e rest ih =>
    obtain ⟨m, x⟩ := e
    simp only [keepsRecord, List.all_cons, Bool.and_eq_true] at h
    obtain ⟨h1, h2⟩ := ih (Entry.exec ⟨m, x⟩ s) h.2
    rw [runEntries_cons, h1, h2]
    cases x <;> first | exact ⟨rfl, rfl⟩ | simp at h

theorem runEntries_rdata (es : List Entry) (s : State) (h : keepsRdata es = true) :
    (runEntries es s).rdata = s.rdata ∧ (runEntries es s).rdataWritten = s.rdataWritten := by
  induction es generalizing s with
  | nil => exact ⟨rfl, rfl⟩
  | cons e rest ih =>
    obtain ⟨m, x⟩ := e
    simp only [keepsRdata, List.all_cons, Bool.and_eq_true] at h
    obtain ⟨h1, h2⟩ := ih (Entry.exec ⟨m, x⟩ s) h.2
    rw [runEntries_cons, h1, h2]
    cases x <;> first | exact ⟨rfl, rfl⟩ | simp at h

theorem runEntries_inited (es : List Entry) (s : State) (h : keepsInited es = true) :
    (runEntries es s).inited = s.inited := by
  induction es generalizing s with
  | nil => rfl
  | cons e rest ih =>
    obtain ⟨m, x⟩ := e
    simp only [keepsInited, List.all_cons, Bool.and_eq_true] at h
    rw [runEntries_cons, ih (Entry.exec ⟨m, x⟩ s) h.2]
    cases x <;> first | rfl | simp at h

/-- `INITED` is never cleared by a list of steps (10_state.md R21). -/
theorem runEntries_inited_mono (es : List Entry) (s : State) (h : s.inited = true) :
    (runEntries es s).inited = true := by
  induction es generalizing s with
  | nil => exact h
  | cons e rest ih =>
    rw [runEntries_cons]
    apply ih
    obtain ⟨m, x⟩ := e
    cases x <;> first | exact h | rfl

/-! ### The operand latches do not matter to the steps -/

/-- `s` with the latches of acceptance set. -/
def State.withLatches (s : State) (op : BitVec 3) (addr data : Byte) (upc : BitVec 9) (busy : Bool) : State :=
  { s with op := op, addr := addr, data := data, upc := upc, busy := busy }

theorem entryExec_withLatches (e : Entry) (s : State) (op : BitVec 3) (addr data : Byte) (upc : BitVec 9) (busy : Bool) :
    e.exec (s.withLatches op addr data upc busy) = (e.exec s).withLatches op addr data upc busy := by
  rcases e with ⟨m, x⟩; cases m <;> cases x <;> rfl

theorem runEntries_withLatches (es : List Entry) (s : State) (op : BitVec 3) (addr data : Byte) (upc : BitVec 9)
    (busy : Bool) :
    runEntries es (s.withLatches op addr data upc busy) = (runEntries es s).withLatches op addr data upc busy := by
  induction es generalizing s with
  | nil => rfl
  | cons e rest ih => rw [runEntries_cons, entryExec_withLatches, ih, runEntries_cons]

end Sys2Proof.Machine
end

