-- ==== Sys2Proof/Laws/Pins.lean ====
section
/-! SUPPORT. What the primitives leave on the pins (40_link_primitives.md R100 to R104), how many steps each has (R108,
41_link_operations.md R126), and which transfers a frame holds. -/

namespace Sys2Proof.Machine

open Sys2Proof.Safety

theorem dirAfter_append (xs ys : List Entry) (d : PinLatch) : dirAfter (xs ++ ys) d = dirAfter ys (dirAfter xs d) := by
  simp [dirAfter]

theorem outAfter_append (xs ys : List Entry) (o : PinLatch) : outAfter (xs ++ ys) o = outAfter ys (outAfter xs o) := by
  simp [outAfter]

@[simp] theorem dirAfter_start (d : PinLatch) : dirAfter startList d = { d with io := true } := rfl
@[simp] theorem outAfter_start (o : PinLatch) : outAfter startList o = { o with ce := true } := rfl
@[simp] theorem dirAfter_stop (x : Transfer) (d : PinLatch) : dirAfter (stopList x) d = d := rfl
@[simp] theorem outAfter_stop (x : Transfer) (o : PinLatch) : outAfter (stopList x) o = { o with ce := false } := rfl
/-- `OUT8` as its eight bits. -/
theorem out8_bits (b : Byte) (release : Bool) :
    out8 b release = outBit b release 0 ++ (outBit b release 1 ++ (outBit b release 2 ++ (outBit b release 3 ++
      (outBit b release 4 ++ (outBit b release 5 ++ (outBit b release 6 ++ outBit b release 7)))))) := by
  simp [out8, bitOrder]

/-- `IN8` as its eight bits. -/
theorem in8_bits (x : Transfer) :
    in8 x = inBit x 0 ++ (inBit x 1 ++ (inBit x 2 ++ (inBit x 3 ++ (inBit x 4 ++ (inBit x 5 ++ (inBit x 6 ++
      inBit x 7)))))) := by
  simp [in8, bitOrder]

/-- A bit of `OUT8` that ends with a falling edge. -/
theorem outBit_low (b : Byte) (release : Bool) (i : Fin 8) (h : (release && i == 7) = false) :
    outBit b release i = [{ op := .lvl .io (bitOf b i) }, { op := .nop2 }, { op := .lvl .sclk true }, { op := .nop2 },
      { op := .lvl .sclk false }, { op := .nop2 }] := by
  rw [outBit, h]; rfl

/-- The last bit of a command byte that is read: the line turns round with the clock high. -/
theorem outBit_high (b : Byte) :
    outBit b true 7 = [{ op := .lvl .io (bitOf b 7) }, { op := .nop2 }, { op := .lvl .sclk true }, { op := .nop2 },
      { op := .dir .io false }] := rfl

theorem outAfter_outBit_low (b : Byte) (release : Bool) (i : Fin 8) (o : PinLatch) (h : (release && i == 7) = false) :
    outAfter (outBit b release i) o = { o with sclk := false, io := bitOf b i } := by
  rw [outBit_low b release i h]; rfl

theorem dirAfter_outBit_low (b : Byte) (release : Bool) (i : Fin 8) (d : PinLatch) (h : (release && i == 7) = false) :
    dirAfter (outBit b release i) d = d := by
  rw [outBit_low b release i h]; rfl

theorem outAfter_inBit (x : Transfer) (i : Fin 8) (o : PinLatch) :
    outAfter (inBit x i) o = { o with sclk := false } := rfl

theorem dirAfter_inBit (x : Transfer) (i : Fin 8) (d : PinLatch) : dirAfter (inBit x i) d = d := rfl

@[simp] theorem dirAfter_out8 (b : Byte) (d : PinLatch) : dirAfter (out8 b false) d = d := by
  simp [out8_bits, dirAfter_append, dirAfter_outBit_low]

@[simp] theorem outAfter_out8 (b : Byte) (o : PinLatch) :
    outAfter (out8 b false) o = { o with sclk := false, io := bitOf b 7 } := by
  simp [out8_bits, outAfter_append, outAfter_outBit_low]

@[simp] theorem dirAfter_out8_release (b : Byte) (d : PinLatch) :
    dirAfter (out8 b true) d = { d with io := false } := by
  simp [out8_bits, dirAfter_append, dirAfter_outBit_low]; rfl

@[simp] theorem outAfter_out8_release (b : Byte) (o : PinLatch) :
    outAfter (out8 b true) o = { o with sclk := true, io := bitOf b 7 } := by
  simp [out8_bits, outAfter_append, outAfter_outBit_low]; rfl

@[simp] theorem dirAfter_in8 (x : Transfer) (d : PinLatch) : dirAfter (in8 x) d = d := by
  simp [in8_bits, dirAfter_append, dirAfter_inBit]

@[simp] theorem outAfter_in8 (x : Transfer) (o : PinLatch) : outAfter (in8 x) o = { o with sclk := false } := by
  simp [in8_bits, outAfter_append, outAfter_inBit]

/-- The data bytes of a write frame leave the directions alone. -/
theorem dirAfter_bytes (v : List Byte) (d : PinLatch) : dirAfter (v.flatMap fun b => out8 b false) d = d := by
  induction v with
  | nil => rfl
  | cons b rest ih => rw [List.flatMap_cons, dirAfter_append, dirAfter_out8, ih]

/-- The data bytes of a write frame end with the clock low and leave CE alone. -/
theorem outAfter_bytes (v : List Byte) (o : PinLatch) (h : o.sclk = false) :
    outAfter (v.flatMap fun b => out8 b false) o = { o with io := (v.getLast?.map (bitOf · 7)).getD o.io } := by
  induction v generalizing o with
  | nil => rfl
  | cons b rest ih =>
    rw [List.flatMap_cons, outAfter_append, outAfter_out8, ih _ rfl]
    cases rest with
    | nil => simp [h]
    | cons c more => simp [List.getLast?_cons, h]

/-- The bytes of a read frame leave the directions alone. -/
theorem dirAfter_reads (xs : List Transfer) (d : PinLatch) : dirAfter (xs.flatMap in8) d = d := by
  induction xs with
  | nil => rfl
  | cons x rest ih => rw [List.flatMap_cons, dirAfter_append, dirAfter_in8, ih]

/-- A read frame of at least one byte ends with the clock low. -/
theorem outAfter_reads (x : Transfer) (xs : List Transfer) (o : PinLatch) :
    outAfter ((x :: xs).flatMap in8) o = { o with sclk := false } := by
  induction xs generalizing x o with
  | nil => simp
  | cons y rest ih => rw [List.flatMap_cons, outAfter_append, outAfter_in8, ih]

/-- A write frame: IO is left an output at the last bit sent, CE and SCLK low (40_link_primitives.md R104). -/
theorem dirAfter_memWrite (c : Byte) (v : List Byte) (x : Transfer) (d : PinLatch) :
    dirAfter (memWrite c v x) d = { d with io := true } := by
  simp [memWrite, dirAfter_append, dirAfter_bytes]

theorem outAfter_memWrite (c : Byte) (v : List Byte) (x : Transfer) (o : PinLatch) :
    outAfter (memWrite c v x) o =
      { ce := false, sclk := false, io := (v.getLast?.map (bitOf · 7)).getD (bitOf c 7) } := by
  rw [memWrite, outAfter_append, outAfter_append, outAfter_append, outAfter_start, outAfter_out8, outAfter_bytes _ _ rfl,
    outAfter_stop]

/-- A read frame: IO is left an input, `PINOUT[IO]` at the last bit of the command byte (40_link_primitives.md R104). -/
theorem dirAfter_memRead (c : Byte) (x : Transfer) (xs : List Transfer) (d : PinLatch) :
    dirAfter (memRead c (x :: xs)) d = { d with io := false } := by
  rw [memRead, dirAfter_append, dirAfter_append, dirAfter_append, dirAfter_start, dirAfter_out8_release,
    dirAfter_reads, dirAfter_stop]

theorem outAfter_memRead (c : Byte) (x : Transfer) (xs : List Transfer) (o : PinLatch) :
    outAfter (memRead c (x :: xs)) o = { ce := false, sclk := false, io := bitOf c 7 } := by
  rw [memRead, outAfter_append, outAfter_append, outAfter_append, outAfter_start, outAfter_out8_release,
    outAfter_reads, outAfter_stop]

/-! ### Lengths -/

@[simp] theorem length_out8 (b : Byte) : (out8 b false).length = 48 := rfl
@[simp] theorem length_out8_release (b : Byte) : (out8 b true).length = 47 := rfl
@[simp] theorem length_in8 (x : Transfer) : (in8 x).length = 40 := rfl

theorem length_memWrite (c : Byte) (v : List Byte) (x : Transfer) : (memWrite c v x).length = 53 + 48 * v.length := by
  simp [memWrite, List.length_flatMap, startList, stopList]; omega

theorem length_memRead (c : Byte) (xs : List Transfer) : (memRead c xs).length = 52 + 40 * xs.length := by
  simp [memRead, List.length_flatMap, startList, stopList]; omega

/-! ### Transfers of a frame -/

/-- A list whose steps share no transfer. -/
def noTransfer (es : List Entry) : Bool := es.all fun e => e.xfer == .none

theorem noTransfer_append (xs ys : List Entry) : noTransfer (xs ++ ys) = (noTransfer xs && noTransfer ys) := by
  simp [noTransfer, List.all_append]

theorem noTransfer_bytes (v : List Byte) : noTransfer (v.flatMap fun b => out8 b false) = true := by
  induction v with
  | nil => rfl
  | cons b rest ih => rw [List.flatMap_cons, noTransfer_append, ih]; rfl

/-- A write frame shares no transfer but the one at its end. -/
theorem noTransfer_memWrite (c : Byte) (v : List Byte) : noTransfer (memWrite c v .none) = true := by
  simp only [memWrite, noTransfer_append, noTransfer_bytes]; rfl

theorem keepsRecord_of_noTransfer (es : List Entry) (h : noTransfer es = true) : keepsRecord es = true := by
  simp only [noTransfer, List.all_eq_true, beq_iff_eq] at h
  simp only [keepsRecord, List.all_eq_true]
  intro e he; rw [h e he]

theorem keepsRdata_of_noTransfer (es : List Entry) (h : noTransfer es = true) : keepsRdata es = true := by
  simp only [noTransfer, List.all_eq_true, beq_iff_eq] at h
  simp only [keepsRdata, List.all_eq_true]
  intro e he; rw [h e he]; rfl

theorem keepsInited_of_noTransfer (es : List Entry) (h : noTransfer es = true) : keepsInited es = true := by
  simp only [noTransfer, List.all_eq_true, beq_iff_eq] at h
  simp only [keepsInited, List.all_eq_true]
  intro e he; rw [h e he]; rfl

end Sys2Proof.Machine
end

