-- ==== Sys2Proof/Laws/Wire.lean ====
section
/-! SUPPORT. What the primitives look like on the wire (00_scope.md R8), and the byte that `IN8` assembles. -/

namespace Sys2Proof.Machine

open Sys2Proof.Safety

/-! ### The events of a list -/

/-- The events of a list of steps, the earliest first. -/
def eventList (es : List Entry) (s : State) : List PinEvent :=
  match es with
  | [] => []
  | e :: rest => e.op.event s :: eventList rest (e.exec s)

/-- The wire view of a list of steps. -/
def wireOf (es : List Entry) (s : State) : List WireEvent := wireView s.pinDir s.pinOut (eventList es s)

theorem runEntries_trace (es : List Entry) (s : State) :
    (runEntries es s).trace = (eventList es s).reverse ++ s.trace := by
  induction es generalizing s with
  | nil => rfl
  | cons e rest ih => simp [ih, eventList]

theorem eventDirAfter (m : MicroOp) (s : State) (d : PinLatch) : (m.event s).dirAfter d = m.dirAfter d := by
  cases m <;> rfl

theorem eventOutAfter (m : MicroOp) (s : State) (o : PinLatch) : (m.event s).outAfter o = m.outAfter o := by
  cases m <;> rfl

@[simp] theorem wireOf_nil (s : State) : wireOf [] s = [] := rfl

theorem wireOf_cons (e : Entry) (es : List Entry) (s : State) :
    wireOf (e :: es) s = (e.op.event s).seen s.pinDir s.pinOut ++ wireOf es (e.exec s) := by
  simp [wireOf, eventList, wireView, eventDirAfter, eventOutAfter]

theorem wireOf_append (xs ys : List Entry) (s : State) :
    wireOf (xs ++ ys) s = wireOf xs s ++ wireOf ys (runEntries xs s) := by
  induction xs generalizing s with
  | nil => rfl
  | cons e rest ih => simp [wireOf_cons, ih]

/-- The events since `s` are those of the list that was run. -/
theorem eventsSince_run (es : List Entry) (s t : State) (h : t.trace = (eventList es s).reverse ++ s.trace) :
    eventsSince s t = eventList es s := by
  simp [eventsSince, h]

/-! ### Primitives on the wire -/

theorem wireOf_start (s : State) (hd : s.pinDir.ce = true) (ho : s.pinOut.ce = false) :
    wireOf startList s = [.ceUp] := by
  simp [startList, wireOf_cons, MicroOp.event, PinEvent.seen, MicroOp.dirAfter, MicroOp.outAfter, PinLatch.set, hd, ho]

theorem wireOf_stop (x : Transfer) (s : State) (hd : s.pinDir.ce = true) (ho : s.pinOut.ce = true) :
    wireOf (stopList x) s = [.ceDown] := by
  simp [stopList, wireOf_cons, MicroOp.event, PinEvent.seen, hd, ho]

/-- The pins from which a byte is sent: CE high, SCLK low, IO an output (40_link_primitives.md R102). -/
def sendPins (s : State) : Prop :=
  s.pinDir = ⟨true, true, true⟩ ∧ s.pinOut.ce = true ∧ s.pinOut.sclk = false

theorem wireOf_outBit (b : Byte) (release : Bool) (i : Fin 8) (s : State) (h : sendPins s) :
    wireOf (outBit b release i) s = [.clock (bitOf b i)] := by
  obtain ⟨hd, hc, hs⟩ := h
  cases hr : (release && i == 7) <;>
    simp [outBit, hr, wireOf_cons, MicroOp.event, PinEvent.seen, MicroOp.dirAfter, MicroOp.outAfter, PinLatch.set,
      hd, hc, hs]

theorem sendPins_outBit (b : Byte) (release : Bool) (i : Fin 8) (s : State) (h : sendPins s)
    (hr : (release && i == 7) = false) : sendPins (runEntries (outBit b release i) s) := by
  obtain ⟨hd, hc, hs⟩ := h
  simp [sendPins, runEntries_pinDir, runEntries_pinOut, outAfter_outBit_low, dirAfter_outBit_low, hr, hd, hc]

/-- A byte sent is `^b[0]` to `^b[7]` on the wire (40_link_primitives.md R102). -/
theorem wireOf_out8 (b : Byte) (release : Bool) (s : State) (h : sendPins s) :
    wireOf (out8 b release) s = sentByte b := by
  have h0 := sendPins_outBit b release 0 s h (by simp)
  have h1 := sendPins_outBit b release 1 _ h0 (by simp)
  have h2 := sendPins_outBit b release 2 _ h1 (by simp)
  have h3 := sendPins_outBit b release 3 _ h2 (by simp)
  have h4 := sendPins_outBit b release 4 _ h3 (by simp)
  have h5 := sendPins_outBit b release 5 _ h4 (by simp)
  have h6 := sendPins_outBit b release 6 _ h5 (by simp)
  rw [out8_bits]
  simp only [wireOf_append, wireOf_outBit b release _ _ h, wireOf_outBit b release _ _ h0,
    wireOf_outBit b release _ _ h1, wireOf_outBit b release _ _ h2, wireOf_outBit b release _ _ h3,
    wireOf_outBit b release _ _ h4, wireOf_outBit b release _ _ h5, wireOf_outBit b release _ _ h6]
  rfl

theorem sendPins_out8 (b : Byte) (s : State) (h : sendPins s) : sendPins (runEntries (out8 b false) s) := by
  obtain ⟨hd, hc, hs⟩ := h
  exact ⟨by simp [runEntries_pinDir, hd], by simp [runEntries_pinOut, hc], by simp [runEntries_pinOut]⟩

theorem wireOf_bytes (v : List Byte) (s : State) (h : sendPins s) :
    wireOf (v.flatMap fun b => out8 b false) s = v.flatMap sentByte := by
  induction v generalizing s with
  | nil => rfl
  | cons b rest ih =>
    rw [List.flatMap_cons, wireOf_append, wireOf_out8 b false s h, ih _ (sendPins_out8 b s h), List.flatMap_cons]

theorem sendPins_bytes (v : List Byte) (s : State) (h : sendPins s) :
    sendPins (runEntries (v.flatMap fun b => out8 b false) s) := by
  induction v generalizing s with
  | nil => exact h
  | cons b rest ih => rw [List.flatMap_cons, runEntries_append]; exact ih _ (sendPins_out8 b s h)

theorem sendPins_start (s : State) (h : atRest s = true) : sendPins (runEntries startList s) := by
  simp only [atRest, restPins, Bool.and_eq_true, Bool.not_eq_true'] at h
  obtain ⟨⟨⟨h1, h2⟩, h3⟩, h4⟩ := h
  exact ⟨by simp [runEntries_pinDir, h1, h2], by simp [runEntries_pinOut], by simp [runEntries_pinOut, h4]⟩

/-- A write frame from the rest state (30_encoding.md R77). -/
theorem wireOf_memWrite (c : Byte) (v : List Byte) (x : Transfer) (s : State) (h : atRest s = true) :
    wireOf (memWrite c v x) s = [.ceUp] ++ sentByte c ++ v.flatMap sentByte ++ [.ceDown] := by
  have h0 := sendPins_start s h
  have h1 := sendPins_out8 c _ h0
  have h2 := sendPins_bytes v _ h1
  simp only [atRest, restPins, Bool.and_eq_true, Bool.not_eq_true'] at h
  rw [memWrite, wireOf_append, wireOf_append, wireOf_append, wireOf_start s h.1.1.1 h.1.2, wireOf_out8 c false _ h0,
    runEntries_append, wireOf_bytes v _ h1, runEntries_append, runEntries_append,
    wireOf_stop x _ (by rw [h2.1]) h2.2.1]

/-! ### A byte received -/

/-- The level the `GET` of one bit of `IN8` returns. -/
def readLevel (x : Transfer) (i : Fin 8) (s : State) : Bool := sense (runEntries ((inBit x i).take 4) s) .io

/-- The pins on which a byte is received: IO an input. -/
theorem wireOf_inBit (x : Transfer) (i : Fin 8) (s : State) (h : s.pinDir.io = false) :
    wireOf (inBit x i) s = [.sample (readLevel x i s)] := by
  simp [inBit, readLevel, wireOf_cons, MicroOp.event, PinEvent.seen, h]

/-- `SHREG` after one step. -/
theorem entryExec_shreg (e : Entry) (s : State) :
    (e.exec s).shreg = bif e.xfer == .clearShreg then 0 else e.op.shregAfter s := by
  rcases e with ⟨m, x⟩; cases x <;> rfl

/-- `SHREG` after one bit of `IN8` (40_link_primitives.md R103). -/
theorem shreg_inBit (x : Transfer) (i : Fin 8) (s : State) (hx : x ≠ .clearShreg) :
    (runEntries (inBit x i) s).shreg = setBit (bif i == 0 then 0 else s.shreg) i (readLevel x i s) := by
  have h7 : ((bif i == 7 then x else Transfer.none) == Transfer.clearShreg) = false := by
    cases (i == 7) <;> simp [hx]
  have h0 : ((bif i == 0 then Transfer.clearShreg else Transfer.none) == Transfer.clearShreg) = (i == 0) := by
    cases (i == 0) <;> rfl
  simp [inBit, readLevel, entryExec_shreg, MicroOp.shregAfter, h7, h0]
  rfl

/-- Eight bits assembled least significant first (20_memory.md R43). -/
def assemble (b0 b1 b2 b3 b4 b5 b6 b7 : Bool) : Byte :=
  setBit (setBit (setBit (setBit (setBit (setBit (setBit (setBit 0 0 b0) 1 b1) 2 b2) 3 b3) 4 b4) 5 b5) 6 b6) 7 b7

theorem bitOf_assemble (b0 b1 b2 b3 b4 b5 b6 b7 : Bool) :
    bitOf (assemble b0 b1 b2 b3 b4 b5 b6 b7) 0 = b0 ∧ bitOf (assemble b0 b1 b2 b3 b4 b5 b6 b7) 1 = b1 ∧
    bitOf (assemble b0 b1 b2 b3 b4 b5 b6 b7) 2 = b2 ∧ bitOf (assemble b0 b1 b2 b3 b4 b5 b6 b7) 3 = b3 ∧
    bitOf (assemble b0 b1 b2 b3 b4 b5 b6 b7) 4 = b4 ∧ bitOf (assemble b0 b1 b2 b3 b4 b5 b6 b7) 5 = b5 ∧
    bitOf (assemble b0 b1 b2 b3 b4 b5 b6 b7) 6 = b6 ∧ bitOf (assemble b0 b1 b2 b3 b4 b5 b6 b7) 7 = b7 := by
  revert b0 b1 b2 b3 b4 b5 b6 b7; decide +kernel

theorem receivedByte_assemble (b0 b1 b2 b3 b4 b5 b6 b7 : Bool) :
    receivedByte (assemble b0 b1 b2 b3 b4 b5 b6 b7) =
      [.sample b0, .sample b1, .sample b2, .sample b3, .sample b4, .sample b5, .sample b6, .sample b7] := by
  obtain ⟨h0, h1, h2, h3, h4, h5, h6, h7⟩ := bitOf_assemble b0 b1 b2 b3 b4 b5 b6 b7
  simp [receivedByte, bitOrder, h0, h1, h2, h3, h4, h5, h6, h7]

/-- A byte is its eight bits. -/
theorem assemble_bitOf (b : Byte) :
    assemble (bitOf b 0) (bitOf b 1) (bitOf b 2) (bitOf b 3) (bitOf b 4) (bitOf b 5) (bitOf b 6) (bitOf b 7) = b := by
  revert b; decide +kernel

/-- `IN8` returns the byte whose bits it sampled, least significant first (40_link_primitives.md R103). -/
theorem wireOf_in8 (x : Transfer) (s : State) (hx : x ≠ .clearShreg) (h : s.pinDir.io = false) :
    wireOf (in8 x) s = receivedByte (runEntries (in8 x) s).shreg := by
  have hd : ∀ (i : Fin 8) (t : State), t.pinDir.io = false → (runEntries (inBit x i) t).pinDir.io = false := by
    intro i t ht; rw [runEntries_pinDir, dirAfter_inBit, ht]
  have h0 := hd 0 s h
  have h1 := hd 1 _ h0
  have h2 := hd 2 _ h1
  have h3 := hd 3 _ h2
  have h4 := hd 4 _ h3
  have h5 := hd 5 _ h4
  have h6 := hd 6 _ h5
  rw [in8_bits]
  simp only [wireOf_append, runEntries_append, shreg_inBit x _ _ hx, wireOf_inBit x _ _ h, wireOf_inBit x _ _ h0,
    wireOf_inBit x _ _ h1, wireOf_inBit x _ _ h2, wireOf_inBit x _ _ h3, wireOf_inBit x _ _ h4, wireOf_inBit x _ _ h5,
    wireOf_inBit x _ _ h6]
  exact (receivedByte_assemble ..).symm

/-- `IN8` but for its last step. -/
def in8Front : List Entry :=
  inBit .none 0 ++ (inBit .none 1 ++ (inBit .none 2 ++ (inBit .none 3 ++ (inBit .none 4 ++ (inBit .none 5 ++
    (inBit .none 6 ++ (inBit .none 7).take 4))))))

theorem in8_split (x : Transfer) : in8 x = in8Front ++ [{ op := .get .io 7, xfer := x }] := by
  simp [in8_bits, in8Front, inBit]

theorem keeps_in8Front : keepsRecord in8Front = true ∧ keepsRdata in8Front = true ∧ keepsInited in8Front = true := by
  decide +kernel

/-- The byte is complete, and its transfer is the last thing `IN8` does (41_link_operations.md R126). -/
theorem in8_transfer (x : Transfer) (s : State) :
    ∃ t : State, runEntries (in8 x) s = x.apply t ∧ t.record = s.record ∧ t.recWritten = s.recWritten ∧
      t.rdata = s.rdata ∧ t.rdataWritten = s.rdataWritten ∧ t.inited = s.inited := by
  obtain ⟨hk, hr, hi⟩ := keeps_in8Front
  refine ⟨MicroOp.exec (.get .io 7) (runEntries in8Front s), ?_, ?_⟩
  · rw [in8_split, runEntries_append, runEntries_cons, runEntries_nil, entryExec_def]
  · simp only [microExec_record, microExec_recWritten, microExec_rdata, microExec_rdataWritten, microExec_inited,
      runEntries_record _ s hk, runEntries_rdata _ s hr, runEntries_inited _ s hi, and_self]

end Sys2Proof.Machine
end

