-- ==== Sys2Proof/Laws/Chip.lean ====
section
/-! SUPPORT. The reference peer under the primitives (20_memory.md R56 to R59): what a byte sent, a byte received, `START`
and `STOP` do to the chip. -/

namespace Sys2Proof.Machine

open Sys2Proof.Safety

/-! ### The chip alone -/

@[simp] theorem clockFall_phase_ne (c : Chip) (h : c.phase ≠ .rdata) : c.clockFall = c := by
  unfold Chip.clockFall; split <;> simp_all

theorem clockRise_cmd (c : Chip) (b : Bool) (hp : c.phase = .cmd) (hn : c.n ≠ 7) :
    c.clockRise b = { c with cmd := setBit c.cmd c.n b, n := c.n + 1 } := by
  simp [Chip.clockRise, Chip.commandBit, hp, hn]

theorem clockRise_wdata (c : Chip) (b : Bool) (hp : c.phase = .wdata) (hn : c.n ≠ 7) :
    c.clockRise b = { c with w := setBit c.w c.n b, n := c.n + 1 } := by
  simp [Chip.clockRise, Chip.dataBit, hp, hn]

theorem clockRise_still (c : Chip) (b : Bool) (h1 : c.phase ≠ .cmd) (h2 : c.phase ≠ .wdata) : c.clockRise b = c := by
  unfold Chip.clockRise; split <;> simp_all

/-! ### The chip behind the pins -/

theorem microExec_chip_some (m : MicroOp) (s : State) (c : Chip) (h : s.chip = some c) :
    (m.exec s).chip = some (c.react (edgeBetween s (m.onPins s)) (ioAtChip (m.onPins s))) := by
  rw [microExec_chip, h]; rfl

/-- The pins of a read frame: IO an input, CE high (40_link_primitives.md R103). -/
def readPins (s : State) : Prop := s.pinDir = ⟨true, true, false⟩ ∧ s.pinOut.ce = true

/-- One bit sent with a falling edge at its end: the chip takes the bit at the rising edge. -/
theorem chip_outBit_low (b : Byte) (release : Bool) (i : Fin 8) (s : State) (c : Chip) (h : sendPins s)
    (hc : s.chip = some c) (hd : c.drive = none) (hr : (release && i == 7) = false) :
    (runEntries (outBit b release i) s).chip = some (c.clockRise (bitOf b i)).clockFall := by
  obtain ⟨h1, h2, h3⟩ := h
  rw [outBit_low b release i hr]
  simp [entryExec_def, Transfer.apply, hc, Chip.react, edgeBetween, driven, ioAtChip, line, peerDrive, PinLatch.get,
    PinLatch.set, MicroOp.dirAfter, MicroOp.outAfter, h1, h2, h3, hd]

/-- The last bit of a command byte that is read: no falling edge. -/
theorem chip_outBit_high (b : Byte) (s : State) (c : Chip) (h : sendPins s) (hc : s.chip = some c)
    (hd : c.drive = none) :
    (runEntries (outBit b true 7) s).chip = some (c.clockRise (bitOf b 7)) := by
  obtain ⟨h1, h2, h3⟩ := h
  rw [outBit_high b]
  simp [entryExec_def, Transfer.apply, hc, Chip.react, edgeBetween, driven, ioAtChip, line, peerDrive, PinLatch.get,
    PinLatch.set, MicroOp.dirAfter, MicroOp.outAfter, h1, h2, h3, hd]

/-- `START` selects the chip (20_memory.md R56). -/
theorem chip_start (s : State) (c : Chip) (h : atRest s = true) (hc : s.chip = some c) :
    (runEntries startList s).chip = some c.select := by
  simp only [atRest, restPins, Bool.and_eq_true, Bool.not_eq_true'] at h
  simp [startList, entryExec_def, Transfer.apply, hc, Chip.react, edgeBetween, driven, PinLatch.get,
    PinLatch.set, MicroOp.dirAfter, MicroOp.outAfter, h]

/-- `STOP` deselects the chip (20_memory.md R58). -/
theorem chip_stop (x : Transfer) (s : State) (c : Chip) (hd : s.pinDir.ce = true) (ho : s.pinOut.ce = true)
    (hc : s.chip = some c) : (runEntries (stopList x) s).chip = some c.deselect := by
  simp only [stopList, runEntries_cons, runEntries_nil, entryExec_def]
  cases x <;> simp [Transfer.apply, hc, Chip.react, edgeBetween, driven, PinLatch.get,
    PinLatch.set, MicroOp.dirAfter, MicroOp.outAfter, hd, ho]

/-! ### A byte sent -/

/-- The chip after one bit sent. -/
def Chip.bitSent (c : Chip) (b : Byte) (i : Fin 8) : Chip := (c.clockRise (bitOf b i)).clockFall

/-- The chip after the first seven bits of a byte. -/
def Chip.sevenSent (c : Chip) (b : Byte) : Chip :=
  ((((((c.bitSent b 0).bitSent b 1).bitSent b 2).bitSent b 3).bitSent b 4).bitSent b 5).bitSent b 6

theorem bitSent_cmd (c : Chip) (b : Byte) (i : Fin 8) (hp : c.phase = .cmd) (hn : c.n ≠ 7) :
    c.bitSent b i = { c with cmd := setBit c.cmd c.n (bitOf b i), n := c.n + 1 } := by
  rw [Chip.bitSent, clockRise_cmd c _ hp hn, clockFall_phase_ne _ (by simp [hp])]

theorem bitSent_wdata (c : Chip) (b : Byte) (i : Fin 8) (hp : c.phase = .wdata) (hn : c.n ≠ 7) :
    c.bitSent b i = { c with w := setBit c.w c.n (bitOf b i), n := c.n + 1 } := by
  rw [Chip.bitSent, clockRise_wdata c _ hp hn, clockFall_phase_ne _ (by simp [hp])]

theorem bitSent_ignore (c : Chip) (b : Byte) (i : Fin 8) (hp : c.phase = .ignore) : c.bitSent b i = c := by
  rw [Chip.bitSent, clockRise_still c _ (by simp [hp]) (by simp [hp]), clockFall_phase_ne _ (by simp [hp])]

/-- Bits 0 to 6 of a byte, assembled. -/
def lowSeven (b : Byte) : Byte :=
  setBit (setBit (setBit (setBit (setBit (setBit (setBit 0 0 (bitOf b 0)) 1 (bitOf b 1)) 2 (bitOf b 2)) 3 (bitOf b 3)) 4
    (bitOf b 4)) 5 (bitOf b 5)) 6 (bitOf b 6)

theorem setBit_lowSeven (b : Byte) : setBit (lowSeven b) 7 (bitOf b 7) = b := assemble_bitOf b

theorem sevenSent_cmd (c : Chip) (b : Byte) (hp : c.phase = .cmd) (hn : c.n = 0) (h0 : c.cmd = 0) :
    c.sevenSent b = { c with cmd := lowSeven b, n := 7 } := by
  simp [Chip.sevenSent, bitSent_cmd, hp, hn, h0, lowSeven]

theorem sevenSent_wdata (c : Chip) (b : Byte) (hp : c.phase = .wdata) (hn : c.n = 0) (h0 : c.w = 0) :
    c.sevenSent b = { c with w := lowSeven b, n := 7 } := by
  simp [Chip.sevenSent, bitSent_wdata, hp, hn, h0, lowSeven]

theorem sevenSent_ignore (c : Chip) (b : Byte) (hp : c.phase = .ignore) : c.sevenSent b = c := by
  simp [Chip.sevenSent, bitSent_ignore, hp]

/-- The first seven bits of a byte, behind the pins, in the phases in which the chip drives nothing. -/
theorem chip_seven (b : Byte) (release : Bool) (s : State) (c : Chip) (h : sendPins s) (hc : s.chip = some c)
    (hd : c.drive = none)
    (hp : (c.phase = .cmd ∧ c.n = 0) ∨ (c.phase = .wdata ∧ c.n = 0) ∨ c.phase = .ignore) :
    ∃ t, runEntries (out8 b release) s = runEntries (outBit b release 7) t ∧ sendPins t ∧
      t.chip = some (c.sevenSent b) := by
  have key : ∀ (j : Fin 8) (i : Fin 8) (u : State) (x : Chip), i ≠ 7 → sendPins u → u.chip = some x → x.drive = none →
      ((x.phase = .cmd ∧ x.n = j) ∨ (x.phase = .wdata ∧ x.n = j) ∨ x.phase = .ignore) → j ≠ 7 →
      sendPins (runEntries (outBit b release i) u) ∧
      (runEntries (outBit b release i) u).chip = some (x.bitSent b i) ∧ (x.bitSent b i).drive = none ∧
      (((x.bitSent b i).phase = .cmd ∧ (x.bitSent b i).n = j + 1) ∨
        ((x.bitSent b i).phase = .wdata ∧ (x.bitSent b i).n = j + 1) ∨ (x.bitSent b i).phase = .ignore) := by
    intro j i u x hi hu hx hdx hph hj
    have hr : (release && i == 7) = false := by simp [hi]
    refine ⟨sendPins_outBit b release i u hu hr, chip_outBit_low b release i u x hu hx hdx hr, ?_⟩
    obtain ⟨h1, h2⟩ | ⟨h1, h2⟩ | h1 := hph
    · rw [bitSent_cmd x b i h1 (by simp [h2, hj])]; simp [h1, h2, hdx]
    · rw [bitSent_wdata x b i h1 (by simp [h2, hj])]; simp [h1, h2, hdx]
    · rw [bitSent_ignore x b i h1]; simp [h1, hdx]
  obtain ⟨p0, c0, d0, q0⟩ := key 0 0 s c (by decide) h hc hd hp (by decide)
  obtain ⟨p1, c1, d1, q1⟩ := key 1 1 _ _ (by decide) p0 c0 d0 q0 (by decide)
  obtain ⟨p2, c2, d2, q2⟩ := key 2 2 _ _ (by decide) p1 c1 d1 q1 (by decide)
  obtain ⟨p3, c3, d3, q3⟩ := key 3 3 _ _ (by decide) p2 c2 d2 q2 (by decide)
  obtain ⟨p4, c4, d4, q4⟩ := key 4 4 _ _ (by decide) p3 c3 d3 q3 (by decide)
  obtain ⟨p5, c5, d5, q5⟩ := key 5 5 _ _ (by decide) p4 c4 d4 q4 (by decide)
  obtain ⟨p6, c6, d6, q6⟩ := key 6 6 _ _ (by decide) p5 c5 d5 q5 (by decide)
  exact ⟨_, by simp only [out8_bits, runEntries_append], p6, c6⟩

/-- The chip after a whole command byte (20_memory.md R56). -/
def Chip.commanded (c : Chip) (b : Byte) : Chip :=
  match phaseAfterCommand b with
  | .rdata => { c with cmd := b, n := 0, phase := .rdata, out := c.readByte b 0 }
  | .wdata => { c with cmd := b, n := 0, phase := .wdata, w := 0 }
  | ph => { c with cmd := b, n := 0, phase := ph }

theorem readByte_congr (c d : Chip) (cmd : Byte) (k : Nat) (h1 : c.ram = d.ram) (h2 : c.latch = d.latch) :
    c.readByte cmd k = d.readByte cmd k := by
  simp [Chip.readByte, h1, h2]

theorem eighth_command (c : Chip) (b : Byte) (hp : c.phase = .cmd) :
    Chip.clockRise { c with cmd := lowSeven b, n := 7 } (bitOf b 7) = c.commanded b := by
  simp only [Chip.clockRise, hp, Chip.commandBit, setBit_lowSeven, Chip.commanded, if_true]
  split <;> simp [*]
  exact readByte_congr _ _ _ _ rfl rfl

/-- A command byte sent and not read: the chip has taken it (20_memory.md R56). -/
theorem chip_out8_command (b : Byte) (s : State) (c : Chip) (h : sendPins s) (hc : s.chip = some c)
    (hd : c.drive = none) (hp : c.phase = .cmd) (hn : c.n = 0) (h0 : c.cmd = 0)
    (hb : phaseAfterCommand b ≠ .rdata) :
    (runEntries (out8 b false) s).chip = some (c.commanded b) := by
  obtain ⟨t, ht, hs, hx⟩ := chip_seven b false s c h hc hd (.inl ⟨hp, hn⟩)
  have h7 := sevenSent_cmd c b hp hn h0
  rw [ht, chip_outBit_low b false 7 t _ hs hx (by rw [h7]; exact hd) rfl, h7, eighth_command c b hp,
    clockFall_phase_ne]
  unfold Chip.commanded; split <;> simp_all

/-- A command byte sent and the line turned round (20_memory.md R56, 40_link_primitives.md R102). -/
theorem chip_out8_release (b : Byte) (s : State) (c : Chip) (h : sendPins s) (hc : s.chip = some c)
    (hd : c.drive = none) (hp : c.phase = .cmd) (hn : c.n = 0) (h0 : c.cmd = 0) :
    (runEntries (out8 b true) s).chip = some (c.commanded b) := by
  obtain ⟨t, ht, hs, hx⟩ := chip_seven b true s c h hc hd (.inl ⟨hp, hn⟩)
  have h7 := sevenSent_cmd c b hp hn h0
  rw [ht, chip_outBit_high b t _ hs hx (by rw [h7]; exact hd), h7, eighth_command c b hp]

theorem store_phase (c : Chip) (a : Nat) (w : Byte) (r : Bool) : (c.store a w r).phase = c.phase := by
  simp only [Chip.store]; repeat' split
  all_goals rfl

theorem takeByte_phase (c : Chip) (w : Byte) : (c.takeByte w).phase = c.phase := by
  simp only [Chip.takeByte]
  split
  · cases cbRam c.cmd
    · rfl
    · exact store_phase ..
  · exact store_phase ..

theorem eighth_data (c : Chip) (b : Byte) (hp : c.phase = .wdata) :
    Chip.clockRise { c with w := lowSeven b, n := 7 } (bitOf b 7) =
      { c.takeByte b with k := c.k + 1, n := 0, w := 0 } := by
  obtain ⟨ck, ram, latch, phase, n, k, cmd, w, out, wbuf, drive⟩ := c
  simp only at hp
  subst hp
  simp only [Chip.clockRise, Chip.dataBit, setBit_lowSeven, if_true, Chip.takeByte, Chip.store, Chip.writeProtected]
  cases cbRam cmd <;> simp only [cond_true, cond_false] <;> repeat' split
  all_goals rfl

/-- A data byte sent to a chip that takes it (20_memory.md R56). -/
theorem chip_out8_data (b : Byte) (s : State) (c : Chip) (h : sendPins s) (hc : s.chip = some c)
    (hd : c.drive = none) (hp : c.phase = .wdata) (hn : c.n = 0) (h0 : c.w = 0) :
    (runEntries (out8 b false) s).chip = some { c.takeByte b with k := c.k + 1, n := 0, w := 0 } := by
  obtain ⟨t, ht, hs, hx⟩ := chip_seven b false s c h hc hd (.inr (.inl ⟨hp, hn⟩))
  have h7 := sevenSent_wdata c b hp hn h0
  rw [ht, chip_outBit_low b false 7 t _ hs hx (by rw [h7]; exact hd) rfl, h7]
  rw [eighth_data c b hp, clockFall_phase_ne]
  simp [takeByte_phase, hp]

/-- A byte sent to a chip that ignores the frame (20_memory.md R56). -/
theorem chip_out8_ignore (b : Byte) (s : State) (c : Chip) (h : sendPins s) (hc : s.chip = some c)
    (hd : c.drive = none) (hp : c.phase = .ignore) :
    (runEntries (out8 b false) s).chip = some c := by
  obtain ⟨t, ht, hs, hx⟩ := chip_seven b false s c h hc hd (.inr (.inr hp))
  rw [sevenSent_ignore c b hp] at hx
  rw [ht, chip_outBit_low b false 7 t _ hs hx hd rfl]
  exact congrArg some (bitSent_ignore c b 7 hp)

/-! ### A byte received -/

theorem clockFall_rdata (c : Chip) (hp : c.phase = .rdata) (hn : c.n ≠ 7) :
    c.clockFall = { c with drive := some (bitOf c.out c.n), n := c.n + 1 } := by
  simp [Chip.clockFall, hp, hn]

theorem clockFall_rdata_last (c : Chip) (hp : c.phase = .rdata) (hn : c.n = 7) :
    c.clockFall = { c with drive := some (bitOf c.out 7), n := 0, k := c.k + 1, out := c.readByte c.cmd (c.k + 1) } := by
  simp [Chip.clockFall, hp, hn]

theorem readPins_inBit (x : Transfer) (i : Fin 8) (s : State) (h : readPins s) :
    readPins (runEntries (inBit x i) s) := by
  obtain ⟨h1, h2⟩ := h
  exact ⟨by rw [runEntries_pinDir, dirAfter_inBit, h1], by rw [runEntries_pinOut, outAfter_inBit]; exact h2⟩

/-- The chip at the first four steps of a bit of `IN8`: it sees the falling edge and nothing else it reacts to. -/
theorem chip_inBit_front (x : Transfer) (i : Fin 8) (s : State) (c : Chip) (h : readPins s) (hc : s.chip = some c)
    (h1 : c.phase ≠ .cmd) (h2 : c.phase ≠ .wdata) :
    (runEntries ((inBit x i).take 4) s).chip = some c.clockFall ∧ readPins (runEntries ((inBit x i).take 4) s) := by
  obtain ⟨hd, ho⟩ := h
  constructor
  · cases hs : s.pinOut.sclk <;>
      simp [inBit, hc, Chip.react, edgeBetween, driven, PinLatch.get, PinLatch.set, MicroOp.dirAfter,
        MicroOp.outAfter, hd, ho, hs, clockRise_still c _ h1 h2]
  · constructor <;> simp [inBit, PinLatch.set, MicroOp.dirAfter, MicroOp.outAfter, hd, ho]

/-- A `GET(IO)` makes no edge. -/
theorem chip_get (i : Fin 8) (s : State) (h : readPins s) : (MicroOp.exec (.get .io i) s).chip = s.chip := by
  obtain ⟨hd, ho⟩ := h
  rw [microExec_chip]
  cases hs : s.pinOut.sclk <;> cases hc : s.chip <;>
    simp [edgeBetween, driven, PinLatch.get, MicroOp.dirAfter, MicroOp.outAfter, hd, ho, hs, Chip.react]

theorem runEntries_inBit (x : Transfer) (i : Fin 8) (s : State) :
    runEntries (inBit x i) s =
      (bif i == 7 then x else Transfer.none).apply (MicroOp.exec (.get .io i) (runEntries ((inBit x i).take 4) s)) := by
  simp [inBit, entryExec_def]

theorem transfer_chip (x : Transfer) (s : State) : (x.apply s).chip = s.chip := by cases x <;> rfl

/-- One bit of `IN8`: the chip makes its falling edge. -/
theorem chip_inBit (x : Transfer) (i : Fin 8) (s : State) (c : Chip) (h : readPins s) (hc : s.chip = some c)
    (h1 : c.phase ≠ .cmd) (h2 : c.phase ≠ .wdata) : (runEntries (inBit x i) s).chip = some c.clockFall := by
  obtain ⟨hf, hp⟩ := chip_inBit_front x i s c h hc h1 h2
  rw [runEntries_inBit, transfer_chip, chip_get i _ hp, hf]

/-- What `GET(IO)` returns from a chip that drives the line. -/
theorem readLevel_chip (x : Transfer) (i : Fin 8) (s : State) (c : Chip) (h : readPins s) (hc : s.chip = some c)
    (h1 : c.phase = .rdata) : readLevel x i s = bitOf c.out c.n := by
  obtain ⟨hf, hp⟩ := chip_inBit_front x i s c h hc (by simp [h1]) (by simp [h1])
  have hd : c.clockFall.drive = some (bitOf c.out c.n) := by
    by_cases hn : c.n = 7
    · rw [clockFall_rdata_last c h1 hn, hn]
    · rw [clockFall_rdata c h1 hn]
  rw [readLevel]
  generalize runEntries ((inBit x i).take 4) s = u at hf hp
  obtain ⟨q1, q2⟩ := hp
  simp [sense, line, driven, peerDrive, PinLatch.get, q1, hf, hd]

/-- `IN8` from a chip that is answering: the byte is the chip's, and the chip goes on to its next (20_memory.md R57). -/
theorem in8_chip (x : Transfer) (s : State) (c : Chip) (h : readPins s) (hc : s.chip = some c)
    (hp : c.phase = .rdata) (hn : c.n = 0) (hx : x ≠ .clearShreg) :
    (runEntries (in8 x) s).shreg = c.out ∧ readPins (runEntries (in8 x) s) ∧
    (runEntries (in8 x) s).chip =
      some { c with drive := some (bitOf c.out 7), n := 0, k := c.k + 1, out := c.readByte c.cmd (c.k + 1) } := by
  have key : ∀ (i : Fin 8) (u : State) (y : Chip), readPins u → u.chip = some y → y.phase = .rdata →
      readPins (runEntries (inBit x i) u) ∧ (runEntries (inBit x i) u).chip = some y.clockFall ∧
      readLevel x i u = bitOf y.out y.n := fun i u y hu hy hph =>
    ⟨readPins_inBit x i u hu, chip_inBit x i u y hu hy (by simp [hph]) (by simp [hph]), readLevel_chip x i u y hu hy hph⟩
  have low : ∀ (i : Fin 8) (u : State) (y : Chip), readPins u → u.chip = some y → y.phase = .rdata → y.n ≠ 7 →
      readPins (runEntries (inBit x i) u) ∧
      (runEntries (inBit x i) u).chip = some { y with drive := some (bitOf y.out y.n), n := y.n + 1 } ∧
      readLevel x i u = bitOf y.out y.n := fun i u y hu hy hph hny => by
    rw [← clockFall_rdata y hph hny]; exact key i u y hu hy hph
  obtain ⟨p0, c0, r0⟩ := low 0 s c h hc hp (by simp [hn])
  obtain ⟨p1, c1, r1⟩ := low 1 _ _ p0 c0 hp (by simp [hn])
  obtain ⟨p2, c2, r2⟩ := low 2 _ _ p1 c1 hp (by simp [hn])
  obtain ⟨p3, c3, r3⟩ := low 3 _ _ p2 c2 hp (by simp [hn])
  obtain ⟨p4, c4, r4⟩ := low 4 _ _ p3 c3 hp (by simp [hn])
  obtain ⟨p5, c5, r5⟩ := low 5 _ _ p4 c4 hp (by simp [hn])
  obtain ⟨p6, c6, r6⟩ := low 6 _ _ p5 c5 hp (by simp [hn])
  obtain ⟨p7, c7, r7⟩ := key 7 _ _ p6 c6 hp
  rw [in8_bits]
  simp only [runEntries_append]
  refine ⟨?_, p7, ?_⟩
  · simp only [shreg_inBit x _ _ hx, r0, r1, r2, r3, r4, r5, r6, r7, hn]
    exact assemble_bitOf c.out
  · rw [c7]
    refine congrArg some ?_
    simp only [Chip.clockFall, hp, hn, Fin.isValue, zero_add, Fin.reduceAdd, if_true, Chip.mk.injEq, true_and, and_true]
    exact readByte_congr _ _ _ _ rfl rfl

/-- `IN8` with a chip that ignores the frame leaves the chip alone. -/
theorem in8_chip_ignore (x : Transfer) (s : State) (c : Chip) (h : readPins s) (hc : s.chip = some c)
    (hp : c.phase = .ignore) : (runEntries (in8 x) s).chip = some c ∧ readPins (runEntries (in8 x) s) := by
  have key : ∀ (i : Fin 8) (u : State), readPins u → u.chip = some c →
      readPins (runEntries (inBit x i) u) ∧ (runEntries (inBit x i) u).chip = some c := fun i u hu hy =>
    ⟨readPins_inBit x i u hu, by
      rw [chip_inBit x i u c hu hy (by simp [hp]) (by simp [hp]), clockFall_phase_ne c (by simp [hp])]⟩
  obtain ⟨p0, c0⟩ := key 0 s h hc
  obtain ⟨p1, c1⟩ := key 1 _ p0 c0
  obtain ⟨p2, c2⟩ := key 2 _ p1 c1
  obtain ⟨p3, c3⟩ := key 3 _ p2 c2
  obtain ⟨p4, c4⟩ := key 4 _ p3 c3
  obtain ⟨p5, c5⟩ := key 5 _ p4 c4
  obtain ⟨p6, c6⟩ := key 6 _ p5 c5
  obtain ⟨p7, c7⟩ := key 7 _ p6 c6
  rw [in8_bits]
  simp only [runEntries_append]
  exact ⟨c7, p7⟩

end Sys2Proof.Machine
end

