-- ==== Sys2Proof/Laws/Encoding.lean ====
section
/-! SUPPORT. The fields of a command word (30_encoding.md R71), and decoding by operation code (R72). -/

namespace Sys2Proof.Laws

theorem commandWord_toNat (o : BitVec 3) (a d : Byte) :
    (commandWord o a d).toNat = o.toNat * 65536 + a.toNat * 256 + d.toNat := by
  rw [commandWord, BitVec.toNat_append, BitVec.toNat_append, ← Nat.shiftLeft_add_eq_or_of_lt d.isLt,
    ← Nat.shiftLeft_add_eq_or_of_lt a.isLt, Nat.shiftLeft_eq, Nat.shiftLeft_eq]
  omega

theorem field_toNat (w : CmdWord) (i n : Nat) : (w.extractLsb' i n).toNat = w.toNat / 2 ^ i % 2 ^ n := by
  rw [BitVec.extractLsb'_toNat, Nat.shiftRight_eq_div_pow]

@[simp] theorem opField_commandWord (o : BitVec 3) (a d : Byte) : opField (commandWord o a d) = o := by
  apply BitVec.eq_of_toNat_eq
  have := a.isLt; have := d.isLt; have := o.isLt
  rw [opField, field_toNat, commandWord_toNat]; omega

@[simp] theorem addrField_commandWord (o : BitVec 3) (a d : Byte) : addrField (commandWord o a d) = a := by
  apply BitVec.eq_of_toNat_eq
  have := a.isLt; have := d.isLt; have := o.isLt
  rw [addrField, field_toNat, commandWord_toNat]; omega

@[simp] theorem dataField_commandWord (o : BitVec 3) (a d : Byte) : dataField (commandWord o a d) = d := by
  apply BitVec.eq_of_toNat_eq
  have := a.isLt; have := d.isLt; have := o.isLt
  rw [dataField, field_toNat, commandWord_toNat]; omega

/-- The three fields of a word are the whole of it. -/
@[simp] theorem commandWord_fields (w : CmdWord) : commandWord (opField w) (addrField w) (dataField w) = w := by
  apply BitVec.eq_of_toNat_eq
  have := w.isLt
  rw [commandWord_toNat, opField, addrField, dataField, field_toNat, field_toNat, field_toNat]; omega

/-- What a command word decodes to, by its operation code. -/
theorem decodeCommand_cases (w : CmdWord) :
    (opField w = 0 ∧ decodeCommand w = .init (addrField w) (dataField w)) ∨
    (opField w = 1 ∧ decodeCommand w = .wrreg (addrField w) (dataField w)) ∨
    (opField w = 2 ∧ decodeCommand w = .rdreg (addrField w) (dataField w)) ∨
    (opField w = 3 ∧ decodeCommand w = .rd1 (addrField w) (dataField w)) ∨
    (opField w = 4 ∧ decodeCommand w = .bwrite (addrField w) (dataField w)) ∨
    (opField w = 5 ∧ decodeCommand w = .bread (addrField w) (dataField w)) ∨
    (opField w = 6 ∧ decodeCommand w = .sample (addrField w) (dataField w)) ∨
    (opField w = 7 ∧ decodeCommand w = .reserved (addrField w) (dataField w)) := by
  have h : ∀ o : BitVec 3, o = 0 ∨ o = 1 ∨ o = 2 ∨ o = 3 ∨ o = 4 ∨ o = 5 ∨ o = 6 ∨ o = 7 := by decide
  unfold decodeCommand
  rcases h (opField w) with h | h | h | h | h | h | h | h <;> simp [h]

end Sys2Proof.Laws
end

