-- ==== Sys2Proof/Laws/Exec.lean ====
section
/-! SUPPORT. What the shared operations over an instruction can do: acceptance and completion, the two outcomes of a
command word, a frame by itself, and that a list does not change under its own steps. -/

namespace Sys2Proof.Machine

open Sys2Proof.Safety

/-! ### Acceptance and completion -/

theorem whenIdle_idle (f : State → State) (s : State) (h : s.busy = false) : whenIdle f s = .next (f s) := by
  simp [whenIdle, h]

theorem whenIdle_busy (f : State → State) (s : State) (h : s.busy = true) :
    whenIdle f s = .next (mark (some .commandWhileBusy) s) := by
  simp [whenIdle, h]

/-- Acceptance is the mark of the contract and the latches. -/
theorem accept_withLatches (op : BitVec 3) (addr data : Byte) (busy : Bool) (s : State) :
    accept op addr data busy s = (mark (breachOf op addr s) s).withLatches op addr data 0 busy := rfl

/-- A LINK operation is its list run from the marked state, with the latches of acceptance and completion. -/
theorem perform_eq (op : BitVec 3) (addr data : Byte) (es : List Entry) (s : State) :
    perform op addr data es s =
      (runEntries es (mark (breachOf op addr s) s)).withLatches op addr data (BitVec.ofNat 9 (min es.length upcMax)) false := by
  rw [perform, accept_withLatches, runEntries_withLatches]
  rfl

/-- What the marks leave alone. -/
theorem atRest_mark (b : Option Breach) (s : State) : atRest (mark b s) = atRest s := rfl

/-- What a LINK operation leaves on the pins, in the latches and in the registers no list writes. -/
theorem perform_fields (op : BitVec 3) (addr data : Byte) (es : List Entry) (s : State) :
    (perform op addr data es s).pinDir = dirAfter es s.pinDir ∧
    (perform op addr data es s).pinOut = outAfter es s.pinOut ∧
    (perform op addr data es s).addr = addr ∧ (perform op addr data es s).data = data ∧
    (perform op addr data es s).op = op ∧ (perform op addr data es s).busy = false ∧
    (perform op addr data es s).upc = BitVec.ofNat 9 (min es.length upcMax) ∧
    (perform op addr data es s).cur = s.cur ∧ (perform op addr data es s).prev = s.prev ∧
    (perform op addr data es s).btnIn = s.btnIn ∧ (perform op addr data es s).inbox = s.inbox ∧
    (perform op addr data es s).draws = s.draws + es.length := by
  simp [perform, runEntries_pinDir, runEntries_pinOut, runEntries_draws]

/-- A frame by itself is its list run from the marked state. -/
theorem sendFrame_eq (b : Option Breach) (es : List Entry) (s : State) :
    sendFrame b es s = runEntries es (mark b s) := rfl

/-- The wire view of a LINK operation is that of its list. -/
theorem wireSince_perform (op : BitVec 3) (addr data : Byte) (es : List Entry) (s : State) :
    wireSince s (perform op addr data es s) = wireOf es (accept op addr data true s) := by
  have h : (perform op addr data es s).trace =
      (eventList es (accept op addr data true s)).reverse ++ s.trace := by
    simp [perform, runEntries_trace]
  have : eventsSince s (perform op addr data es s) = eventList es (accept op addr data true s) := by
    simp [eventsSince, h]
  rw [wireSince, this]
  rfl

/-- The wire view of a frame by itself is that of its list. -/
theorem wireSince_sendFrame (b : Option Breach) (es : List Entry) (s : State) :
    wireSince s (sendFrame b es s) = wireOf es (mark b s) := by
  have h : (sendFrame b es s).trace = (eventList es (mark b s)).reverse ++ s.trace := by
    simp [sendFrame, runEntries_trace]
  have : eventsSince s (sendFrame b es s) = eventList es (mark b s) := by
    simp [eventsSince, h]
  rw [wireSince, this]
  rfl

/-! ### The sequencer's list -/

/-- No step of BWRITE's list writes the record it sends. -/
theorem bwriteList_noTransfer (p : Params) (r : Record) : noTransfer (bwriteList p r) = true :=
  noTransfer_memWrite _ _

theorem record_of_step (es : List Entry) (e : Entry) (s : State) (h : noTransfer es = true) (he : e ∈ es) :
    (e.exec s).record = s.record := by
  simp only [noTransfer, List.all_eq_true, beq_iff_eq] at h
  obtain ⟨m, x⟩ := e
  have hx := h _ he
  simp only at hx
  rw [hx]; rfl

/-- A list does not change under its own steps (10_state.md R20). -/
theorem expansion_step (s : State) (e : Entry) (h : e ∈ expansion s) : expansion (e.exec s) = expansion s := by
  unfold expansion at h ⊢
  simp only [entryExec_params, entryExec_op, entryExec_addr, entryExec_data]
  split <;> try rfl
  · next h4 =>
    rw [h4] at h
    rw [record_of_step _ e s (bwriteList_noTransfer _ _) h]

/-- A word presented has no effect on an operation in progress but the mark and the inbox. -/
theorem expansion_inbox (s : State) (i : List Input) (b : Option Breach) :
    expansion (mark b { s with inbox := i }) = expansion s := rfl

end Sys2Proof.Machine
end

