-- ==== Sys2Proof/Laws/Memory.lean ====
section
/-! SUPPORT. Memory: the read-after-write laws, and that every memory operation keeps the canonical form. -/

namespace Sys2Proof.Machine

theorem wfAbove_mono (m : Memory) (lo hi : Nat) (hle : lo ≤ hi) (h : Memory.wfAbove hi m = true) :
    Memory.wfAbove lo m = true := by
  cases m with
  | nil => rfl
  | cons x rest =>
    obtain ⟨k, b⟩ := x
    simp only [Memory.wfAbove, Bool.and_eq_true, decide_eq_true_eq] at h ⊢
    exact ⟨⟨by omega, h.1.2⟩, h.2⟩

theorem read_of_below (m : Memory) (lo a : Nat) (h : Memory.wfAbove lo m = true) (ha : a < lo) :
    Memory.read m a = Memory.blank := by
  induction m generalizing lo with
  | nil => rfl
  | cons x rest ih =>
    obtain ⟨k, b⟩ := x
    simp only [Memory.wfAbove, Bool.and_eq_true, decide_eq_true_eq] at h
    rw [Memory.read, if_neg (by omega)]
    exact ih (k + 1) h.2 (by omega)

theorem write_wfAbove (m : Memory) (lo a : Nat) (v : Byte) (h : Memory.wfAbove lo m = true) (ha : lo ≤ a) :
    Memory.wfAbove lo (Memory.write m a v) = true := by
  induction m generalizing lo with
  | nil =>
    rw [Memory.write]; split
    · rfl
    · next hv => simp only [Memory.wfAbove, Bool.and_eq_true, decide_eq_true_eq, bne_iff_ne]; exact ⟨⟨by omega, hv⟩, trivial⟩
  | cons x rest ih =>
    obtain ⟨k, b⟩ := x
    have h' := h
    simp only [Memory.wfAbove, Bool.and_eq_true, decide_eq_true_eq, bne_iff_ne] at h
    obtain ⟨⟨h1, h2⟩, h3⟩ := h
    rw [Memory.write]
    split
    · split
      · exact h'
      · next hv =>
        simp only [Memory.wfAbove, Bool.and_eq_true, decide_eq_true_eq, bne_iff_ne]
        exact ⟨⟨by omega, hv⟩, ⟨by omega, h2⟩, h3⟩
    · split
      · split
        · exact wfAbove_mono rest lo (k + 1) (by omega) h3
        · next hk hv =>
          simp only [Memory.wfAbove, Bool.and_eq_true, decide_eq_true_eq, bne_iff_ne]
          exact ⟨⟨by omega, hv⟩, by rw [hk]; exact h3⟩
      · simp only [Memory.wfAbove, Bool.and_eq_true, decide_eq_true_eq, bne_iff_ne]
        exact ⟨⟨by omega, h2⟩, ih (k + 1) h3 (by omega)⟩

/-- A write keeps the canonical form. -/
theorem write_wf (m : Memory) (a : Nat) (v : Byte) (h : Memory.wf m = true) : Memory.wf (Memory.write m a v) = true :=
  write_wfAbove m 0 a v h (Nat.zero_le a)

theorem read_write_above (m : Memory) (lo a : Nat) (v : Byte) (h : Memory.wfAbove lo m = true) (j : Nat) :
    Memory.read (Memory.write m a v) j = if j = a then v else Memory.read m j := by
  induction m generalizing lo with
  | nil =>
    rw [Memory.write]; split
    · next hv => by_cases hj : j = a <;> simp [Memory.read, hj, hv]
    · by_cases hj : j = a
      · simp [Memory.read, hj]
      · simp [Memory.read, hj, Ne.symm hj]
  | cons x rest ih =>
    obtain ⟨k, b⟩ := x
    simp only [Memory.wfAbove, Bool.and_eq_true, decide_eq_true_eq, bne_iff_ne] at h
    obtain ⟨⟨h1, h2⟩, h3⟩ := h
    rw [Memory.write]
    split
    · next hk =>
      split
      · next hv =>
        by_cases hj : j = a
        · subst hj
          rw [if_pos rfl, Memory.read, if_neg (by omega), read_of_below rest (k + 1) j h3 (by omega), hv]
        · rw [if_neg hj]
      · by_cases hj : j = a
        · rw [if_pos hj, hj, Memory.read, if_pos rfl]
        · rw [if_neg hj, Memory.read, if_neg (Ne.symm hj)]
    · split
      · next hk =>
        subst hk
        split
        · next hv =>
          by_cases hj : j = a
          · subst hj
            rw [if_pos rfl, read_of_below rest (j + 1) j h3 (by omega), hv]
          · rw [if_neg hj, Memory.read, if_neg (Ne.symm hj)]
        · by_cases hj : j = a
          · rw [if_pos hj, hj, Memory.read, if_pos rfl]
          · rw [if_neg hj, Memory.read, Memory.read, if_neg (Ne.symm hj), if_neg (Ne.symm hj)]
      · next hlt hne =>
        rw [Memory.read, Memory.read, ih (k + 1) h3]
        by_cases hj : k = j
        · subst hj; rw [if_pos rfl, if_pos rfl, if_neg (Ne.symm hne)]
        · rw [if_neg hj, if_neg hj]

/-- A read after a write: the written byte at its address, every other byte as before. -/
theorem read_write (m : Memory) (a : Nat) (v : Byte) (h : Memory.wf m = true) (j : Nat) :
    Memory.read (Memory.write m a v) j = if j = a then v else Memory.read m j :=
  read_write_above m 0 a v h j

/-- What a store may change in the chip (20_memory.md R58): one clock register, or one byte of RAM, or nothing. -/
theorem store_cases (c : Chip) (a : Nat) (w : Byte) (r : Bool) :
    (r = false ∧ a = 7 ∧ c.store a w r = { c with ck := c.ck.setIfInBounds 7 (w &&& 0x80) }) ∨
    (c.writeProtected = true ∧ c.store a w r = c) ∨
    (r = true ∧ a < 31 ∧ c.store a w r = { c with ram := c.ram.write a w }) ∨
    (r = false ∧ a < 9 ∧ c.store a w r = { c with ck := c.ck.setIfInBounds a (w &&& bankGet chipMask a) }) ∨
    c.store a w r = c := by
  unfold Chip.store
  split
  · next h => simp at h; exact .inl ⟨h.1, h.2, rfl⟩
  · split
    · next h => exact .inr (.inl ⟨h, rfl⟩)
    · split
      · next h => simp at h; exact .inr (.inr (.inl ⟨h.1, h.2, rfl⟩))
      · split
        · next h => simp at h; exact .inr (.inr (.inr (.inl ⟨h.1, h.2, rfl⟩)))
        · exact .inr (.inr (.inr (.inr rfl)))

/-- A store keeps RAM in its canonical form. -/
theorem store_ram_wf (c : Chip) (a : Nat) (w : Byte) (r : Bool) (h : c.ram.wf = true) : (c.store a w r).ram.wf = true := by
  obtain ⟨_, _, e⟩ | ⟨_, e⟩ | ⟨_, _, e⟩ | ⟨_, _, e⟩ | e := store_cases c a w r <;> rw [e]
  · exact h
  · exact h
  · exact write_wf c.ram a w h
  · exact h
  · exact h

/-- Whatever the chip sees, it keeps RAM in its canonical form. -/
theorem react_ram_wf (e : ChipEdge) (b : Bool) (c : Chip) (h : c.ram.wf = true) : (c.react e b).ram.wf = true := by
  have ht : ∀ w, (c.takeByte w).ram.wf = true := by
    intro w
    unfold Chip.takeByte
    split
    · cases cbRam c.cmd
      · exact h
      · exact store_ram_wf c _ _ _ h
    · exact store_ram_wf c _ _ _ h
  cases e
  · exact h
  · exact h
  · exact h
  · simp only [Chip.react, Chip.clockRise]
    split
    · simp only [Chip.commandBit]; split
      · split <;> exact h
      · exact h
    · simp only [Chip.dataBit]; split
      · exact ht _
      · exact h
    · exact h
    · exact h
    · exact h
  · simp only [Chip.react, Chip.clockFall]
    split
    · split <;> exact h
    · exact h
    · exact h
    · exact h
    · exact h

end Sys2Proof.Machine
end

