-- ==== Sys2Proof/Laws/PerInstr.lean ====
section
/-! SUPPORT. The family "an instruction's code is selected by the row of its own mnemonic" (30_encoding.md R72, R76),
one lemma for each constructor. -/

namespace Sys2Proof.Laws

open Sys2Proof

/-- The `op` bits of a command word under the mask of every row (30_encoding.md R72). -/
theorem commandWord_masked (op : BitVec 3) (a d : Byte) : commandWord op a d &&& 0x70000#19 = op ++ 0#8 ++ 0#8 := by
  have hm : (0x70000#19) = 7#3 ++ 0#8 ++ 0#8 := by decide
  have h7 : op &&& 7#3 = op := by revert op; decide
  rw [hm, commandWord, BitVec.and_append, BitVec.and_append, h7]
  simp

/-- A row of format CW selects a command word exactly by its `op` bits. -/
theorem selects_commandWord (r : Row 19) (op o : BitVec 3) (a d : Byte) (hm : r.mask = 0x70000#19)
    (hp : r.pattern = o ++ 0#8 ++ 0#8) (h : op = o) : r.selects (commandWord op a d) = true := by
  rw [Row.selects, hm, hp, commandWord_masked, h]; simp

/-- The statement of the family. -/
def CodeSelectsRow.Statement (i : Instr) : Prop :=
  i.wellFormed = true →
    match encode i with
    | .command w => ∃ r ∈ commandRows, r.mnemonic = i.mnemonic ∧ r.selects w = true
    | .wire b => ∃ r ∈ wireRows, r.mnemonic = i.mnemonic ∧ r.selects b = true

namespace CodeSelectsRow

theorem init (addr data : Byte) : Statement (.init addr data) := fun _ =>
  ⟨⟨"INIT", 0x00000, 0x70000⟩, by simp [commandRows], rfl, selects_commandWord _ _ 0 _ _ rfl (by decide) rfl⟩

theorem wrreg (addr data : Byte) : Statement (.wrreg addr data) := fun _ =>
  ⟨⟨"WRREG", 0x10000, 0x70000⟩, by simp [commandRows], rfl, selects_commandWord _ _ 1 _ _ rfl (by decide) rfl⟩

theorem rdreg (addr data : Byte) : Statement (.rdreg addr data) := fun _ =>
  ⟨⟨"RDREG", 0x20000, 0x70000⟩, by simp [commandRows], rfl, selects_commandWord _ _ 2 _ _ rfl (by decide) rfl⟩

theorem rd1 (addr data : Byte) : Statement (.rd1 addr data) := fun _ =>
  ⟨⟨"RD1", 0x30000, 0x70000⟩, by simp [commandRows], rfl, selects_commandWord _ _ 3 _ _ rfl (by decide) rfl⟩

theorem bwrite (addr data : Byte) : Statement (.bwrite addr data) := fun _ =>
  ⟨⟨"BWRITE", 0x40000, 0x70000⟩, by simp [commandRows], rfl, selects_commandWord _ _ 4 _ _ rfl (by decide) rfl⟩

theorem bread (addr data : Byte) : Statement (.bread addr data) := fun _ =>
  ⟨⟨"BREAD", 0x50000, 0x70000⟩, by simp [commandRows], rfl, selects_commandWord _ _ 5 _ _ rfl (by decide) rfl⟩

theorem sample (addr data : Byte) : Statement (.sample addr data) := fun _ =>
  ⟨⟨"SAMPLE", 0x60000, 0x70000⟩, by simp [commandRows], rfl, selects_commandWord _ _ 6 _ _ rfl (by decide) rfl⟩

theorem reserved (addr data : Byte) : Statement (.reserved addr data) := fun _ =>
  ⟨⟨"RESERVED", 0x70000, 0x70000⟩, by simp [commandRows], rfl, selects_commandWord _ _ 7 _ _ rfl (by decide) rfl⟩

theorem cbWpWrite : Statement .cbWpWrite := fun _ =>
  ⟨⟨"CB_WP_WRITE", 0x8E, 0xFF⟩, by simp [wireRows], rfl, by decide⟩

theorem cbTcsWrite : Statement .cbTcsWrite := fun _ =>
  ⟨⟨"CB_TCS_WRITE", 0x90, 0xFF⟩, by simp [wireRows], rfl, by decide⟩

theorem cbBurstWrite : Statement .cbBurstWrite := fun _ =>
  ⟨⟨"CB_BURST_WRITE", 0xBE, 0xFF⟩, by simp [wireRows], rfl, by decide⟩

theorem cbBurstRead : Statement .cbBurstRead := fun _ =>
  ⟨⟨"CB_BURST_READ", 0xBF, 0xFF⟩, by simp [wireRows], rfl, by decide⟩

theorem cbSecWrite : Statement .cbSecWrite := fun _ =>
  ⟨⟨"CB_SEC_WRITE", 0x80, 0xFF⟩, by simp [wireRows], rfl, by decide⟩

theorem cbSecRead : Statement .cbSecRead := fun _ =>
  ⟨⟨"CB_SEC_READ", 0x81, 0xFF⟩, by simp [wireRows], rfl, by decide⟩

theorem cbAnyWrite (addr7 : BitVec 7) : Statement (.cbAnyWrite addr7) := fun _ =>
  ⟨⟨"CB_ANY_WRITE", 0x00, 0x01⟩, by simp [wireRows], rfl, by revert addr7; decide⟩

theorem cbAnyRead (addr7 : BitVec 7) : Statement (.cbAnyRead addr7) := fun _ =>
  ⟨⟨"CB_ANY_READ", 0x01, 0x01⟩, by simp [wireRows], rfl, by revert addr7; decide⟩

end CodeSelectsRow

end Sys2Proof.Laws
end

