-- ==== Sys2Proof/Laws/Sequencer.lean ====
section
/-! SUPPORT. The sequencer's run over a list, one micro-operation a step (10_state.md R20). -/

namespace Sys2Proof.Machine

theorem run_of_step (M : Host.Core) (n : Nat) (s t : M.State) (h : M.step s = .next t) : M.run (n + 1) s = M.run n t := by
  rw [Host.Core.run, h]

/-- A run begins with a step. -/
theorem core_run_of_step (n : Nat) (s t : State) (h : step s = .next t) :
    Host.Core.run Sys2Proof.core (n + 1) s = Host.Core.run Sys2Proof.core n t :=
  run_of_step Sys2Proof.core n s t h

/-- One step of a busy block without an input, as the micro-operation with the latches beside it. -/
theorem step_busy (s : State) (e : Entry) (hb : s.busy = true) (hi : s.inbox = [])
    (he : (expansion s)[s.upc.toNat]? = some e) :
    step s = .next ((e.exec s).withLatches s.op s.addr s.data (nextUpc s.upc)
      (decide (s.upc.toNat + 1 < (expansion s).length))) := by
  simp only [step, hb, busyStep, resetRequested, hi, busyInput, sequencerStep, he, cond_true, cond_false]
  congr 1
  obtain ⟨m, x⟩ := e; cases x <;> rfl

/-- The latches of position do not choose the list. -/
theorem expansion_step_withLatches (s : State) (e : Entry) (he : e ∈ expansion s) (u : BitVec 9) (b : Bool) :
    expansion ((e.exec s).withLatches s.op s.addr s.data u b) = expansion s := by
  have : expansion ((e.exec s).withLatches s.op s.addr s.data u b) = expansion (e.exec s) := by
    simp [expansion, State.withLatches, entryExec_params, entryExec_op, entryExec_addr, entryExec_data]
  rw [this]; exact expansion_step s e he

/-- Completion does not depend on the latches it sets. -/
theorem finish_withLatches (n : Nat) (t : State) (op : BitVec 3) (a d : Byte) (u : BitVec 9) (b : Bool)
    (h1 : t.op = op) (h2 : t.addr = a) (h3 : t.data = d) :
    finish n (t.withLatches op a d u b) = finish n t := by
  subst h1 h2 h3; rfl

/-- A busy block at entry `k` of its list runs the rest of it, one entry a step, and completes. -/
theorem run_rest (rest : List Entry) (k : Nat) (s : State) (hb : s.busy = true) (hi : s.inbox = [])
    (hd : (expansion s).drop k = rest) (hu : s.upc.toNat = k) (hl : k + rest.length = (expansion s).length)
    (h5 : (expansion s).length ≤ 437) (hne : rest ≠ []) :
    Host.Core.run Sys2Proof.core rest.length s = .next (finish (expansion s).length (runEntries rest s)) := by
  induction rest generalizing k s with
  | nil => exact absurd rfl hne
  | cons e tl ih =>
    have hk : (expansion s)[s.upc.toNat]? = some e := by
      have h0 := congrArg (fun l => l[0]?) hd
      rw [hu]; simpa using h0
    have hmem : e ∈ expansion s := List.mem_of_getElem? hk
    rw [List.length_cons, core_run_of_step _ _ _ (step_busy s e hb hi hk)]
    simp only [List.length_cons] at hl
    by_cases ht : tl = []
    · subst ht
      have hf : decide (s.upc.toNat + 1 < (expansion s).length) = false := by simp at hl ⊢; omega
      have hn : nextUpc s.upc = BitVec.ofNat 9 (min (expansion s).length upcMax) := by
        rw [nextUpc, hu]; simp at hl; rw [hl]
      rw [hf, hn]
      simp only [List.length_nil, Host.Core.run, runEntries_cons, runEntries_nil]
      congr 1
      obtain ⟨m, x⟩ := e; cases x <;> rfl
    · have hpos : 0 < tl.length := List.length_pos_iff.mpr ht
      have hf : decide (s.upc.toNat + 1 < (expansion s).length) = true := by simp; omega
      have hup : (nextUpc s.upc).toNat = k + 1 := by rw [nextUpc, hu, BitVec.toNat_ofNat, upcMax]; omega
      have hx := expansion_step_withLatches s e hmem
      rw [hf, ih (k + 1) _ rfl (by simp [State.withLatches, hi])
        (by rw [hx]; have := congrArg (List.drop 1) hd; simpa [List.drop_drop, Nat.add_comm] using this) hup
        (by rw [hx]; omega) (by rw [hx]; exact h5) ht]
      rw [hx, runEntries_withLatches, runEntries_cons, finish_withLatches _ _ _ _ _ _ _ (by simp) (by simp) (by simp)]

end Sys2Proof.Machine
end

