-- ==== Sys2Proof/Tests/Slice0.lean ====
section
/-! SUPPORT. The model's own tests: ill-formed instructions, words written out from the encodings, one step on small
states with the spec's expected results (95_test_vectors.md), and a witness for the hypotheses of each statement. -/

namespace Sys2Proof.Tests

open Sys2Proof Sys2Proof.Machine Sys2Proof.Safety

/-! ### Ill-formed instructions -/

theorem test_wellFormed_refuses_named_writes :
    (namedWriteForms.map fun a => (Instr.cbAnyWrite a).wellFormed) = [false, false, false, false] := by decide

theorem test_wellFormed_refuses_named_reads :
    (namedReadForms.map fun a => (Instr.cbAnyRead a).wellFormed) = [false, false] := by decide

theorem test_decode_refuses_wide_word : decodeBytes [0x00, 0x00, 0x08] = .error .commandWordTooWide := by decide

theorem test_decode_refuses_two_bytes : decodeBytes [0x8E, 0x00] = .error .notOneOrThreeBytes := by decide

/-! ### Decoding: `op` (3 bits), `addr`, `data` written out (30_encoding.md R71, R72); bit 7 to bit 0 of a byte (R76) -/

theorem test_decode_init : decodeCommand 0b000_00000000_00000000 = .init 0x00 0x00 := by decide
theorem test_decode_wrreg : decodeCommand 0b001_10001110_01011010 = .wrreg 0x8E 0x5A := by decide
theorem test_decode_rdreg : decodeCommand 0b010_10000001_00000000 = .rdreg 0x81 0x00 := by decide
theorem test_decode_rd1 : decodeCommand 0b011_10000000_00000000 = .rd1 0x80 0x00 := by decide
theorem test_decode_bwrite : decodeCommand 0b100_00000000_00000001 = .bwrite 0x00 0x01 := by decide
theorem test_decode_bread : decodeCommand 0b101_10000000_00000000 = .bread 0x80 0x00 := by decide
theorem test_decode_sample : decodeCommand 0b110_00000000_00000000 = .sample 0x00 0x00 := by decide
theorem test_decode_reserved : decodeCommand 0b111_11111111_00000000 = .reserved 0xFF 0x00 := by decide
theorem test_decode_cbWpWrite : decodeByte 0b10001110 = .cbWpWrite := by decide
theorem test_decode_cbTcsWrite : decodeByte 0b10010000 = .cbTcsWrite := by decide
theorem test_decode_cbBurstWrite : decodeByte 0b10111110 = .cbBurstWrite := by decide
theorem test_decode_cbBurstRead : decodeByte 0b10111111 = .cbBurstRead := by decide
theorem test_decode_cbSecWrite : decodeByte 0b10000000 = .cbSecWrite := by decide
theorem test_decode_cbSecRead : decodeByte 0b10000001 = .cbSecRead := by decide
theorem test_decode_cbAnyWrite : decodeByte 0b10001100 = .cbAnyWrite 0b1000110 := by decide
theorem test_decode_cbAnyRead : decodeByte 0b11111111 = .cbAnyRead 0b1111111 := by decide

/-! ### States -/

/-- The state a step answers; reset where it stops. -/
def after (o : Outcome) : State :=
  match o with
  | .next s => s
  | .fault _ => State.reset
  | .refused _ => State.reset

/-- An idle chip with these registers. -/
def chipOf (ck : Vector Byte 9) : Chip := ⟨ck, [], #v[0, 0, 0, 0, 0, 0, 0, 0, 0], .idle, 0, 0, 0, 0, 0, [], none⟩

/-- The start state of 95_test_vectors.md section 2.5: after reset and INIT, pins at rest, the record written. -/
def rested (ck : Vector Byte 9) : State :=
  { State.reset with
    pinDir := ⟨true, true, true⟩, inited := true, upc := 208, recWritten := 0xFF, chip := some (chipOf ck) }

/-- The peer of V20: protected, halted, charger on. -/
def protectedCk : Vector Byte 9 := #v[0xD9, 0x47, 0x23, 0x31, 0x12, 0x07, 0x99, 0x80, 0xA5]

/-- The peer of V24. -/
def runningCk : Vector Byte 9 := #v[0x00, 0x30, 0x12, 0x10, 0x11, 0x02, 0x26, 0x00, 0x00]

/-- The record of V23. -/
def seedRecord : Record := ⟨0x00, 0x30, 0x12, 0x10, 0x11, 0x02, 0x26, 0x00⟩

def ckOf (s : State) : Option (Vector Byte 9) := s.chip.map (·.ck)

/-! ### One step each (95_test_vectors.md; the vector is named) -/

/-- V20, V34. -/
theorem test_init_chip :
    ckOf (after (exec (.init 0 0) { State.reset with chip := some (chipOf protectedCk) })) =
      some #v[0xD9, 0x47, 0x23, 0x31, 0x12, 0x07, 0x99, 0x00, 0x00] := by decide +kernel

/-- V20: the wire view; and 00_scope.md R5: with another chip's map the two frames carry its bytes. -/
theorem test_init_wire :
    wireSince State.reset (after (exec (.init 0 0) State.reset)) =
      [.ceUp, .clock false, .clock true, .clock true, .clock true, .clock false, .clock false, .clock false, .clock true] ++
      List.replicate 8 (.clock false) ++
      [.ceDown, .ceUp, .clock false, .clock false, .clock false, .clock false, .clock true, .clock false, .clock false,
        .clock true] ++ List.replicate 8 (.clock false) ++ [.ceDown] ∧
    wireSince State.reset (after (exec (.init 0 0)
        (State.resetWith { cmdWp := 0x0E, cmdTcs := 0x10, valWpOff := 0xA5, valTcsOff := 0x59 }))) =
      [.ceUp] ++ sentByte 0x0E ++ sentByte 0xA5 ++ [.ceDown, .ceUp] ++ sentByte 0x10 ++ sentByte 0x59 ++ [.ceDown] := by
  decide +kernel

/-- V11, V21. -/
theorem test_wrreg_chip :
    let t := after (exec (.wrreg 0x80 0x80) (rested #v[0x41, 0x30, 0x12, 0x10, 0x11, 0x02, 0x26, 0x00, 0x00]))
    ckOf t = some #v[0x80, 0x30, 0x12, 0x10, 0x11, 0x02, 0x26, 0x00, 0x00] ∧
      t.pinDir = ⟨true, true, true⟩ ∧ t.pinOut = ⟨false, false, true⟩ ∧ t.upc = 101 := by decide +kernel

/-- V33: the resume is ignored by the protected chip. -/
theorem test_wrreg_protected :
    ckOf (after (exec (.wrreg 0x80 0x00) (rested #v[0x80, 0x29, 0x12, 0x10, 0x11, 0x02, 0x26, 0x80, 0x00]))) =
      some #v[0x80, 0x29, 0x12, 0x10, 0x11, 0x02, 0x26, 0x80, 0x00] := by decide +kernel

/-- V10. -/
theorem test_rdreg_value :
    let t := after (exec (.rdreg 0x80 0x00) (rested #v[0x59, 0, 0, 0, 0, 0, 0, 0, 0]))
    t.rdata = 0x59 ∧ t.pinDir = ⟨true, true, false⟩ ∧ t.pinOut = ⟨false, false, true⟩ ∧ t.trace.length = 92 := by
  decide +kernel

/-- V22b: the flag is forced, not toggled. -/
theorem test_rdreg_flag_forced :
    let s := rested #v[0x80, 0, 0, 0, 0, 0, 0, 0, 0]
    wireSince s (after (exec (.rdreg 0x81 0x00) s)) =
      [.ceUp, .clock true, .clock false, .clock false, .clock false, .clock false, .clock false, .clock false, .clock true] ++
      List.replicate 7 (.sample false) ++ [.sample true, .ceDown] := by decide +kernel

/-- V22c. -/
theorem test_rd1_value :
    (after (exec (.rd1 0x80 0x00) (rested #v[0x37, 0, 0, 0, 0, 0, 0, 0, 0]))).rdata = 0x37 := by decide +kernel

/-- V23: the burst, from the record, within one frame; `UPC` by 41_link_operations.md R127. -/
theorem test_bwrite_chip :
    let t := after (exec (.bwrite 0 0) { rested #v[0x80, 0x30, 0x12, 0x10, 0x11, 0x02, 0x26, 0x00, 0x00] with
                                          record := seedRecord })
    ckOf t = some runningCk ∧ t.record = seedRecord ∧ t.trace.length = 437 ∧ t.upc = 436 := by decide +kernel

/-- V33: write protection rides in the burst. -/
theorem test_bwrite_protect :
    ckOf (after (exec (.bwrite 0 0) { rested #v[0x80, 0, 0, 0, 0, 0, 0, 0, 0] with
      record := ⟨0x80, 0x29, 0x12, 0x10, 0x11, 0x02, 0x26, 0x80⟩ })) =
      some #v[0x80, 0x29, 0x12, 0x10, 0x11, 0x02, 0x26, 0x80, 0x00] := by decide +kernel

/-- V24. -/
theorem test_bread_record :
    let t := after (exec (.bread 0 0) (rested runningCk))
    t.record = seedRecord ∧ t.rdata = 0 ∧ t.pinDir.io = false ∧ t.trace.length = 372 := by decide +kernel

/-- V31, second half: what a chip that masked all ones answers. -/
theorem test_bread_masked :
    (after (exec (.bread 0 0) (rested #v[0xFF, 0x7F, 0xBF, 0x3F, 0x1F, 0x07, 0xFF, 0x00, 0x00]))).record =
      ⟨0xFF, 0x7F, 0xBF, 0x3F, 0x1F, 0x07, 0xFF, 0x00⟩ := by decide +kernel

/-- V25, section 2.7 line 2. -/
theorem test_sample_press :
    let t := after (exec (.sample 0 0) { State.reset with btnIn := [0b110] })
    t.prev = 0b111 ∧ t.cur = 0b110 ∧ press t = 0b001 ∧ release t = 0b000 ∧ t.busy = false := by decide

/-- Section 2.7 line 6. -/
theorem test_sample_release :
    let t := after (exec (.sample 0 0) { State.reset with cur := 0b001, btnIn := [0b101] })
    press t = 0b000 ∧ release t = 0b100 := by decide

/-- V26. -/
theorem test_reserved_keeps :
    let t := after (exec (.reserved 0x12 0x34) (rested runningCk))
    t.record = (rested runningCk).record ∧ t.pinOut = (rested runningCk).pinOut ∧ t.busy = false ∧ t.trace = [] := by
  decide +kernel

/-- V20, the first frame alone. -/
theorem test_cbWpWrite :
    ckOf (after (exec .cbWpWrite (rested protectedCk))) =
      some #v[0xD9, 0x47, 0x23, 0x31, 0x12, 0x07, 0x99, 0x00, 0xA5] := by decide +kernel

/-- V20, the second frame alone, on a chip that is not protected. -/
theorem test_cbTcsWrite :
    ckOf (after (exec .cbTcsWrite (rested #v[0xD9, 0x47, 0x23, 0x31, 0x12, 0x07, 0x99, 0x00, 0xA5]))) =
      some #v[0xD9, 0x47, 0x23, 0x31, 0x12, 0x07, 0x99, 0x00, 0x00] := by decide +kernel

/-- The frame of V23. -/
theorem test_cbBurstWrite :
    ckOf (after (exec .cbBurstWrite { rested #v[0x80, 0, 0, 0, 0, 0, 0, 0, 0] with record := seedRecord })) =
      some runningCk := by decide +kernel

/-- The frame of V24. -/
theorem test_cbBurstRead : (after (exec .cbBurstRead (rested runningCk))).record = seedRecord := by decide +kernel

/-- The frame of V21. -/
theorem test_cbSecWrite :
    ckOf (after (exec .cbSecWrite { rested #v[0x41, 0, 0, 0, 0, 0, 0, 0, 0] with data := 0x80 })) =
      some #v[0x80, 0, 0, 0, 0, 0, 0, 0, 0] := by decide +kernel

/-- The frame of V22c. -/
theorem test_cbSecRead : (after (exec .cbSecRead (rested #v[0x37, 0, 0, 0, 0, 0, 0, 0, 0]))).rdata = 0x37 := by
  decide +kernel

/-- The last byte of RAM, written (20_memory.md R55, R58; 30_encoding.md R76: bits 7, 6 = 1, number 30). -/
theorem test_cbAnyWrite :
    (after (exec (.cbAnyWrite 0b1111110) { rested runningCk with data := 0xA5 })).chip.map (·.ram) =
      some [(30, 0xA5)] := by decide +kernel

/-- The frame of V22 with minutes for seconds (20_memory.md R59; 30_encoding.md R76: register number 1). -/
theorem test_cbAnyRead : (after (exec (.cbAnyRead 0b1000001) (rested runningCk))).rdata = 0x30 := by decide +kernel

/-- V30 is legal (10_state.md R15, R16); a weekday byte 0x0F, 0x09 or 0, and 60 seconds, are not. -/
theorem test_record_legal :
    (⟨0x80, 0x59, 0xB2, 0x31, 0x12, 0x07, 0x99, 0x00⟩ : Record).legal = true ∧
    ([0x0F, 0x09, 0x00, 0x11].map fun b => ({ seedRecord with dow := b } : Record).legal) = [false, false, false, false] ∧
    ({ seedRecord with sec := 0x60 } : Record).legal = false := by decide

/-- 70_reset_and_hazards.md R173: the registers of the chip over `rst`. -/
theorem test_rst_keeps_the_registers : ckOf (after (step { rested protectedCk with inbox := [.rst] })) = some protectedCk := by
  decide +kernel

/-- 30_encoding.md R82, the words of 95_test_vectors.md: HALT, RESUME, PROBE, on_button_sample(). -/
theorem test_idioms :
    haltOscillator Config.params 0 = [.call 0x18080] ∧ resumeOscillator Config.params = [.call 0x18000] ∧
    probe Config.params = [.call 0x38000] ∧ onButtonSample = [.call 0x60000] := by decide

/-- 10_state.md R28: a host read before the first write is out of contract; after it, it is not. -/
theorem test_host_reads :
    (after (step { State.reset with inbox := [.readRec 0] })).breach = some .unwrittenRecordRead ∧
    (after (step { State.reset with inbox := [.readRdata] })).breach = some .unwrittenRdata ∧
    (after (step { State.reset with inbox := [.readRec 7], recWritten := 0x80 })).breach = none := by decide

/-- P2b and P5: a probe that is not zero leaves the record. -/
theorem test_heartbeat_nonzero :
    let s := { rested #v[0x37, 0x30, 0x12, 0x10, 0x11, 0x02, 0x26, 0x00, 0x00] with
               rdata := 0x37, rdataWritten := true, record := { seedRecord with sec := 0x36 },
               inbox := [.callIfRdata 0x00 (commandWord 0b101 0 0)] }
    (after (step s)).record.sec = 0x36 := by decide +kernel

/-! ### Witnesses: states and operands that meet the hypotheses of each statement -/

/-- At rest, initialised, with the inputs given. -/
def restedWith (ck : Vector Byte 9) (inbox : List Input) : State := { rested ck with inbox := inbox }

theorem witness_DecodeOfEncode : (Instr.cbAnyWrite 0x61).wellFormed = true ∧ (Instr.cbAnyRead 0x7F).wellFormed = true := by
  decide

theorem witness_CommandWordSelectsItsRow :
    (⟨"RESERVED", 0x70000, 0x70000⟩ : Row 19) ∈ commandRows ∧ (⟨"INIT", 0x00000, 0x70000⟩ : Row 19) ∈ commandRows := by
  decide

theorem witness_StepRunsTheDecodedInstruction :
    ((restedWith runningCk [.call 0x7FFFF]).busy = false ∧
      (restedWith runningCk [.call 0x7FFFF]).inbox = .call 0x7FFFF :: []) ∧
    ((restedWith runningCk [.frame 0xFF]).busy = false ∧ (restedWith runningCk [.frame 0xFF]).inbox = .frame 0xFF :: []) ∧
    decodeTableWord 24 0x7FFFF = some (.reserved 0xFF 0xFF) ∧ decodeTableWord 8 0xFF = some (.cbAnyRead 0x7F) := by
  decide +kernel

/-- A block at micro-operation `n` of operation `op`. -/
def running (op : BitVec 3) (n : BitVec 9) (inbox : List Input) : State :=
  { restedWith runningCk inbox with busy := true, op := op, upc := n, addr := 0x80, data := 0x80 }

theorem witness_SequencerRunsTheEntryAtUpc :
    (running 0b100 436 []).busy = true ∧ (running 0b100 436 []).inbox = [] ∧
    (expansion (running 0b100 436 []))[(running 0b100 436 []).upc.toNat]? = some { op := .nop2 } ∧
    (expansion (running 0b101 0 []))[(running 0b101 0 []).upc.toNat]? = some { op := .dir .io true } := by decide +kernel

theorem witness_PresentAndStepIsCall :
    (rested runningCk).busy = false ∧ (opField 0x00000).toNat < 6 ∧ (opField 0x5FFFF).toNat < 6 ∧
    6 ≤ (opField 0x60000).toNat ∧ 6 ≤ (opField 0x7FFFF).toNat := by decide +kernel

theorem step_running_idle : ∃ t, step (running 0b001 100 [.idle]) = .next t :=
  ⟨_, by simp only [step, running, busyStep, resetRequested, busyInput, restedWith, cond_true, cond_false]; rfl⟩

theorem witness_UpcNeverExceeds436 :
    (running 0b100 436 []).upc.toNat ≤ 436 ∧ (running 0b001 100 [.idle]).upc.toNat ≤ 436 ∧
      ∃ t, step (running 0b001 100 [.idle]) = .next t :=
  ⟨by decide, by decide, step_running_idle⟩

theorem witness_NoStepChangesTheParameters : ∃ t, step (running 0b001 100 [.idle]) = .next t := step_running_idle

theorem witness_BusyBlockIgnoresACommandWord :
    (running 0b001 100 []).busy = true ∧
      ∃ t, step { running 0b001 100 [] with inbox := .idle :: [] } = .next t :=
  ⟨rfl, step_running_idle⟩

theorem witness_RecordPortWritesOnlyWhenIdle :
    ((restedWith runningCk [.writeRec 7 0x80]).busy = false ∧
      (restedWith runningCk [.writeRec 7 0x80]).inbox = .writeRec 7 0x80 :: []) ∧
    (running 0b001 100 []).busy = true ∧ ∃ t, step { running 0b001 100 [] with inbox := .idle :: [] } = .next t :=
  ⟨⟨rfl, rfl⟩, rfl, step_running_idle⟩

theorem witness_HostReadsChangeNothing :
    ((restedWith runningCk [.readRec 7]).busy = false ∧ (restedWith runningCk [.readRec 7]).inbox = .readRec 7 :: [] ∧
      bitOf (restedWith runningCk [.readRec 7]).recWritten 7 = true ∧ bitOf State.reset.recWritten 0 = false) ∧
    ((restedWith runningCk [.readRdata]).busy = false ∧ (restedWith runningCk [.readRdata]).inbox = .readRdata :: [] ∧
      (restedWith runningCk [.readRdata]).rdataWritten = false ∧
      ({ rested runningCk with rdataWritten := true } : State).rdataWritten = true) ∧
    (running 0b001 100 []).busy = true ∧ ∃ t, step { running 0b001 100 [] with inbox := .idle :: [] } = .next t :=
  ⟨⟨rfl, rfl, by decide, by decide⟩, ⟨rfl, rfl, rfl, rfl⟩, rfl, step_running_idle⟩

theorem witness_ResetFromAnyState : (running 0b001 100 [.rst]).inbox = .rst :: [] ∧ (running 0b001 100 [.rst]).busy = true := by
  decide

theorem witness_InitConfiguresPinsAndSendsTwoFrames :
    State.reset.busy = false ∧ State.reset.pinOut.ce = false ∧ State.reset.pinOut.sclk = false := by decide

/-- The hypotheses of the statements about a state at rest, and of those that only ask the block to be idle. -/
theorem witness_atRest : (rested runningCk).busy = false ∧ atRest (rested runningCk) = true := by decide

theorem witness_WrregSendsAddressAndData : (rested runningCk).busy = false ∧ atRest (rested runningCk) = true := witness_atRest

theorem witness_SingleReadsAssembleTheAnswer : (rested runningCk).busy = false ∧ atRest (rested runningCk) = true :=
  witness_atRest

theorem witness_BwriteSendsTheRecord : (rested runningCk).busy = false ∧ atRest (rested runningCk) = true := witness_atRest

theorem witness_BreadFillsTheRecord : (rested runningCk).busy = false ∧ atRest (rested runningCk) = true := witness_atRest

theorem witness_SampleShiftsTheLevels :
    State.reset.busy = false ∧ ({ State.reset with btnIn := [0b101] } : State).btnIn = 0b101 :: [] := by decide

theorem witness_ReservedCodeDoesNothing :
    (restedWith runningCk [.call 0x70000]).busy = false ∧ (restedWith runningCk [.call 0x70000]).breach = none ∧
    opField 0x70000 = 0b111 ∧ (restedWith runningCk [.call 0x70000]).inbox = .call 0x70000 :: [] := by decide

theorem witness_IgnoredFieldsOnlyReachTheLatches : (rested runningCk).busy = false := rfl

theorem witness_RestStateBetweenOperations : (rested runningCk).busy = false ∧ atRest (rested runningCk) = true :=
  witness_atRest

theorem witness_WriteCommandBytesSendTheirFrame : (rested runningCk).busy = false := rfl

theorem witness_ReadCommandBytesSendTheirFrame : (rested runningCk).busy = false := rfl

theorem witness_ReadFlagIsForced : (rested runningCk).busy = false := rfl

theorem witness_RdregReturnsTheLevelsOnTheLine :
    let s := { rested runningCk with chip := none, ioIn := bitOrder.map (bitOf 0x59) ++ [true] }
    s.busy = false ∧ s.chip = none ∧ s.ioIn = bitOrder.map (bitOf 0x59) ++ [true] := by decide

theorem witness_PressAndReleaseAreTheEdges : (0 < 3) ∧ (2 < 3) := by decide

/-- Left pressed, released, pressed and released again, one SAMPLE after the other, from reset. -/
def pressRun (n : Nat) : State :=
  match n with
  | 0 => { State.reset with btnIn := [0b110, 0b111, 0b110, 0b111] }
  | k + 1 => sampleButtons (accept 0b110 0 0 false (pressRun k))

theorem pressRun_idle (n : Nat) : (pressRun n).busy = false := by cases n <;> rfl

/-- Each clause: two presses, two releases, and a release after reset. -/
theorem witness_PressesAndReleasesAlternate :
    (∀ n, (pressRun n).busy = false ∧ exec (.sample 0 0) (pressRun n) = .next (pressRun (n + 1))) ∧ 0 < 3 ∧
    (1 < 3 ∧ (press (pressRun 1)).getLsbD 0 = true ∧ (press (pressRun 3)).getLsbD 0 = true) ∧
    (2 < 4 ∧ (release (pressRun 2)).getLsbD 0 = true ∧ (release (pressRun 4)).getLsbD 0 = true) ∧
    (pressRun 0).cur = 0b111 ∧ (pressRun 0).prev = 0b111 :=
  ⟨fun n => ⟨pressRun_idle n, by simp [exec, execSample, whenIdle, pressRun_idle, pressRun]⟩, by decide, by decide,
    by decide, by decide, by decide⟩

theorem witness_EveryInstructionCompletes :
    sequencerOk (rested runningCk) = true ∧ sequencerOk (running 0b100 436 []) = true := by decide +kernel

theorem witness_OnlyInitSetsInitedAndTurnsTheLines :
    exec (.reserved 0 0) (rested runningCk) = .next (accept 0b111 0 0 false (rested runningCk)) ∧
    (rested runningCk).inited = true ∧ (rested runningCk).pinDir.ce = true ∧ (rested runningCk).pinDir.sclk = true :=
  ⟨rfl, rfl, rfl, rfl⟩

theorem witness_WhoWritesTheDataRegisters :
    exec (.reserved 0 0) (rested runningCk) = .next (accept 0b111 0 0 false (rested runningCk)) := rfl

theorem witness_StepKeepsSequencerAndRest :
    sequencerOk (running 0b001 100 [.idle]) = true ∧ restOk (running 0b001 100 [.idle]) = true ∧
      ∃ t, step (running 0b001 100 [.idle]) = .next t :=
  ⟨by decide +kernel, by decide +kernel, step_running_idle⟩

theorem witness_StepKeepsTheChip :
    memoryOk (running 0b001 100 [.idle]) = true ∧ chipMasked (running 0b001 100 [.idle]) = true ∧
      ∃ t, step (running 0b001 100 [.idle]) = .next t :=
  ⟨by decide +kernel, by decide +kernel, step_running_idle⟩

theorem quiet_rested (ck : Vector Byte 9) : ChipQuiet (rested ck) (chipOf ck) := ⟨rfl, rfl⟩

/-- Each clause of the statement: the last clock register, RAM burst, clock burst, a byte with bit 7 clear. -/
theorem witness_WrregStoresOneByteInTheChip :
    (rested runningCk).busy = false ∧ atRest (rested runningCk) = true ∧ ChipQuiet (rested runningCk) (chipOf runningCk) ∧
    (cbRead 0x90 = false ∧ cbOne 0x90 = true ∧ cbReg 0x90 ≠ 31) ∧
    (cbRead 0xFC = false ∧ cbOne 0xFC = true ∧ cbReg 0xFC ≠ 31 ∧ cbReg 0xFC = 30) ∧
    (cbRead 0xFE = false ∧ cbOne 0xFE = true ∧ cbReg 0xFE = 31 ∧ cbRam 0xFE = true) ∧
    (cbRead 0xBE = false ∧ cbOne 0xBE = true ∧ cbReg 0xBE = 31 ∧ cbRam 0xBE = false) ∧
    (cbRead 0x7E = false ∧ cbOne 0x7E = false) :=
  ⟨rfl, rfl, quiet_rested _, by decide, by decide, by decide, by decide, by decide⟩

theorem witness_WrregLeavesOtherMemory :
    (rested runningCk).busy = false ∧ atRest (rested runningCk) = true ∧ ChipQuiet (rested runningCk) (chipOf runningCk) ∧
    (chipOf runningCk).ram.wf = true ∧
    (cbRam 0xFC = true ∧ (chipOf runningCk).writeProtected = false ∧ cbOne 0xFC = true ∧ cbRead 0xFC = false) ∧
    cbRam 0x80 = false ∧ (chipOf protectedCk).writeProtected = true ∧ cbOne 0x7C = false ∧ cbRead 0xFD = true :=
  ⟨rfl, rfl, quiet_rested _, rfl, by decide, by decide, by decide, by decide, by decide⟩

theorem witness_SingleReadsReturnTheChipsByte :
    (rested runningCk).busy = false ∧ atRest (rested runningCk) = true ∧ ChipQuiet (rested runningCk) (chipOf runningCk) ∧
    cbOne 0x80 = true ∧ cbOne 0xFF = true ∧ cbOne 0x7F = false :=
  ⟨rfl, rfl, quiet_rested _, by decide, by decide, by decide⟩

theorem witness_BwriteCommitsTheRecordInTheChip :
    (rested runningCk).params = Config.params ∧ (rested runningCk).busy = false ∧ atRest (rested runningCk) = true ∧ ChipQuiet (rested runningCk) (chipOf runningCk) ∧
    (chipOf runningCk).writeProtected = false ∧ ChipQuiet (rested protectedCk) (chipOf protectedCk) ∧
    (chipOf protectedCk).writeProtected = true :=
  ⟨rfl, rfl, rfl, quiet_rested _, by decide, quiet_rested _, by decide⟩

theorem witness_BreadReadsTheChipsClock :
    (rested runningCk).params = Config.params ∧ (rested runningCk).busy = false ∧ atRest (rested runningCk) = true ∧ ChipQuiet (rested runningCk) (chipOf runningCk) :=
  ⟨rfl, rfl, rfl, quiet_rested _⟩

/-- Both clauses of the last hypothesis. -/
theorem witness_RecordRoundTrip :
    let s := { rested runningCk with record := ⟨0xFF, 0x7F, 0xBF, 0x3F, 0x1F, 0x07, 0xFF, 0x80⟩ }
    (s.record.haltFlag = true ∨ [#v[0x59, 0x59, 0x23, 0x31, 0x12, 0x07, 0x99]] = ([] : List (Vector Byte 7))) ∧
    (seedRecord.haltFlag = true ∨ ([] : List (Vector Byte 7)) = []) ∧
    s.params = Config.params ∧ s.busy = false ∧ atRest s = true ∧ ChipQuiet s (chipOf runningCk) ∧
      (chipOf runningCk).writeProtected = false ∧ ∀ k : Fin 8, s.record.get k &&& ~~~bankGet chipMask k.val = 0 :=
  ⟨by decide, by decide, rfl, rfl, rfl, ⟨rfl, rfl⟩, by decide, by decide⟩

theorem witness_RepeatedWriteChangesNothing :
    (rested runningCk).busy = false ∧ atRest (rested runningCk) = true ∧ ChipQuiet (rested runningCk) (chipOf runningCk) ∧
    cbRead 0x80 = false ∧ (chipOf runningCk).ram.wf = true :=
  ⟨rfl, rfl, quiet_rested _, by decide, rfl⟩

/-- Both cases: after reset, also with a chip that stands at the end of a burst write; and at rest. -/
theorem witness_InitTurnsProtectionAndChargerOff :
    let s := { State.reset with chip := some (chipOf protectedCk) }
    let burst : Chip := { chipOf runningCk with phase := .wdata, cmd := 0xBE, wbuf := [1, 2, 3, 4, 5, 6, 7, 8] }
    (s.params = Config.params ∧ s.busy = false ∧ s.chip = some (chipOf protectedCk) ∧
      s.pinDir = ⟨false, false, false⟩ ∧ s.pinOut = ⟨false, false, false⟩ ∧ (chipOf protectedCk).commits = false) ∧
    ({ State.reset with chip := some burst } : State).chip = some burst ∧ burst.commits = true ∧
    ((rested runningCk).params = Config.params ∧ (rested runningCk).busy = false ∧
      (rested runningCk).chip = some (chipOf runningCk) ∧ atRest (rested runningCk) = true ∧
      (chipOf runningCk).drive = none) :=
  ⟨⟨rfl, rfl, rfl, rfl, rfl, by decide⟩, rfl, by decide, rfl, rfl, rfl, rfl, rfl⟩

theorem witness_ChipKeepsItsRegistersOverReset :
    (restedWith runningCk [.rst]).busy = false ∧ (restedWith runningCk [.rst]).chip = some (chipOf runningCk) ∧
    (restedWith runningCk [.rst]).inbox = .rst :: [] ∧ (restedWith runningCk [.rst]).params = Config.params :=
  ⟨rfl, rfl, rfl, rfl⟩

theorem witness_WriteProtectRidesInTheBurst :
    let s := { rested runningCk with record := { seedRecord with wp := 0x80 } }
    s.params = Config.params ∧ s.busy = false ∧ atRest s = true ∧ ChipQuiet s (chipOf runningCk) ∧ (chipOf runningCk).writeProtected = false ∧
      s.record.wp.getLsbD 7 = true :=
  ⟨rfl, rfl, rfl, ⟨rfl, rfl⟩, by decide, by decide⟩

/-- HALT with the low bits 0x7F, a tick of the chip's time, RESUME. -/
def haltTickResume : List Input :=
  haltOscillator Config.params 0x7F ++ .chipTime #v[0x59, 0x59, 0x23, 0x31, 0x12, 0x07, 0x99] ::
    resumeOscillator Config.params

theorem witness_HaltStopsTheOscillatorAndResumeStartsIt :
    let s := restedWith runningCk haltTickResume
    s.busy = false ∧ atRest s = true ∧ ChipQuiet s (chipOf runningCk) ∧ (chipOf runningCk).writeProtected = false ∧
      s.inbox = haltTickResume :=
  ⟨rfl, rfl, ⟨rfl, rfl⟩, by decide, rfl⟩

/-- Each clause: a probe that answers zero and one that does not. -/
theorem witness_HeartbeatReadsTheRecordOnlyAtZero :
    let s := restedWith runningCk (heartbeat Config.params)
    let s' := restedWith #v[0x37, 0, 0, 0, 0, 0, 0, 0, 0] (heartbeat Config.params)
    (s.busy = false ∧ s.inbox = heartbeat s.params ∧ step s = .next (after (step s)) ∧ (after (step s)).rdata = 0x00) ∧
    (s'.busy = false ∧ s'.inbox = heartbeat s'.params ∧ step s' = .next (after (step s')) ∧
      (after (step s')).rdata ≠ 0x00) :=
  ⟨⟨rfl, rfl, rfl, by decide +kernel⟩, rfl, rfl, rfl, by decide +kernel⟩

/-- INIT after reset, WRREG and BREAD at rest. -/
theorem witness_NoContentionWithinTheContract :
    writeForms Config.params = true ∧
    (let s := { State.reset with chip := some (chipOf protectedCk) }
     s.busy = false ∧ s.chip = some (chipOf protectedCk) ∧ s.params = Config.params ∧ (opField 0x00000).toNat = 0 ∧
       s.pinDir = ⟨false, false, false⟩ ∧ s.pinOut = ⟨false, false, false⟩) ∧
    ((rested runningCk).busy = false ∧ (rested runningCk).chip = some (chipOf runningCk) ∧
      (rested runningCk).params = Config.params ∧ atRest (rested runningCk) = true ∧ (chipOf runningCk).drive = none) ∧
    ((opField 0x18080).toNat = 1 ∧ cbRead (addrField 0x18080) = false) ∧ (opField 0x50000).toNat = 5 :=
  ⟨by decide, ⟨rfl, rfl, rfl, by decide, rfl, rfl⟩, ⟨rfl, rfl, rfl, rfl, rfl⟩, by decide, by decide⟩

theorem witness_OddWriteAddressContends :
    (rested runningCk).busy = false ∧ atRest (rested runningCk) = true ∧ ChipQuiet (rested runningCk) (chipOf runningCk) ∧
    cbRead 0x81 = true ∧ cbOne 0x81 = true :=
  ⟨rfl, rfl, quiet_rested _, by decide, by decide⟩

/-- A block that meets the common hypotheses of the two statements about the contract: unmarked and on its list. -/
def onList (s : State) : Bool := s.breach == none && sequencerOk s

/-- Before INIT, with the inputs given. -/
def early (inbox : List Input) : State := { State.reset with inbox := inbox }

/-- A block in the last step of WRREG, with the inputs given. -/
def busyWith (inbox : List Input) : State := running 0b001 100 inbox

/-- Each clause, in order: the reserved code; INIT again; RDREG and BREAD, WRREG before INIT; WRREG 0x81; BWRITE with a byte
never written; a frame before INIT; the two reads of `RDATA`; a read of `REC`; the five inputs of a busy block. -/
theorem witness_ContractStepRefusesByName :
    (onList (restedWith runningCk [.call 0x70000]) = true ∧ (opField 0x70000).toNat = 7) ∧
    (onList (restedWith runningCk [.present 0x00000]) = true ∧ (opField 0x00000).toNat = 0 ∧
      (restedWith runningCk [.present 0x00000]).inited = true) ∧
    (onList (early [.call 0x18080]) = true ∧ (opField 0x18080).toNat = 1 ∧ (opField 0x50000).toNat = 5 ∧
      (early [.call 0x18080]).inited = false) ∧
    (onList (restedWith runningCk [.call 0x18100]) = true ∧ (opField 0x18100).toNat = 1 ∧
      (restedWith runningCk [.call 0x18100]).inited = true ∧ cbRead (addrField 0x18100) = true) ∧
    (let s := { restedWith runningCk [.call 0x40000] with recWritten := 0x7F }
     onList s = true ∧ (opField 0x40000).toNat = 4 ∧ s.inited = true ∧ s.recWritten ≠ 0xFF) ∧
    (onList (early [.frame 0xBE]) = true ∧ (early [.frame 0xBE]).inited = false) ∧
    (onList (early [.callIfRdata 0 0x50000]) = true ∧ onList (early [.readRdata]) = true ∧
      (early []).rdataWritten = false) ∧
    (onList (early [.readRec 7]) = true ∧ bitOf (early [.readRec 7]).recWritten 7 = false) ∧
    ([.present 0x60000, .writeRec 0 0, .readRec 0, .readRdata, .rst].all fun x => onList (busyWith [x])) = true ∧
    (busyWith []).busy = true := by decide +kernel

/-- Both clauses of the first part: what is within the contract for an idle block (INIT after reset, WRREG, BWRITE with the
record written, SAMPLE, the reads, `rst`) and a busy one, and what is not. -/
theorem witness_ContractStepRunsEverythingElse :
    ([.call 0x00000, .present 0x00000, .call 0x60000, .writeRec 0 0, .rst, .idle].all fun x =>
      onList (early [x]) && allowed (early [x])) = true ∧
    ([.call 0x18080, .present 0x40000, .call 0x5FFFF, .frame 0xBE, .frame 0x81, .readRec 7].all fun x =>
      onList (restedWith runningCk [x]) && allowed (restedWith runningCk [x])) = true ∧
    ([.call 0x18080, .callIfRdata 0 0x50000, .idle].all fun x => onList (busyWith [x]) && allowed (busyWith [x])) = true ∧
    ([.call 0x40000, .present 0x70000, .frame 0x80, .readRec 0, .readRdata].all fun x =>
      onList (early [x]) && !allowed (early [x])) = true ∧
    ([.present 0x60000, .rst].all fun x => onList (busyWith [x]) && !allowed (busyWith [x])) = true ∧
    (∃ t, step (running 0b001 100 [.idle]) = .next t ∧ InContract t) :=
  ⟨by decide +kernel, by decide +kernel, by decide +kernel, by decide +kernel, by decide +kernel,
    _, rfl, rfl⟩

end Sys2Proof.Tests
end

section
/-! PROOFS. What one step does to the parameters of the machine and to the contract mark (00_scope.md R5, R7). -/

namespace Sys2Proof.Machine

open Sys2Proof.Safety

/-! ### Instructions: parameters and mark -/

/-- What the run of an instruction on an idle block breaches, if anything. A frame by itself breaches what the operation
that sends it does (log entry 7). -/
def instrBreach (i : Instr) (s : State) : Option Breach :=
  match i with
  | .init a _ => breachOf 0b000 a s
  | .wrreg a _ => breachOf 0b001 a s
  | .rdreg a _ => breachOf 0b010 a s
  | .rd1 a _ => breachOf 0b011 a s
  | .bwrite a _ => breachOf 0b100 a s
  | .bread a _ => breachOf 0b101 a s
  | .sample a _ => breachOf 0b110 a s
  | .reserved a _ => breachOf 0b111 a s
  | .cbWpWrite => breachOf 0b001 s.params.cmdWp s
  | .cbTcsWrite => breachOf 0b001 s.params.cmdTcs s
  | .cbBurstWrite => breachOf 0b100 s.params.cmdBurst s
  | .cbSecWrite => breachOf 0b001 s.params.cmdSec s
  | .cbAnyWrite a => breachOf 0b001 (a ++ 0#1) s
  | .cbBurstRead => breachBeforeInit s
  | .cbSecRead => breachBeforeInit s
  | .cbAnyRead _ => breachBeforeInit s

@[simp] theorem perform_params (op : BitVec 3) (addr data : Byte) (es : List Entry) (s : State) :
    (perform op addr data es s).params = s.params := by simp [perform]

@[simp] theorem perform_breach (op : BitVec 3) (addr data : Byte) (es : List Entry) (s : State) :
    (perform op addr data es s).breach = s.breach.or (breachOf op addr s) := by simp [perform]

@[simp] theorem sendFrame_params (b : Option Breach) (es : List Entry) (s : State) :
    (sendFrame b es s).params = s.params := by simp [sendFrame]

@[simp] theorem sendFrame_breach (b : Option Breach) (es : List Entry) (s : State) :
    (sendFrame b es s).breach = s.breach.or b := by simp [sendFrame]

/-- Both outcomes of a command: run on an idle block, which marks `b`, or dropped by a busy one, which marks that. -/
theorem whenIdle_marks (f : State → State) (s : State) (b : Option Breach) (hp : (f s).params = s.params)
    (hm : (f s).breach = s.breach.or b) :
    ∃ t, whenIdle f s = .next t ∧ t.params = s.params ∧
      t.breach = s.breach.or (bif s.busy then some .commandWhileBusy else b) := by
  cases hb : s.busy
  · exact ⟨_, whenIdle_idle f s hb, hp, hm⟩
  · exact ⟨_, whenIdle_busy f s hb, rfl, rfl⟩

/-- Every instruction completes, keeps the parameters, and marks the run with its own breach and no other. -/
theorem exec_marks (i : Instr) (s : State) :
    ∃ t, exec i s = .next t ∧ t.params = s.params ∧
      t.breach = s.breach.or (bif s.busy then some .commandWhileBusy else instrBreach i s) := by
  cases i with
  | init | wrreg | rdreg | rd1 | bwrite | bread =>
    refine whenIdle_marks _ s _ ?_ ?_
    · exact perform_params ..
    · exact perform_breach ..
  | sample => exact whenIdle_marks (fun t => sampleButtons (accept _ _ _ _ t)) s _ rfl rfl
  | reserved => exact whenIdle_marks (accept _ _ _ _) s _ rfl rfl
  | cbBurstWrite =>
    exact whenIdle_marks (fun t => sendFrame _ (bwriteList t.params t.record) t) s _ (sendFrame_params ..)
      (sendFrame_breach ..)
  | cbWpWrite | cbTcsWrite | cbSecWrite | cbAnyWrite =>
    exact whenIdle_marks (writeFrame _ _) s _ (sendFrame_params ..) (sendFrame_breach ..)
  | cbBurstRead | cbSecRead | cbAnyRead =>
    exact whenIdle_marks (readFrame _ _) s _ (sendFrame_params ..) (sendFrame_breach ..)

theorem exec_params (i : Instr) (s t : State) (h : exec i s = .next t) : t.params = s.params := by
  obtain ⟨u, hu, hp, -⟩ := exec_marks i s
  obtain rfl : u = t := by simpa [hu] using h
  exact hp

/-! ### The sequencer and the input beside it -/

theorem sequencerStep_keeps (s t : State) (h : sequencerStep s = .next t) :
    t.params = s.params ∧ t.breach = s.breach := by
  unfold sequencerStep at h
  split at h
  · cases h
  · cases h; simp

theorem sequencerStep_next (s : State) (h : s.upc.toNat < (expansion s).length) : ∃ t, sequencerStep s = .next t := by
  simp [sequencerStep, List.getElem?_eq_getElem h]

/-- The input beside a step of the sequencer reaches the chip's time, the inbox and the mark, and nothing else. -/
theorem busyInput_cases (s : State) : ∃ c i b, busyInput s = mark b { s with chip := c, inbox := i } := by
  have unmarked (t : State) : t = mark none t := by simp [mark]
  cases hi : s.inbox with
  | nil => simp only [busyInput, hi]; exact ⟨s.chip, _, none, unmarked s⟩
  | cons x rest =>
    cases x with
    | call | callIfRdata | frame => simp only [busyInput, hi]; exact ⟨s.chip, _, none, unmarked s⟩
    | present | writeRec | readRec | readRdata => simp only [busyInput, hi]; exact ⟨s.chip, rest, _, rfl⟩
    | idle | rst => simp only [busyInput, hi]; exact ⟨s.chip, rest, none, unmarked _⟩
    | chipTime t => simp only [busyInput, hi]; exact ⟨s.chip.map (Chip.advance t), rest, none, unmarked _⟩

@[simp] theorem busyInput_params (s : State) : (busyInput s).params = s.params := by
  obtain ⟨c, i, b, h⟩ := busyInput_cases s
  rw [h, mark_params]

@[simp] theorem busyInput_busy (s : State) : (busyInput s).busy = s.busy := by
  obtain ⟨c, i, b, h⟩ := busyInput_cases s
  rw [h, mark_busy]

@[simp] theorem busyInput_upc (s : State) : (busyInput s).upc = s.upc := by
  obtain ⟨c, i, b, h⟩ := busyInput_cases s
  rw [h, mark_upc]

@[simp] theorem expansion_busyInput (s : State) : expansion (busyInput s) = expansion s := by
  obtain ⟨c, i, b, h⟩ := busyInput_cases s
  rw [h]; rfl

theorem busyStep_params (s t : State) (h : busyStep s = .next t) : t.params = s.params := by
  unfold busyStep at h
  cases hr : resetRequested s
  · rw [hr, cond_false] at h
    exact (sequencerStep_keeps _ _ h).1.trans (busyInput_params s)
  · obtain rfl : resetBlock (busyInput s) = t := by simpa [hr] using h
    exact busyInput_params s

/-! ### The input of an idle block -/

/-- The state from which what the input asks for is run, or which it already reached. -/
def Fetched.state (f : Fetched) : State :=
  match f with
  | .run _ t => t
  | .done t => t

theorem fetch_params (x : Input) (s : State) : (fetch x s).state.params = s.params := by
  cases x with
  | present w => simp only [fetch, presentWord]; split <;> rfl
  | callIfRdata v w => simp only [fetch, callIfRdata]; split <;> rfl
  | call | frame | writeRec | readRec | readRdata | idle | rst | chipTime => rfl

/-- A step of an idle block with an input: what the input asks for, run. -/
theorem step_idle_run (s t : State) (x : Input) (rest : List Input) (i : Instr) (hb : s.busy = false)
    (hi : s.inbox = x :: rest) (hf : fetch x { s with inbox := rest } = .run i t) : step s = exec i t := by
  simp only [step, hi, hf]
  rw [hb, cond_false]

theorem step_idle_done (s t : State) (x : Input) (rest : List Input) (hb : s.busy = false)
    (hi : s.inbox = x :: rest) (hf : fetch x { s with inbox := rest } = .done t) : step s = .next t := by
  simp only [step, hi, hf]
  rw [hb, cond_false]

theorem step_idle_params (s t : State) (hb : s.busy = false) (h : step s = .next t) : t.params = s.params := by
  cases hi : s.inbox with
  | nil =>
    obtain rfl : s = t := by simpa [step, hb, hi] using h
    rfl
  | cons x rest =>
    have hp := fetch_params x { s with inbox := rest }
    cases hf : fetch x { s with inbox := rest } with
    | run i u =>
      rw [hf] at hp
      rw [step_idle_run s u x rest i hb hi hf] at h
      exact (exec_params i u t h).trans hp
    | done u =>
      rw [hf] at hp
      obtain rfl : u = t := by simpa [step_idle_done s u x rest hb hi hf] using h
      exact hp

/-- Settles O31: a busy block's step and an idle block's keep the parameters, by the lemma of each. -/
theorem noStepChangesTheParameters : Obligations.NoStepChangesTheParameters := by
  intro s t h
  cases hb : s.busy
  · exact step_idle_params s t hb h
  · exact busyStep_params s t (by simpa [step, hb] using h)

/-! ### What acceptance breaches -/

theorem instrBreach_decodeCommand (w : CmdWord) (s : State) :
    instrBreach (decodeCommand w) s = breachOf (opField w) (addrField w) s := by
  rcases Laws.decodeCommand_cases w with h | h | h | h | h | h | h | h <;> rw [h.1, h.2] <;> rfl

@[simp] theorem breachBeforeInit_uninited (s : State) (h : s.inited = false) :
    breachBeforeInit s = some .linkBeforeInit := by simp [breachBeforeInit, h]

@[simp] theorem breachBeforeInit_inited (s : State) (h : s.inited = true) : breachBeforeInit s = none := by
  simp [breachBeforeInit, h]

theorem breachOf_reserved (op : BitVec 3) (addr : Byte) (s : State) (h : op.toNat = 7) :
    breachOf op addr s = some .reservedOperation := by simp [breachOf, h]

theorem breachOf_secondInit (op : BitVec 3) (addr : Byte) (s : State) (h : op.toNat = 0) (hi : s.inited = true) :
    breachOf op addr s = some .secondInit := by simp [breachOf, h, hi]

theorem breachOf_beforeInit (op : BitVec 3) (addr : Byte) (s : State) (h1 : 1 ≤ op.toNat) (h5 : op.toNat ≤ 5)
    (hi : s.inited = false) : breachOf op addr s = some .linkBeforeInit := by
  have h : op.toNat = 1 ∨ op.toNat = 2 ∨ op.toNat = 3 ∨ op.toNat = 4 ∨ op.toNat = 5 := by omega
  rcases h with h | h | h | h | h <;> simp [breachOf, h, hi]

theorem breachOf_oddWrite (op : BitVec 3) (addr : Byte) (s : State) (h : op.toNat = 1) (hi : s.inited = true)
    (ha : cbRead addr = true) : breachOf op addr s = some .oddWriteAddress := by
  have ha : addr[0] = true := by simpa [cbRead] using ha
  simp [breachOf, h, hi, ha]

theorem breachOf_unwrittenRecord (op : BitVec 3) (addr : Byte) (s : State) (h : op.toNat = 4) (hi : s.inited = true)
    (hw : s.recWritten ≠ 0xFF) : breachOf op addr s = some .unwrittenRecord := by
  have hw : (s.recWritten == 0xFF#8) = false := by simpa using hw
  simp [breachOf, h, hi, hw]

/-- Every command byte's frame before INIT is LINK traffic before INIT. -/
theorem instrBreach_decodeByte_beforeInit (b : Byte) (s : State) (hi : s.inited = false) :
    instrBreach (decodeByte b) s = some .linkBeforeInit := by
  have read : breachBeforeInit s = some .linkBeforeInit := breachBeforeInit_uninited s hi
  have write (c : Byte) : breachOf 0b001 c s = some .linkBeforeInit :=
    breachOf_beforeInit _ c s (by decide) (by decide) hi
  have burst (c : Byte) : breachOf 0b100 c s = some .linkBeforeInit :=
    breachOf_beforeInit _ c s (by decide) (by decide) hi
  unfold decodeByte
  split
  · exact write _
  · exact write _
  · exact burst s.params.cmdBurst
  · exact read
  · exact write _
  · exact read
  · cases b.getLsbD 0
    · exact write _
    · exact read

/-! ### Refusals of the contract step -/

/-- A step that marks the run is refused by the name of its mark. -/
theorem contractStep_marked (s t : State) (b : Breach) (h : step s = .next t) (hm : t.breach = some b) :
    contractStep s = .refused (.outOfContract b) := by
  simp [contractStep, h, hm]

/-- An input of an idle block that runs an instruction is refused by its own mark, or else by the instruction's. -/
theorem contractStep_run (s t : State) (x : Input) (rest : List Input) (i : Instr) (b : Breach) (hb : s.busy = false)
    (hi : s.inbox = x :: rest) (hf : fetch x { s with inbox := rest } = .run i t) (ht : t.busy = false)
    (hm : t.breach.or (instrBreach i t) = some b) : contractStep s = .refused (.outOfContract b) := by
  obtain ⟨u, hu, -, hbr⟩ := exec_marks i t
  rw [ht, cond_false, hm] at hbr
  exact contractStep_marked s u b ((step_idle_run s t x rest i hb hi hf).trans hu) hbr

theorem contractStep_done (s t : State) (x : Input) (rest : List Input) (b : Breach) (hb : s.busy = false)
    (hi : s.inbox = x :: rest) (hf : fetch x { s with inbox := rest } = .done t) (hm : t.breach = some b) :
    contractStep s = .refused (.outOfContract b) :=
  contractStep_marked s t b (step_idle_done s t x rest hb hi hf) hm

/-- A command word, called or presented to an idle block, is refused by the name of what its acceptance breaches. -/
theorem contractStep_word (s : State) (rest : List Input) (w : CmdWord) (b : Breach) (hs : s.breach = none)
    (hb : s.busy = false) (hi : s.inbox = .call w :: rest ∨ s.inbox = .present w :: rest)
    (hm : breachOf (opField w) (addrField w) s = some b) : contractStep s = .refused (.outOfContract b) := by
  have hor : s.breach.or (breachOf (opField w) (addrField w) s) = some b := by rw [hs, hm, Option.none_or]
  have hrun : s.breach.or (instrBreach (decodeCommand w) { s with inbox := rest }) = some b := by
    rw [instrBreach_decodeCommand]
    exact hor
  rcases hi with hi | hi
  · exact contractStep_run s _ _ rest _ b hb hi rfl hb hrun
  · by_cases hop : (opField w).toNat < 6
    · exact contractStep_done s _ _ rest b hb hi (if_pos hop) hor
    · exact contractStep_run s _ _ rest _ b hb hi (if_neg hop) hb hrun

theorem contractStep_frame_beforeInit (s : State) (rest : List Input) (c : Byte) (hs : s.breach = none)
    (hb : s.busy = false) (hi : s.inbox = .frame c :: rest) (hn : s.inited = false) :
    contractStep s = .refused (.outOfContract .linkBeforeInit) := by
  refine contractStep_run s _ _ rest _ _ hb hi rfl hb ?_
  simpa [hs] using instrBreach_decodeByte_beforeInit c { s with inbox := rest } hn

theorem readResult_breach_unwritten (s : State) (hs : s.breach = none) (hr : s.rdataWritten = false) :
    (readResult s).breach = some .unwrittenRdata := by simp [readResult_eq, hs, hr]

theorem contractStep_callIfRdata_unwritten (s : State) (rest : List Input) (v : Byte) (w : CmdWord)
    (hs : s.breach = none) (hb : s.busy = false) (hi : s.inbox = .callIfRdata v w :: rest)
    (hr : s.rdataWritten = false) : contractStep s = .refused (.outOfContract .unwrittenRdata) := by
  have hm := readResult_breach_unwritten { s with inbox := rest } hs hr
  by_cases hv : s.rdata = v
  · exact contractStep_run s _ _ rest _ _ hb hi (if_pos hv) hb (by rw [hm]; rfl)
  · exact contractStep_done s _ _ rest _ hb hi (if_neg hv) hm

/-- A busy block on its list whose coming input, other than `rst`, marks the run is refused by the name of that mark. -/
theorem contractStep_busy (s : State) (b : Breach) (hok : sequencerOk s = true) (hb : s.busy = true)
    (hr : resetRequested s = false) (hm : (busyInput s).breach = some b) :
    contractStep s = .refused (.outOfContract b) := by
  have hlt : (busyInput s).upc.toNat < (expansion (busyInput s)).length := by simpa [sequencerOk, hb] using hok
  obtain ⟨t, ht⟩ := sequencerStep_next _ hlt
  have hstep : step s = .next t := by simp [step, hb, busyStep, hr, ht]
  exact contractStep_marked s t b hstep ((sequencerStep_keeps _ t ht).2.trans hm)

/-- `rst` that cuts an operation short is refused (93_implementation_defined.md U13). -/
theorem contractStep_busy_rst (s : State) (rest : List Input) (hs : s.breach = none) (hb : s.busy = true)
    (hi : s.inbox = .rst :: rest) : contractStep s = .refused (.outOfContract .resetWhileBusy) := by
  have hstep : step s = .next (resetBlock { s with inbox := rest }) := by
    simp [step, hb, busyStep, resetRequested, busyInput, hi]
  exact contractStep_marked s _ _ hstep (by simp [hs, hb])

/-- Settles O52: each clause is the refusal by the mark that its input makes. -/
theorem contractStepRefusesByName : Obligations.ContractStepRefusesByName := by
  intro s rest hs hok
  refine ⟨fun hb w hi => ?_, fun hb c hi hn => contractStep_frame_beforeInit s rest c hs hb hi hn,
    fun hb hr => ⟨fun v w hi => contractStep_callIfRdata_unwritten s rest v w hs hb hi hr, fun hi => ?_⟩,
    fun hb k hi hk => ?_, fun hb => ?_⟩
  · have word {b : Breach} := contractStep_word s rest w b hs hb hi
    exact ⟨fun h => word (breachOf_reserved _ _ s h), fun h hn => word (breachOf_secondInit _ _ s h hn),
      fun h1 h5 hn => word (breachOf_beforeInit _ _ s h1 h5 hn),
      fun h hn ha => word (breachOf_oddWrite _ _ s h hn ha),
      fun h hn hw => word (breachOf_unwrittenRecord _ _ s h hn hw)⟩
  · exact contractStep_done s _ _ rest _ hb hi rfl (readResult_breach_unwritten _ hs hr)
  · exact contractStep_done s _ _ rest _ hb hi rfl (by simp [readRecord_eq, hs, hk])
  · have busy (b : Breach) := contractStep_busy s b hok hb
    exact ⟨fun w hi => busy _ (by simp [resetRequested, hi]) (by simp [busyInput, hi, hs]),
      fun k v hi => busy _ (by simp [resetRequested, hi]) (by simp [busyInput, hi, hs]),
      fun k hi => busy _ (by simp [resetRequested, hi]) (by simp [busyInput, hi, hs]),
      fun hi => busy _ (by simp [resetRequested, hi]) (by simp [busyInput, hi, hs]),
      contractStep_busy_rst s rest hs hb⟩

end Sys2Proof.Machine
end

section
/-! PROOFS. The list of steps an instruction runs, and what that list leaves on the pins and in the registers
(10_state.md R11, R14, R18, R20, R21, R22; 40_link_primitives.md R104). -/

namespace Sys2Proof.Machine

open Sys2Proof.Safety

/-! ### The list of an instruction -/

/-- The steps an instruction runs on an idle block: the expansion of its operation, or the frame its byte opens. -/
def instrList (i : Instr) (s : State) : List Entry :=
  match i with
  | .init _ _ => initList s.params
  | .wrreg a d => wrregList a d
  | .rdreg a _ => rdregList a
  | .rd1 a _ => rd1List a
  | .bwrite _ _ => bwriteList s.params s.record
  | .bread _ _ => breadList s.params
  | .sample _ _ => []
  | .reserved _ _ => []
  | .cbWpWrite => memWrite s.params.cmdWp [s.params.valWpOff] .none
  | .cbTcsWrite => memWrite s.params.cmdTcs [s.params.valTcsOff] .none
  | .cbBurstWrite => bwriteList s.params s.record
  | .cbBurstRead => breadList s.params
  | .cbSecWrite => memWrite s.params.cmdSec [s.data] .none
  | .cbSecRead => memRead (toReadAddress s.params.cmdSec) [.toRdata]
  | .cbAnyWrite a => memWrite (a ++ 0#1) [s.data] .none
  | .cbAnyRead a => memRead (a ++ 1#1) [.toRdata]

/-- The instruction is INIT. -/
def IsInit (i : Instr) : Prop := ∃ a d, i = .init a d

/-- The instruction reads one byte into `RDATA` (10_state.md R18). -/
def IsSingleRead (i : Instr) : Prop :=
  (∃ a d, i = .rdreg a d) ∨ (∃ a d, i = .rd1 a d) ∨ i = .cbSecRead ∨ ∃ a, i = .cbAnyRead a

/-- The instruction reads eight bytes into `REC` (10_state.md R14). -/
def IsBurstRead (i : Instr) : Prop := (∃ a d, i = .bread a d) ∨ i = .cbBurstRead

/-- What a list of an instruction can be: INIT's, one write frame, one read frame into the destination of the
instruction, or nothing. -/
inductive RunsList (p : Params) (i : Instr) : List Entry → Prop
  | init (hi : IsInit i) : RunsList p i (initList p)
  | write (c : Byte) (v : List Byte) : RunsList p i (memWrite c v .none)
  | singleRead (hi : IsSingleRead i) (c : Byte) : RunsList p i (memRead c [.toRdata])
  | burstRead (hi : IsBurstRead i) (c : Byte) : RunsList p i (memRead c (byteOrder.map .toRecord))
  | nothing : RunsList p i []

theorem runsList_instrList (i : Instr) (s : State) : RunsList s.params i (instrList i s) := by
  cases i with
  | init a d => exact .init ⟨a, d, rfl⟩
  | wrreg | bwrite | cbWpWrite | cbTcsWrite | cbBurstWrite | cbSecWrite | cbAnyWrite => exact .write _ _
  | rdreg a d => exact .singleRead (.inl ⟨a, d, rfl⟩) _
  | rd1 a d => exact .singleRead (.inr (.inl ⟨a, d, rfl⟩)) _
  | cbSecRead => exact .singleRead (.inr (.inr (.inl rfl))) _
  | cbAnyRead a => exact .singleRead (.inr (.inr (.inr ⟨a, rfl⟩))) _
  | bread a d => exact .burstRead (.inl ⟨a, d, rfl⟩) _
  | cbBurstRead => exact .burstRead (.inr rfl) _
  | sample | reserved => exact .nothing

/-- The steps an instruction runs; a busy block drops the word (10_state.md R19). -/
def stepsOf (i : Instr) (s : State) : List Entry := bif s.busy then [] else instrList i s

theorem stepsOf_idle (i : Instr) (s : State) (hb : s.busy = false) : stepsOf i s = instrList i s := by
  rw [stepsOf, hb, cond_false]

theorem runsList_stepsOf (i : Instr) (s : State) : RunsList s.params i (stepsOf i s) := by
  cases hb : s.busy
  · rw [stepsOf_idle i s hb]; exact runsList_instrList i s
  · rw [stepsOf, hb]; exact .nothing

/-! ### The list of the sequencer -/

/-- The list the sequencer is in is that of the instruction the latches hold (10_state.md R20). -/
theorem expansion_eq_instrList (s : State) :
    expansion s = instrList (decodeCommand (commandWord s.op s.addr s.data)) s := by
  have hw := Laws.decodeCommand_cases (commandWord s.op s.addr s.data)
  simp only [Laws.opField_commandWord, Laws.addrField_commandWord, Laws.dataField_commandWord] at hw
  rcases hw with h | h | h | h | h | h | h | h <;> rw [h.2, instrList, expansion, h.1] <;> rfl

/-- Acceptance puts the sequencer on the list of the accepted word. -/
theorem expansion_accept (w : CmdWord) (busy : Bool) (s : State) :
    expansion (accept (opField w) (addrField w) (dataField w) busy s) = instrList (decodeCommand w) s := by
  rw [expansion_eq_instrList, accept_op, accept_addr, accept_data, Laws.commandWord_fields]
  rcases Laws.decodeCommand_cases w with h | h | h | h | h | h | h | h <;> rw [h.2] <;> rfl

/-- Of the command words, INIT alone has operation code 0. -/
theorem not_isInit_decodeCommand (w : CmdWord) (h : opField w ≠ 0) : ¬ IsInit (decodeCommand w) := by
  rintro ⟨a, d, hi⟩
  rcases Laws.decodeCommand_cases w with hw | hw | hw | hw | hw | hw | hw | hw
  · exact h hw.1
  all_goals cases hw.2.symm.trans hi

/-- The lengths of the six lists (41_link_operations.md R126). -/
theorem length_expansion (s : State) (h : s.op.toNat < 6) :
    [208, 101, 92, 92, 437, 372][s.op.toNat]? = some (expansion s).length := by
  have hop : s.op.toNat = 0 ∨ s.op.toNat = 1 ∨ s.op.toNat = 2 ∨ s.op.toNat = 3 ∨ s.op.toNat = 4 ∨
      s.op.toNat = 5 := by omega
  rcases hop with h | h | h | h | h | h <;>
    simp [expansion, h, initList, wrregList, rdregList, rd1List, bwriteList, breadList, length_memWrite, length_memRead,
      Record.bytes, byteOrder]

/-- The list of a LINK operation is not empty. -/
theorem length_expansion_pos (s : State) (h : s.op.toNat < 6) : 0 < (expansion s).length := by
  have hpos : ∀ n ∈ [208, 101, 92, 92, 437, 372], 0 < n := by decide
  exact hpos _ (List.mem_of_getElem? (length_expansion s h))

/-- No list is longer than BWRITE's (41_link_operations.md R127). -/
theorem length_expansion_le (s : State) : (expansion s).length ≤ 437 := by
  by_cases h : s.op.toNat < 6
  · have hle : ∀ n ∈ [208, 101, 92, 92, 437, 372], n ≤ 437 := by decide
    exact hle _ (List.mem_of_getElem? (length_expansion s h))
  · have hlt := s.op.isLt
    have hop : s.op.toNat = 6 ∨ s.op.toNat = 7 := by omega
    rcases hop with h | h <;> simp [expansion, h]

/-! ### Transfers of the lists -/

/-- What holds of no transfer, of the clearing of `SHREG` and of its destinations holds of every step of a read frame. -/
theorem memRead_transfers (p : Transfer → Bool) (c : Byte) (xs : List Transfer) (hn : p .none = true)
    (hc : p .clearShreg = true) (hx : xs.all p = true) : (memRead c xs).all (fun e => p e.xfer) = true := by
  have byte (x : Transfer) : (in8 x).all (fun e => p e.xfer) = p x := by
    simp [in8_split, in8Front, inBit, hn, hc]
  have bit (i : Fin 8) : (outBit c true i).all (fun e => p e.xfer) = true := by
    cases h : i == 7 <;> simp [outBit, h, hn]
  rw [memRead, List.all_append, List.all_append, List.all_append, List.all_flatMap, out8, List.all_flatMap]
  simp [byte, bit, hx, startList, stopList, hn]

/-- What holds of no transfer and of the setting of `INITED` holds of every step of INIT's list. -/
theorem initList_transfers (p : Transfer → Bool) (ps : Params) (hn : p .none = true) (hi : p .setInited = true) :
    (initList ps).all (fun e => p e.xfer) = true := by
  have byte (b : Byte) : (out8 b false).all (fun e => p e.xfer) = true := by
    simp [out8_bits, outBit, hn]
  simp [initList, memWrite, startList, stopList, byte, hn, hi]

/-- The transfer writes no byte of `REC`. -/
def Transfer.sparesRecord (x : Transfer) : Bool :=
  match x with
  | .toRecord _ => false
  | _ => true

theorem keepsRecord_eq (es : List Entry) : keepsRecord es = es.all (fun e => e.xfer.sparesRecord) := rfl

section

variable {p : Params} {i : Instr} {es : List Entry}

theorem RunsList.keepsInited (h : RunsList p i es) (hi : ¬ IsInit i) : keepsInited es = true := by
  cases h with
  | init hi' => exact absurd hi' hi
  | write c v => exact keepsInited_of_noTransfer _ (noTransfer_memWrite c v)
  | singleRead _ c | burstRead _ c => exact memRead_transfers (· != .setInited) c _ rfl rfl rfl
  | nothing => rfl

theorem RunsList.keepsRdata (h : RunsList p i es) (hi : ¬ IsSingleRead i) : keepsRdata es = true := by
  cases h with
  | init => exact initList_transfers (· != .toRdata) _ rfl rfl
  | write c v => exact keepsRdata_of_noTransfer _ (noTransfer_memWrite c v)
  | singleRead hi' => exact absurd hi' hi
  | burstRead _ c => exact memRead_transfers (· != .toRdata) c _ rfl rfl rfl
  | nothing => rfl

theorem RunsList.keepsRecord (h : RunsList p i es) (hi : ¬ IsBurstRead i) : keepsRecord es = true := by
  cases h with
  | init => rw [keepsRecord_eq]; exact initList_transfers _ _ rfl rfl
  | write c v => exact keepsRecord_of_noTransfer _ (noTransfer_memWrite c v)
  | singleRead _ c => rw [keepsRecord_eq]; exact memRead_transfers _ c _ rfl rfl rfl
  | burstRead hi' => exact absurd hi' hi
  | nothing => rfl

/-! ### Pins after the lists -/

theorem dirAfter_initList (p : Params) (d : PinLatch) : dirAfter (initList p) d = ⟨true, true, true⟩ := by
  rw [initList, dirAfter_append, dirAfter_append, dirAfter_memWrite, dirAfter_memWrite]; rfl

theorem outAfter_initList (p : Params) (o : PinLatch) :
    outAfter (initList p) o = ⟨false, false, bitOf p.valTcsOff 7⟩ := by
  rw [initList, outAfter_append, outAfter_memWrite]; rfl

/-- A burst read frame is a read frame of at least one byte. -/
theorem burstRead_cons : byteOrder.map Transfer.toRecord = .toRecord 0 :: (byteOrder.tail.map .toRecord) := rfl

/-- INIT apart, no list writes the directions of CE and SCLK (10_state.md R11). -/
theorem RunsList.dirAfter_eq (h : RunsList p i es) (d : PinLatch) (hi : ¬ IsInit i) :
    (dirAfter es d).ce = d.ce ∧ (dirAfter es d).sclk = d.sclk := by
  cases h with
  | init hi' => exact absurd hi' hi
  | write => rw [dirAfter_memWrite]; exact ⟨rfl, rfl⟩
  | singleRead => rw [dirAfter_memRead]; exact ⟨rfl, rfl⟩
  | burstRead => rw [burstRead_cons, dirAfter_memRead]; exact ⟨rfl, rfl⟩
  | nothing => exact ⟨rfl, rfl⟩

/-- No list makes CE or SCLK an input. -/
theorem RunsList.dirAfter_output (h : RunsList p i es) (d : PinLatch) :
    (d.ce = true → (dirAfter es d).ce = true) ∧ (d.sclk = true → (dirAfter es d).sclk = true) := by
  cases h with
  | init => rw [dirAfter_initList]; exact ⟨fun _ => rfl, fun _ => rfl⟩
  | write => rw [dirAfter_memWrite]; exact ⟨id, id⟩
  | singleRead => rw [dirAfter_memRead]; exact ⟨id, id⟩
  | burstRead => rw [burstRead_cons, dirAfter_memRead]; exact ⟨id, id⟩
  | nothing => exact ⟨id, id⟩

/-- Every list leaves CE and SCLK low, from levels that are (40_link_primitives.md R104). -/
theorem RunsList.outAfter_low (h : RunsList p i es) (o : PinLatch) (hc : o.ce = false) (hs : o.sclk = false) :
    (outAfter es o).ce = false ∧ (outAfter es o).sclk = false := by
  cases h with
  | init => rw [outAfter_initList]; exact ⟨rfl, rfl⟩
  | write => rw [outAfter_memWrite]; exact ⟨rfl, rfl⟩
  | singleRead => rw [outAfter_memRead]; exact ⟨rfl, rfl⟩
  | burstRead => rw [burstRead_cons, outAfter_memRead]; exact ⟨rfl, rfl⟩
  | nothing => exact ⟨hc, hs⟩

theorem restPins_iff (d o : PinLatch) :
    restPins d o = true ↔ (d.ce = true ∧ d.sclk = true) ∧ o.ce = false ∧ o.sclk = false := by
  simp [restPins, and_assoc]

/-- Every list begun at rest ends at rest (40_link_primitives.md R104). -/
theorem RunsList.restPins (h : RunsList p i es) (d o : PinLatch) (hr : restPins d o = true) :
    restPins (dirAfter es d) (outAfter es o) = true := by
  obtain ⟨⟨hc, hs⟩, hoc, hos⟩ := (restPins_iff d o).1 hr
  obtain ⟨hce, hsclk⟩ := h.dirAfter_output d
  exact (restPins_iff _ _).2 ⟨⟨hce hc, hsclk hs⟩, h.outAfter_low o hoc hos⟩

end

/-- An instruction's list begun at rest ends at rest, and INIT's does from any pins. -/
theorem restPins_instrList (i : Instr) (s : State) (d o : PinLatch) (h : IsInit i ∨ restPins d o = true) :
    restPins (dirAfter (instrList i s) d) (outAfter (instrList i s) o) = true := by
  rcases h with ⟨a, b, rfl⟩ | hr
  · rw [instrList, dirAfter_initList, outAfter_initList]; rfl
  · exact (runsList_instrList i s).restPins d o hr

/-! ### The registers after an instruction -/

/-- Instruction `i` leaves the pins, `BUSY`, the registers that the transfers of an operation write, and, SAMPLE apart,
the buttons of `t` as they are in `u`. -/
structure LeavesAs (i : Instr) (t u : State) : Prop where
  pinDir : t.pinDir = u.pinDir
  pinOut : t.pinOut = u.pinOut
  record : t.record = u.record
  rdata : t.rdata = u.rdata
  inited : t.inited = u.inited
  busy : t.busy = u.busy
  buttons : (∀ a d, i ≠ .sample a d) → t.cur = u.cur ∧ t.prev = u.prev

theorem perform_leavesAs (i : Instr) (op : BitVec 3) (addr data : Byte) (es : List Entry) (s : State)
    (h : s.busy = false) :
    LeavesAs i (perform op addr data es s) (runEntries es (mark (breachOf op addr s) s)) := by
  rw [perform_eq]
  exact ⟨rfl, rfl, rfl, rfl, rfl, by rw [runEntries_busy, mark_busy, h]; rfl, fun _ => ⟨rfl, rfl⟩⟩

theorem sendFrame_leavesAs (i : Instr) (b : Option Breach) (es : List Entry) (s : State) :
    LeavesAs i (sendFrame b es s) (runEntries es (mark b s)) := ⟨rfl, rfl, rfl, rfl, rfl, rfl, fun _ => ⟨rfl, rfl⟩⟩

theorem whenIdle_leavesAs (f : State → State) (s t : State) (i : Instr) (b : Option Breach) (h : whenIdle f s = .next t)
    (hf : s.busy = false → LeavesAs i (f s) (runEntries (instrList i s) (mark b s))) :
    ∃ b, LeavesAs i t (runEntries (stepsOf i s) (mark b s)) := by
  cases hb : s.busy
  · obtain rfl : f s = t := by simpa [whenIdle_idle f s hb] using h
    exact ⟨b, stepsOf_idle i s hb ▸ hf hb⟩
  · obtain rfl : mark (some .commandWhileBusy) s = t := by simpa [whenIdle_busy f s hb] using h
    exact ⟨some .commandWhileBusy, by rw [stepsOf, hb]; exact sendFrame_leavesAs i _ [] s⟩

/-- An instruction leaves the pins and the registers as its list of steps does. -/
theorem exec_leavesAs (i : Instr) (s t : State) (h : exec i s = .next t) :
    ∃ b, LeavesAs i t (runEntries (stepsOf i s) (mark b s)) := by
  cases i with
  | init | wrreg | rdreg | rd1 | bwrite | bread =>
    exact whenIdle_leavesAs _ s t _ _ h (perform_leavesAs _ _ _ _ _ s)
  | sample a d =>
    exact whenIdle_leavesAs (fun u => sampleButtons (accept _ _ _ _ u)) s t (.sample a d) none h
      fun hb => ⟨rfl, rfl, rfl, rfl, rfl, hb.symm, fun hi => absurd rfl (hi a d)⟩
  | reserved a d =>
    exact whenIdle_leavesAs (accept _ _ _ _) s t (.reserved a d) none h
      fun hb => ⟨rfl, rfl, rfl, rfl, rfl, hb.symm, fun _ => ⟨rfl, rfl⟩⟩
  | cbBurstWrite =>
    exact whenIdle_leavesAs (fun u => sendFrame _ (bwriteList u.params u.record) u) s t .cbBurstWrite _ h
      fun _ => sendFrame_leavesAs ..
  | cbWpWrite | cbTcsWrite | cbSecWrite | cbAnyWrite =>
    exact whenIdle_leavesAs (writeFrame _ _) s t _ _ h fun _ => sendFrame_leavesAs ..
  | cbBurstRead | cbSecRead | cbAnyRead =>
    exact whenIdle_leavesAs (readFrame _ _) s t _ _ h fun _ => sendFrame_leavesAs ..

/-- Settles O29: INIT's list apart, no list writes `INITED` or the directions of CE and SCLK. -/
theorem onlyInitSetsInitedAndTurnsTheLines : Obligations.OnlyInitSetsInitedAndTurnsTheLines := by
  intro i s t h
  obtain ⟨b, ht⟩ := exec_leavesAs i s t h
  have hlist := runsList_stepsOf i s
  rw [ht.inited, ht.pinDir, runEntries_pinDir, mark_pinDir]
  refine ⟨fun hn => ?_, runEntries_inited_mono (stepsOf i s) (mark b s), hlist.dirAfter_output s.pinDir⟩
  have hi : ¬ IsInit i := fun ⟨a, d, e⟩ => hn a d e
  rw [runEntries_inited _ _ (hlist.keepsInited hi), mark_inited]
  exact ⟨rfl, hlist.dirAfter_eq s.pinDir hi⟩

/-- Settles O30: a list writes `REC` in a burst read only and `RDATA` in a single read only, and SAMPLE alone the buttons. -/
theorem whoWritesTheDataRegisters : Obligations.WhoWritesTheDataRegisters := by
  intro i s t h
  obtain ⟨b, ht⟩ := exec_leavesAs i s t h
  have hlist := runsList_stepsOf i s
  refine ⟨fun hb hc => ?_, fun h1 h2 h3 h4 => ?_, fun hi => ?_⟩
  · have hi : ¬ IsBurstRead i := by
      rintro (⟨a, d, e⟩ | e)
      exacts [hb a d e, hc e]
    rw [ht.record, (runEntries_record _ _ (hlist.keepsRecord hi)).1, mark_record]
  · have hi : ¬ IsSingleRead i := by
      rintro (⟨a, d, e⟩ | ⟨a, d, e⟩ | e | ⟨a, e⟩)
      exacts [h1 a d e, h2 a d e, h3 e, h4 a e]
    rw [ht.rdata, (runEntries_rdata _ _ (hlist.keepsRdata hi)).1, mark_rdata]
  · obtain ⟨hc, hp⟩ := ht.buttons hi
    rw [runEntries_cur, mark_cur] at hc
    rw [runEntries_prev, mark_prev] at hp
    exact ⟨hc, hp, by rw [press, press, hc, hp], by rw [release, release, hc, hp]⟩

end Sys2Proof.Machine
end

section
/-! PROOFS. The sequencer stays on its list, and the pins return to rest (10_state.md R20; 40_link_primitives.md R104). -/

namespace Sys2Proof.Machine

open Sys2Proof.Safety

/-! ### The two invariants, idle and busy -/

theorem sequencerOk_idle (s : State) (hb : s.busy = false) : sequencerOk s = true := by
  simp [sequencerOk, hb]

theorem sequencerOk_busy (s : State) (hb : s.busy = true) :
    sequencerOk s = true ↔ s.upc.toNat < (expansion s).length := by
  simp [sequencerOk, hb]

theorem restOk_idle (s : State) (hb : s.busy = false) : restOk s = true ↔ (s.inited = true → atRest s = true) := by
  cases hi : s.inited <;> simp [restOk, hb, hi]

/-- Where a busy block owes the rest state: initialised, or in INIT. -/
theorem restOk_busy (s : State) (hb : s.busy = true) :
    restOk s = true ↔ (s.inited = true ∨ s.op = 0 →
      restPins (dirAfter (remaining s) s.pinDir) (outAfter (remaining s) s.pinOut) = true) := by
  cases hi : s.inited <;> simp [restOk, hb, hi, imp_iff_not_or]

/-! ### An idle block -/

/-- An instruction run on an idle block leaves it idle, and at rest if it is then initialised. -/
theorem exec_keeps_rest (i : Instr) (s t : State) (hb : s.busy = false) (hr : s.inited = true → atRest s = true)
    (h : exec i s = .next t) : t.busy = false ∧ (t.inited = true → atRest t = true) := by
  obtain ⟨b, ht⟩ := exec_leavesAs i s t h
  rw [stepsOf_idle i s hb] at ht
  refine ⟨by rw [ht.busy, runEntries_busy, mark_busy, hb], fun hti => ?_⟩
  have hstart : IsInit i ∨ restPins s.pinDir s.pinOut = true := by
    by_cases hi : IsInit i
    · exact .inl hi
    · rw [ht.inited, runEntries_inited _ _ ((runsList_instrList i s).keepsInited hi)] at hti
      exact .inr (hr hti)
  rw [atRest, ht.pinDir, ht.pinOut, runEntries_pinDir, runEntries_pinOut]
  exact restPins_instrList i s s.pinDir s.pinOut hstart

/-- What an instruction is run on differs from the state with the input taken by a mark at most. -/
theorem fetch_run (x : Input) (s t : State) (i : Instr) (h : fetch x s = .run i t) : ∃ b, t = mark b s := by
  have unmarked : s = mark none s := by simp [mark]
  cases x with
  | call w => cases h; exact ⟨none, unmarked⟩
  | frame w => cases h; exact ⟨none, unmarked⟩
  | present w =>
    simp only [fetch, presentWord] at h
    split at h
    · cases h
    · cases h; exact ⟨none, unmarked⟩
  | callIfRdata v w =>
    simp only [fetch, callIfRdata] at h
    split at h
    · cases h; exact ⟨_, rfl⟩
    · cases h
  | writeRec | readRec | readRdata | idle | rst | chipTime => cases h

/-- An accepted word is at the head of its list, whose end is the rest state (10_state.md R19). -/
theorem accept_keeps (w : CmdWord) (s : State) (hop : (opField w).toNat < 6)
    (hr : s.inited = true → atRest s = true) :
    sequencerOk (accept (opField w) (addrField w) (dataField w) true s) = true ∧
      restOk (accept (opField w) (addrField w) (dataField w) true s) = true := by
  refine ⟨(sequencerOk_busy _ rfl).2 (length_expansion_pos _ hop), (restOk_busy _ rfl).2 fun h => ?_⟩
  have hstart : IsInit (decodeCommand w) ∨ restPins s.pinDir s.pinOut = true := by
    rcases h with hi | h0
    · exact .inr (hr hi)
    · rw [accept_op] at h0
      exact .inl ⟨_, _, by rw [decodeCommand, h0]; rfl⟩
  rw [remaining, expansion_accept]
  exact restPins_instrList _ s s.pinDir s.pinOut hstart

/-- What an idle block reaches by an input that runs no instruction. -/
theorem fetch_done_keeps (x : Input) (s t : State) (hb : s.busy = false) (hr : s.inited = true → atRest s = true)
    (h : fetch x s = .done t) : sequencerOk t = true ∧ restOk t = true := by
  have idle (u : State) (hu : u.busy = false) (hru : u.inited = true → atRest u = true) :
      sequencerOk u = true ∧ restOk u = true := ⟨sequencerOk_idle u hu, (restOk_idle u hu).2 hru⟩
  cases x with
  | call w => cases h
  | frame b => cases h
  | present w =>
    simp only [fetch, presentWord] at h
    split at h
    · next hop => cases h; exact accept_keeps w s hop hr
    · cases h
  | callIfRdata v w =>
    simp only [fetch, callIfRdata] at h
    split at h
    · cases h
    · cases h; exact idle _ hb hr
  | rst => cases h; exact idle _ rfl fun hi => absurd hi (by simp [State.reset])
  | writeRec | readRec | readRdata | idle | chipTime => cases h; exact idle _ hb hr

theorem step_idle_keeps (s t : State) (hb : s.busy = false) (hr : s.inited = true → atRest s = true)
    (h : step s = .next t) : sequencerOk t = true ∧ restOk t = true := by
  cases hi : s.inbox with
  | nil =>
    obtain rfl : s = t := by simpa [step, hb, hi] using h
    exact ⟨sequencerOk_idle s hb, (restOk_idle s hb).2 hr⟩
  | cons x rest =>
    cases hf : fetch x { s with inbox := rest } with
    | run i u =>
      rw [step_idle_run s u x rest i hb hi hf] at h
      obtain ⟨b, rfl⟩ := fetch_run x _ u i hf
      obtain ⟨htb, htr⟩ := exec_keeps_rest i (mark b { s with inbox := rest }) t hb hr h
      exact ⟨sequencerOk_idle t htb, (restOk_idle t htb).2 htr⟩
    | done u =>
      obtain rfl : u = t := by simpa [step_idle_done s u x rest hb hi hf] using h
      exact fetch_done_keeps x { s with inbox := rest } u hb hr hf

/-! ### A busy block -/

/-- The state after entry `e`, the one at `UPC`: its step, with the latches of position beside it (10_state.md R20). -/
def afterEntry (e : Entry) (s : State) : State :=
  (e.exec s).withLatches s.op s.addr s.data (nextUpc s.upc) (decide (s.upc.toNat + 1 < (expansion s).length))

theorem sequencerStep_eq (s : State) (e : Entry) (he : (expansion s)[s.upc.toNat]? = some e) :
    sequencerStep s = .next (afterEntry e s) := by
  simp only [sequencerStep, he]
  congr 1
  obtain ⟨m, x⟩ := e; cases x <;> rfl

theorem expansion_afterEntry (s : State) (e : Entry) (he : (expansion s)[s.upc.toNat]? = some e) :
    expansion (afterEntry e s) = expansion s :=
  expansion_step_withLatches s e (List.mem_of_getElem? he) _ _

/-- INIT apart, no entry of the sequencer's list writes `INITED`. -/
theorem entryExec_inited (s : State) (e : Entry) (he : (expansion s)[s.upc.toNat]? = some e) (ho : s.op ≠ 0) :
    (e.exec s).inited = s.inited := by
  have hk : keepsInited (expansion s) = true := by
    rw [expansion_eq_instrList]
    exact (runsList_instrList _ s).keepsInited (not_isInit_decodeCommand _ (by rwa [Laws.opField_commandWord]))
  exact runEntries_inited [e] s (by simpa [keepsInited] using List.all_eq_true.1 hk e (List.mem_of_getElem? he))

/-- The entry at `UPC` is the first of those still to take. -/
theorem remaining_eq_cons (s : State) (e : Entry) (he : (expansion s)[s.upc.toNat]? = some e) :
    remaining s = e :: (expansion s).drop (s.upc.toNat + 1) := by
  obtain ⟨hlt, rfl⟩ := List.getElem?_eq_some_iff.1 he
  exact List.drop_eq_getElem_cons hlt

/-- After the entry at `UPC`, the rest of the list still ends at rest. -/
theorem rest_afterEntry (s : State) (e : Entry) (hb : s.busy = true) (hr : restOk s = true)
    (he : (expansion s)[s.upc.toNat]? = some e) (hi : (afterEntry e s).inited = true ∨ s.op = 0) :
    restPins (dirAfter ((expansion s).drop (s.upc.toNat + 1)) (afterEntry e s).pinDir)
      (outAfter ((expansion s).drop (s.upc.toNat + 1)) (afterEntry e s).pinOut) = true := by
  have hstart : s.inited = true ∨ s.op = 0 := by
    by_cases ho : s.op = 0
    · exact .inr ho
    · exact .inl ((entryExec_inited s e he ho).symm.trans (hi.resolve_right ho))
  have hend := (restOk_busy s hb).1 hr hstart
  rw [remaining_eq_cons s e he] at hend
  have hdir : (afterEntry e s).pinDir = e.op.dirAfter s.pinDir := entryExec_pinDir e s
  have hout : (afterEntry e s).pinOut = e.op.outAfter s.pinOut := entryExec_pinOut e s
  rw [hdir, hout]
  exact hend

theorem sequencerStep_keeps_rest (s t : State) (hb : s.busy = true) (hok : sequencerOk s = true)
    (hr : restOk s = true) (h : sequencerStep s = .next t) : sequencerOk t = true ∧ restOk t = true := by
  have hlt := (sequencerOk_busy s hb).1 hok
  obtain ⟨e, he⟩ : ∃ e, (expansion s)[s.upc.toNat]? = some e := ⟨_, List.getElem?_eq_getElem hlt⟩
  obtain rfl : afterEntry e s = t := Host.Outcome.next.inj ((sequencerStep_eq s e he).symm.trans h)
  have hrest := rest_afterEntry s e hb hr he
  have hx := expansion_afterEntry s e he
  by_cases hmore : s.upc.toNat + 1 < (expansion s).length
  · have hupc : (afterEntry e s).upc.toNat = s.upc.toNat + 1 := by
      have hle := length_expansion_le s
      have hnext : (afterEntry e s).upc.toNat = min (s.upc.toNat + 1) 436 := nextUpc_toNat s.upc
      omega
    have hbusy : (afterEntry e s).busy = true := decide_eq_true hmore
    refine ⟨(sequencerOk_busy _ hbusy).2 ?_, (restOk_busy _ hbusy).2 ?_⟩
    · rwa [hx, hupc]
    · rwa [remaining, hx, hupc]
  · have hidle : (afterEntry e s).busy = false := decide_eq_false hmore
    rw [List.drop_eq_nil_of_le (by omega)] at hrest
    exact ⟨sequencerOk_idle _ hidle, (restOk_idle _ hidle).2 fun hi => hrest (.inl hi)⟩

@[simp] theorem sequencerOk_busyInput (s : State) : sequencerOk (busyInput s) = sequencerOk s := by
  obtain ⟨c, i, b, h⟩ := busyInput_cases s
  rw [h]; rfl

@[simp] theorem restOk_busyInput (s : State) : restOk (busyInput s) = restOk s := by
  obtain ⟨c, i, b, h⟩ := busyInput_cases s
  rw [h]; rfl

theorem busyStep_keeps (s t : State) (hb : s.busy = true) (hok : sequencerOk s = true) (hr : restOk s = true)
    (h : busyStep s = .next t) : sequencerOk t = true ∧ restOk t = true := by
  unfold busyStep at h
  cases hq : resetRequested s
  · rw [hq, cond_false] at h
    exact sequencerStep_keeps_rest (busyInput s) t (by simpa using hb) (by simpa using hok) (by simpa using hr) h
  · obtain rfl : resetBlock (busyInput s) = t := by simpa [hq] using h
    exact ⟨sequencerOk_idle _ rfl, (restOk_idle _ rfl).2 fun hi => absurd hi (by simp [State.reset])⟩

/-- Settles O33: a busy block's step and an idle block's keep both invariants, by the lemma of each. -/
theorem stepKeepsSequencerAndRest : Obligations.StepKeepsSequencerAndRest := by
  intro s t hok hr h
  cases hb : s.busy
  · exact step_idle_keeps s t hb ((restOk_idle s hb).1 hr) h
  · exact busyStep_keeps s t hb hok hr (by simpa [step, hb] using h)

/-- Settles O32: after reset the block is idle and not initialised, and there is no chip. -/
theorem invariantsHoldAtReset : Obligations.InvariantsHoldAtReset :=
  ⟨sequencerOk_idle _ rfl, (restOk_idle _ rfl).2 fun hi => absurd hi (by decide), rfl, rfl⟩

end Sys2Proof.Machine
end

section
/-! PROOFS. The step of the machine: the instruction it runs, the sequencer's entry, presenting against calling, and the
inputs of a busy block (10_state.md R19, R20, R24, R26). -/

namespace Sys2Proof.Machine

open Sys2Proof.Safety

/-! ### An input that runs an instruction, and the sequencer's entry -/

/-- The bits of an instruction are brought to the block by one input, which asks for that instruction and nothing else. -/
theorem inputOfTableWord_runs (nbits w : Nat) (i : Instr) (h : decodeTableWord nbits w = some i) :
    ∃ x, inputOfTableWord nbits w = [x] ∧ ∀ u, fetch x u = .run i u := by
  cases hc : codeOfBytes (layOut nbits w) with
  | error e => simp [decodeTableWord, decodeBytes, hc] at h
  | ok c =>
    obtain rfl : decode c = i := by simpa [decodeTableWord, decodeBytes, hc] using h
    cases c with
    | command c => exact ⟨.call c, by simp [inputOfTableWord, hc], fun _ => rfl⟩
    | wire b => exact ⟨.frame b, by simp [inputOfTableWord, hc], fun _ => rfl⟩

theorem step_withFetchWord (s : State) (nbits w : Nat) (i : Instr) (h : decodeTableWord nbits w = some i) :
    step (s.withFetchWord nbits w) = exec i { s with busy := false } := by
  obtain ⟨x, hx, hrun⟩ := inputOfTableWord_runs nbits w i h
  exact step_idle_run (s.withFetchWord nbits w) _ x s.inbox i rfl (by rw [State.withFetchWord, hx]; rfl) (hrun _)

/-- Settles O5: the input of each clause asks for the decoded instruction. -/
theorem stepRunsTheDecodedInstruction : Obligations.StepRunsTheDecodedInstruction :=
  ⟨fun s w rest hb hi => step_idle_run s _ (.call w) rest _ hb hi rfl,
    fun s b rest hb hi => step_idle_run s _ (.frame b) rest _ hb hi rfl, step_withFetchWord⟩

/-- A busy block steps its sequencer, with the input of the cycle taken, unless that is `rst`. -/
theorem step_busy_sequencer (s : State) (hb : s.busy = true) (hr : resetRequested s = false) :
    step s = sequencerStep (busyInput s) := by
  rw [step, hb, cond_true, busyStep, hr, cond_false]

/-- Settles O6: the sequencer's step on the entry at `UPC`. -/
theorem sequencerRunsTheEntryAtUpc : Obligations.SequencerRunsTheEntryAtUpc := by
  intro s e hb hi he
  have hin : busyInput s = s := by simp only [busyInput, hi]
  rw [step_busy_sequencer s hb (by simp only [resetRequested, hi]), hin, sequencerStep, he]

/-! ### The inputs of a busy block -/

/-- The mark of the contract does not matter to the steps. -/
theorem entryExec_mark (e : Entry) (b : Option Breach) (s : State) : e.exec (mark b s) = mark b (e.exec s) := by
  obtain ⟨m, x⟩ := e; cases m <;> cases x <;> rfl

theorem sequencerStep_mark (b : Option Breach) (s t : State) (h : sequencerStep s = .next t) :
    sequencerStep (mark b s) = .next (mark b t) := by
  have hx : expansion (mark b s) = expansion s := expansion_inbox s s.inbox b
  simp only [sequencerStep, hx, mark_upc]
  unfold sequencerStep at h
  split at h
  · cases h
  · cases h; rw [entryExec_mark]; rfl

/-- An input that a busy block drops is a cycle without one, but for the mark of the contract (10_state.md R19, R26). -/
theorem step_busy_dropped (s t : State) (x : Input) (rest : List Input) (b : Breach) (hb : s.busy = true)
    (hx : busyInput { s with inbox := x :: rest } = mark (some b) { s with inbox := rest })
    (hr : resetRequested { s with inbox := x :: rest } = false)
    (h : step { s with inbox := .idle :: rest } = .next t) :
    step { s with inbox := x :: rest } = .next { t with breach := s.breach.or (some b) } := by
  have hidle : sequencerStep { s with inbox := rest } = .next t :=
    (step_busy_sequencer { s with inbox := .idle :: rest } hb rfl).symm.trans h
  have hbr : t.breach = s.breach := (sequencerStep_keeps _ t hidle).2
  calc step { s with inbox := x :: rest }
      = sequencerStep (mark (some b) { s with inbox := rest }) :=
        (step_busy_sequencer { s with inbox := x :: rest } hb hr).trans (congrArg sequencerStep hx)
    _ = .next (mark (some b) t) := sequencerStep_mark _ _ t hidle
    _ = .next { t with breach := s.breach.or (some b) } := by rw [mark, hbr]

/-- Settles O9: a presented word is an input that a busy block drops. -/
theorem busyBlockIgnoresACommandWord : Obligations.BusyBlockIgnoresACommandWord :=
  fun s t w rest hb h => step_busy_dropped s t (.present w) rest _ hb rfl rfl h

/-! ### The record port -/

@[simp] theorem record_get_set_same (r : Record) (k : Fin 8) (v : Byte) : (r.set k v).get k = v := by
  fin_cases k <;> rfl

theorem record_get_set_ne (r : Record) (j k : Fin 8) (v : Byte) (h : j ≠ k) : (r.set k v).get j = r.get j := by
  fin_cases k <;> fin_cases j <;> simp_all [Record.get, Record.set]

/-- Settles O10: a write reaches an idle block's record, and is an input that a busy block drops. -/
theorem recordPortWritesOnlyWhenIdle : Obligations.RecordPortWritesOnlyWhenIdle := by
  refine ⟨fun s k v rest hb hi => ?_, fun s t k v rest hb h => step_busy_dropped s t (.writeRec k v) rest _ hb rfl rfl h⟩
  exact ⟨_, step_idle_done s _ _ rest hb hi rfl, record_get_set_same .., fun j hj => record_get_set_ne _ j k v hj, rfl⟩

/-- Settles O11: a host read is a mark and nothing else, and is an input that a busy block drops. -/
theorem hostReadsChangeNothing : Obligations.HostReadsChangeNothing := by
  refine ⟨fun s k rest hb hi => ?_, fun s rest hb hi => ?_, fun s t k rest hb h => ⟨?_, ?_⟩⟩
  · refine ⟨_, (step_idle_done s _ _ rest hb hi rfl).trans (congrArg _ (readRecord_eq k _)), ?_, ?_⟩ <;>
      · intro hw; simp [hw]
  · refine ⟨_, (step_idle_done s _ _ rest hb hi rfl).trans (congrArg _ (readResult_eq _)), ?_, ?_⟩ <;>
      · intro hw; simp [hw]
  · exact step_busy_dropped s t (.readRec k) rest _ hb rfl rfl h
  · exact step_busy_dropped s t .readRdata rest _ hb rfl rfl h

/-! ### Presenting a word and calling it -/

/-- A called LINK word performs the list that its acceptance puts the sequencer on. -/
theorem exec_link (w : CmdWord) (s : State) (hb : s.busy = false) (h : (opField w).toNat < 6) :
    exec (decodeCommand w) s =
      .next (perform (opField w) (addrField w) (dataField w)
        (expansion (accept (opField w) (addrField w) (dataField w) true s)) s) := by
  rw [expansion_accept]
  rcases Laws.decodeCommand_cases w with hw | hw | hw | hw | hw | hw | hw | hw
  iterate 6
    · rw [hw.1, hw.2]
      exact whenIdle_idle (perform _ _ _ _) s hb
  all_goals exact absurd h (by rw [hw.1]; decide)

/-- SAMPLE and the reserved code latch the word and complete in the step that accepts them (10_state.md R19). -/
theorem exec_immediate (w : CmdWord) (s : State) (hb : s.busy = false) (h : 6 ≤ (opField w).toNat) :
    ∃ t, exec (decodeCommand w) s = .next t ∧ t.busy = false ∧ t.op = opField w ∧ t.addr = addrField w ∧
      t.data = dataField w ∧ t.upc = 0 := by
  rcases Laws.decodeCommand_cases w with hw | hw | hw | hw | hw | hw | hw | hw
  iterate 6
    · exact absurd h (by rw [hw.1]; decide)
  · rw [hw.1, hw.2]
    exact ⟨_, whenIdle_idle (fun u => sampleButtons (accept _ _ _ _ u)) s hb, rfl, rfl, rfl, rfl, rfl⟩
  · rw [hw.1, hw.2]
    exact ⟨_, whenIdle_idle (accept _ _ _ _) s hb, rfl, rfl, rfl, rfl, rfl⟩

/-- An accepted word runs its list to the end, one entry a step, to the state of the operation run whole. -/
theorem run_accepted (w : CmdWord) (s : State) (hi : s.inbox = []) (h : (opField w).toNat < 6) :
    Host.Core.run Sys2Proof.core (expansion (accept (opField w) (addrField w) (dataField w) true s)).length
        (accept (opField w) (addrField w) (dataField w) true s) =
      .next (perform (opField w) (addrField w) (dataField w)
        (expansion (accept (opField w) (addrField w) (dataField w) true s)) s) :=
  run_rest _ 0 _ rfl hi List.drop_zero rfl (Nat.zero_add _) (length_expansion_le _)
    (List.length_pos_iff.1 (length_expansion_pos _ h))

/-- Settles O8: an accepted word's run is the call, and SAMPLE and the reserved code are the call at once. -/
theorem presentAndStepIsCall : Obligations.PresentAndStepIsCall := by
  intro s w hb
  have hcall := step_idle_run { s with inbox := [.call w] } { s with inbox := [] } (.call w) [] _ hb rfl rfl
  refine ⟨fun hop => ?_, fun hop => ?_⟩
  · have haccept := step_idle_done { s with inbox := [.present w] } _ (.present w) [] hb rfl (if_pos hop)
    have hrun := run_accepted w { s with inbox := [] } rfl hop
    exact ⟨_, length_expansion (accept _ _ _ true { s with inbox := [] }) hop,
      ((core_run_of_step _ _ _ haccept).trans hrun).trans (hcall.trans (exec_link w _ hb hop)).symm⟩
  · have hpresent := step_idle_run { s with inbox := [.present w] } { s with inbox := [] } (.present w) [] _ hb rfl
      (if_neg (by omega))
    obtain ⟨t, ht, hlatches⟩ := exec_immediate w { s with inbox := [] } hb hop
    exact ⟨hpresent.trans hcall.symm, t, hpresent.trans ht, hlatches⟩

end Sys2Proof.Machine
end

section
/-! PROOFS. Reading a line that nothing but the environment drives (10_state.md R13, R25; 40_link_primitives.md R103). -/

namespace Sys2Proof.Machine

open Sys2Proof.Safety

/-! ### The environment's levels over a list -/

/-- Without a chip on the lines there is none after a list of steps. -/
theorem runEntries_noChip (es : List Entry) (s : State) (h : s.chip = none) : (runEntries es s).chip = none := by
  induction es generalizing s with
  | nil => exact h
  | cons e rest ih => exact ih _ (by rw [entryExec_chip, microExec_chip, h]; rfl)

/-- A list that reads no line uses up no level of the environment. -/
theorem runEntries_ioIn (es : List Entry) (s : State) (h : getCount es = 0) : (runEntries es s).ioIn = s.ioIn := by
  induction es generalizing s with
  | nil => rfl
  | cons e rest ih =>
    obtain ⟨m, x⟩ := e
    cases m with
    | get p i => simp [getCount] at h
    | dir | lvl | nop2 => exact (ih _ (by simpa [getCount] using h)).trans (entryExec_ioIn ..)

/-! ### A floating line read -/

/-- Nothing drives IO but the environment, whose coming levels are `l`. -/
structure FloatsWith (s : State) (l : List Bool) : Prop where
  pinDir : s.pinDir.io = false
  chip : s.chip = none
  ioIn : s.ioIn = l

theorem FloatsWith.floating {s : State} {l : List Bool} (h : FloatsWith s l) : line s .io = .floating := by
  simp [line, driven, peerDrive, PinLatch.get, h.pinDir, h.chip]

/-- One bit of `IN8` from a floating line is the environment's next level, and uses up that one. -/
theorem FloatsWith.readBit {s : State} {b : Bool} {l : List Bool} (h : FloatsWith s (b :: l)) (x : Transfer) (i : Fin 8) :
    readLevel x i s = b ∧ FloatsWith (runEntries (inBit x i) s) l := by
  have hfront : FloatsWith (runEntries ((inBit x i).take 4) s) (b :: l) :=
    ⟨by rw [runEntries_pinDir]; exact h.pinDir, runEntries_noChip _ s h.chip,
      by rw [runEntries_ioIn _ s (by simp [inBit, getCount]), h.ioIn]⟩
  refine ⟨by simp [readLevel, sense, hfront.floating, floatingLevel, hfront.ioIn], ?_, runEntries_noChip _ s h.chip, ?_⟩
  · rw [runEntries_pinDir, dirAfter_inBit]; exact h.pinDir
  · have hget : ioInAfterGet (runEntries ((inBit x i).take 4) s) .io = l := by
      simp [ioInAfterGet, hfront.floating, hfront.ioIn]
    rw [← hget]
    exact entryExec_ioIn { op := .get .io i, xfer := bif i == 7 then x else .none } _

/-- `SHREG` after the bits `is` of the byte `v`, received in that order (40_link_primitives.md R103). -/
def receive (v : Byte) (is : List (Fin 8)) (sh : Byte) : Byte :=
  is.foldl (fun r i => setBit (bif i == 0 then 0 else r) i (bitOf v i)) sh

/-- Eight bits received in wire order are the byte, whatever `SHREG` held (20_memory.md R43). -/
theorem receive_bitOrder (v sh : Byte) : receive v bitOrder sh = v := assemble_bitOf v

theorem FloatsWith.readBits {v : Byte} {rest : List Bool} (is : List (Fin 8)) (x : Transfer) (s : State)
    (hx : x ≠ .clearShreg) (h : FloatsWith s (is.map (bitOf v) ++ rest)) :
    (runEntries (is.flatMap (inBit x)) s).shreg = receive v is s.shreg ∧
      FloatsWith (runEntries (is.flatMap (inBit x)) s) rest := by
  induction is generalizing s with
  | nil => exact ⟨rfl, h⟩
  | cons i is ih =>
    obtain ⟨hlevel, hnext⟩ := FloatsWith.readBit (b := bitOf v i) h x i
    obtain ⟨hsh, hend⟩ := ih _ hnext
    rw [List.flatMap_cons, runEntries_append]
    refine ⟨?_, hend⟩
    rw [hsh, shreg_inBit x i s hx, hlevel]; rfl

/-- `IN8` from a floating line receives the byte on it and uses up its eight levels. -/
theorem FloatsWith.readByte {s : State} {v : Byte} {rest : List Bool} (x : Transfer) (hx : x ≠ .clearShreg)
    (h : FloatsWith s (bitOrder.map (bitOf v) ++ rest)) :
    (runEntries (in8 x) s).shreg = v ∧ FloatsWith (runEntries (in8 x) s) rest := by
  obtain ⟨hsh, hend⟩ := FloatsWith.readBits bitOrder x s hx h
  rw [receive_bitOrder] at hsh
  exact ⟨hsh, hend⟩

/-- `RDATA` is the byte just received, once its transfer is done (41_link_operations.md R122). -/
theorem rdata_in8_toRdata (s : State) : (runEntries (in8 .toRdata) s).rdata = (runEntries (in8 .toRdata) s).shreg := by
  obtain ⟨t, ht, -⟩ := in8_transfer .toRdata s
  rw [ht]; rfl

/-- A single read frame without a chip returns the byte the environment puts on the line. -/
theorem memRead_floating (c v : Byte) (rest : List Bool) (s : State) (hc : s.chip = none)
    (hi : s.ioIn = bitOrder.map (bitOf v) ++ rest) :
    (runEntries (memRead c [.toRdata]) s).rdata = v ∧ (runEntries (memRead c [.toRdata]) s).ioIn = rest := by
  have hfront : getCount (startList ++ out8 c true) = 0 := rfl
  have hsent : FloatsWith (runEntries (startList ++ out8 c true) s) (bitOrder.map (bitOf v) ++ rest) :=
    ⟨by rw [runEntries_pinDir, dirAfter_append, dirAfter_out8_release], runEntries_noChip _ s hc,
      by rw [runEntries_ioIn _ s hfront, hi]⟩
  obtain ⟨hsh, hend⟩ := hsent.readByte .toRdata (by decide)
  rw [memRead, List.flatMap_singleton, runEntries_append, runEntries_append,
    (runEntries_rdata (stopList .none) _ rfl).1, runEntries_ioIn (stopList .none) _ rfl, rdata_in8_toRdata]
  exact ⟨hsh, hend.ioIn⟩

@[simp] theorem withLatches_rdata (s : State) (op : BitVec 3) (addr data : Byte) (upc : BitVec 9) (busy : Bool) :
    (s.withLatches op addr data upc busy).rdata = s.rdata := rfl

@[simp] theorem withLatches_ioIn (s : State) (op : BitVec 3) (addr data : Byte) (upc : BitVec 9) (busy : Bool) :
    (s.withLatches op addr data upc busy).ioIn = s.ioIn := rfl

/-- Settles O25: RDREG is a single read frame, with the latches of the operation beside it. -/
theorem rdregReturnsTheLevelsOnTheLine : Obligations.RdregReturnsTheLevelsOnTheLine := by
  intro s a d v rest hb hc hi
  refine ⟨_, whenIdle_idle (perform _ a d (rdregList a)) s hb, ?_⟩
  rw [perform_eq, withLatches_rdata, withLatches_ioIn, rdregList]
  exact memRead_floating (toReadAddress a) v rest (mark (breachOf 0b010 a s) s) hc hi

end Sys2Proof.Machine
end

section
/-! PROOFS. What no step takes from the chip: the canonical form and the 31 addresses of its RAM, and the zeros of the bits
it does not implement (20_memory.md R55, R58). -/

namespace Sys2Proof.Machine

open Sys2Proof.Safety

/-! ### The chip after an instruction -/

theorem whenIdle_chip (f : State → State) (s t : State) (i : Instr) (b : Option Breach) (h : whenIdle f s = .next t)
    (hf : (f s).chip = (runEntries (instrList i s) (mark b s)).chip) :
    ∃ b, t.chip = (runEntries (stepsOf i s) (mark b s)).chip := by
  cases hb : s.busy
  · obtain rfl : f s = t := by simpa [whenIdle_idle f s hb] using h
    exact ⟨b, stepsOf_idle i s hb ▸ hf⟩
  · obtain rfl : mark (some .commandWhileBusy) s = t := by simpa [whenIdle_busy f s hb] using h
    exact ⟨some .commandWhileBusy, by rw [stepsOf, hb]; rfl⟩

theorem perform_chip (op : BitVec 3) (addr data : Byte) (es : List Entry) (s : State) :
    (perform op addr data es s).chip = (runEntries es (mark (breachOf op addr s) s)).chip := by
  rw [perform_eq]; rfl

theorem sendFrame_chip (b : Option Breach) (es : List Entry) (s : State) :
    (sendFrame b es s).chip = (runEntries es (mark b s)).chip := rfl

/-- An instruction leaves the chip as its list of steps does. -/
theorem exec_chip (i : Instr) (s t : State) (h : exec i s = .next t) :
    ∃ b, t.chip = (runEntries (stepsOf i s) (mark b s)).chip := by
  cases i with
  | init | wrreg | rdreg | rd1 | bwrite | bread => exact whenIdle_chip _ s t _ _ h (perform_chip _ _ _ _ s)
  | sample a d => exact whenIdle_chip (fun u => sampleButtons (accept _ _ _ _ u)) s t (.sample a d) none h rfl
  | reserved a d => exact whenIdle_chip (accept _ _ _ _) s t (.reserved a d) none h rfl
  | cbBurstWrite =>
    exact whenIdle_chip (fun u => sendFrame _ (bwriteList u.params u.record) u) s t .cbBurstWrite _ h
      (sendFrame_chip ..)
  | cbWpWrite | cbTcsWrite | cbSecWrite | cbAnyWrite =>
    exact whenIdle_chip (writeFrame _ _) s t _ _ h (sendFrame_chip ..)
  | cbBurstRead | cbSecRead | cbAnyRead => exact whenIdle_chip (readFrame _ _) s t _ _ h (sendFrame_chip ..)

/-! ### What holds of the chip whatever happens to it -/

/-- The property survives all that happens to a chip: an edge on its lines, an advance of its time, and a `rst`, which
leaves its frame unknown. -/
structure KeptByChip (P : Chip → Prop) : Prop where
  react : ∀ e b c, P c → P (c.react e b)
  advance : ∀ t c, P c → P (c.advance t)
  inFrame : ∀ f c, P c → P (c.inFrame f)

/-- The chip, if there is one, has the property. -/
def ChipHas (P : Chip → Prop) (s : State) : Prop := ∀ c ∈ s.chip, P c

section

variable {P : Chip → Prop}

theorem ChipHas.of_eq {s t : State} (h : ChipHas P s) (e : t.chip = s.chip) : ChipHas P t := by
  rw [ChipHas, e]; exact h

theorem ChipHas.of_map {s t : State} {f : Chip → Chip} (h : ChipHas P s) (hf : ∀ c, P c → P (f c))
    (e : t.chip = s.chip.map f) : ChipHas P t := by
  rw [ChipHas, e]
  intro c hc
  obtain ⟨c₀, hc₀, rfl⟩ := Option.mem_map.1 hc
  exact hf c₀ (h c₀ hc₀)

variable (K : KeptByChip P)
include K

theorem KeptByChip.entryExec (e : Entry) (s : State) (h : ChipHas P s) : ChipHas P (e.exec s) :=
  h.of_map (K.react _ _) (entryExec_chip e s)

theorem KeptByChip.runEntries (es : List Entry) (s : State) (h : ChipHas P s) : ChipHas P (runEntries es s) := by
  induction es generalizing s with
  | nil => exact h
  | cons e rest ih => exact ih _ (K.entryExec e s h)

theorem KeptByChip.exec (i : Instr) (s t : State) (h : ChipHas P s) (hx : exec i s = .next t) : ChipHas P t := by
  obtain ⟨b, hc⟩ := exec_chip i s t hx
  exact (K.runEntries (stepsOf i s) (mark b s) h).of_eq hc

theorem KeptByChip.advanceChip (t : Vector Byte 7) (s : State) (h : ChipHas P s) : ChipHas P (advanceChip t s) :=
  h.of_map (K.advance t) rfl

theorem KeptByChip.resetBlock (s : State) (h : ChipHas P s) : ChipHas P (resetBlock s) := by
  cases hb : s.busy
  · exact h.of_map (K.inFrame _) (by rw [resetBlock_chip, chipAfterReset, hb]; rfl)
  · intro c hc
    rw [resetBlock_chip, chipAfterReset_busy s hb] at hc
    cases hc

theorem KeptByChip.fetch (x : Input) (s : State) (h : ChipHas P s) : ChipHas P (fetch x s).state := by
  cases x with
  | present w => simp only [Machine.fetch, presentWord]; split <;> exact h
  | callIfRdata v w => simp only [Machine.fetch, callIfRdata]; split <;> exact h
  | rst => exact K.resetBlock s h
  | chipTime t => exact K.advanceChip t s h
  | call | frame | writeRec | readRec | readRdata | idle => exact h

theorem KeptByChip.busyInput (s : State) (h : ChipHas P s) : ChipHas P (busyInput s) := by
  cases hi : s.inbox with
  | nil => simp only [Machine.busyInput, hi]; exact h
  | cons x rest =>
    cases x with
    | chipTime t => simp only [Machine.busyInput, hi]; exact K.advanceChip t { s with inbox := rest } h
    | call | present | callIfRdata | frame | writeRec | readRec | readRdata | idle | rst =>
      simp only [Machine.busyInput, hi]; exact h

theorem KeptByChip.sequencerStep (s t : State) (h : ChipHas P s) (hx : sequencerStep s = .next t) : ChipHas P t := by
  unfold Machine.sequencerStep at hx
  split at hx
  · cases hx
  · next e _ => cases hx; exact K.entryExec e s h

/-- What edges, advances and `rst` keep of the chip, every step keeps. -/
theorem KeptByChip.step (s t : State) (h : ChipHas P s) (hx : step s = .next t) : ChipHas P t := by
  cases hb : s.busy
  · cases hi : s.inbox with
    | nil =>
      obtain rfl : s = t := by simpa [Machine.step, hb, hi] using hx
      exact h
    | cons x rest =>
      have hf := K.fetch x { s with inbox := rest } h
      cases hq : Machine.fetch x { s with inbox := rest } with
      | run i u =>
        rw [hq] at hf
        rw [step_idle_run s u x rest i hb hi hq] at hx
        exact K.exec i u t hf hx
      | done u =>
        rw [hq] at hf
        obtain rfl : u = t := by simpa [step_idle_done s u x rest hb hi hq] using hx
        exact hf
  · have hin := K.busyInput s h
    cases hr : resetRequested s
    · rw [step_busy_sequencer s hb hr] at hx
      exact K.sequencerStep _ t hin hx
    · obtain rfl : Machine.resetBlock (Machine.busyInput s) = t := by simpa [Machine.step, hb, busyStep, hr] using hx
      exact K.resetBlock _ hin

end

/-! ### The registers and the RAM of the chip -/

/-- The two chips hold the same in their registers and in their RAM (20_memory.md R55: `CK`, `RAM`). -/
structure SameMemory (c d : Chip) : Prop where
  ck : c.ck = d.ck
  ram : c.ram = d.ram

theorem SameMemory.refl (c : Chip) : SameMemory c c := ⟨rfl, rfl⟩

theorem SameMemory.symm {c d : Chip} (h : SameMemory c d) : SameMemory d c := ⟨h.ck.symm, h.ram.symm⟩

theorem SameMemory.trans {c d e : Chip} (h : SameMemory c d) (h' : SameMemory d e) : SameMemory c e :=
  ⟨h.ck.trans h'.ck, h.ram.trans h'.ram⟩

/-- A data byte taken is a store, or joins a clock burst (20_memory.md R56). -/
theorem takeByte_cases (c : Chip) (w : Byte) : SameMemory (c.takeByte w) c ∨ ∃ a r, c.takeByte w = c.store a w r := by
  unfold Chip.takeByte
  split
  · cases cbRam c.cmd
    · exact .inl ⟨rfl, rfl⟩
    · exact .inr ⟨_, _, rfl⟩
  · exact .inr ⟨_, _, rfl⟩

theorem commandBit_same (c : Chip) (b : Bool) : SameMemory (c.commandBit b) c := by
  simp only [Chip.commandBit]
  split
  · split <;> exact ⟨rfl, rfl⟩
  · exact ⟨rfl, rfl⟩

theorem dataBit_cases (c : Chip) (b : Bool) :
    SameMemory (c.dataBit b) c ∨ ∃ w, SameMemory (c.dataBit b) (c.takeByte w) := by
  unfold Chip.dataBit
  split
  · exact .inr ⟨_, rfl, rfl⟩
  · exact .inl ⟨rfl, rfl⟩

theorem clockFall_same (c : Chip) : SameMemory c.clockFall c := by
  unfold Chip.clockFall
  split
  · split <;> exact ⟨rfl, rfl⟩
  all_goals exact ⟨rfl, rfl⟩

/-- `CEv` changes no register but in a commit (20_memory.md R58). -/
theorem deselect_same (c : Chip) (h : c.commits = false) : SameMemory c.deselect c :=
  ⟨by rw [Chip.deselect, h]; rfl, rfl⟩

theorem deselect_commits (c : Chip) (h : c.commits = true) : c.deselect.ck = burstCommit c.ck c.wbuf := by
  rw [Chip.deselect, h]; rfl

/-- What an edge can do to the registers and the RAM: nothing, one store, or the commit of a clock burst. -/
theorem react_cases (e : ChipEdge) (b : Bool) (c : Chip) :
    SameMemory (c.react e b) c ∨ (∃ a w r, SameMemory (c.react e b) (c.store a w r)) ∨
      ((c.react e b).ck = burstCommit c.ck c.wbuf ∧ (c.react e b).ram = c.ram) := by
  cases e with
  | none => exact .inl ⟨rfl, rfl⟩
  | ceRise => exact .inl ⟨rfl, rfl⟩
  | ceFall =>
    cases h : c.commits
    · exact .inl (deselect_same c h)
    · exact .inr (.inr ⟨deselect_commits c h, rfl⟩)
  | sclkFall => exact .inl (clockFall_same c)
  | sclkRise =>
    cases hp : c.phase with
    | cmd => simp only [Chip.react, Chip.clockRise, hp]; exact .inl (commandBit_same c b)
    | wdata =>
      simp only [Chip.react, Chip.clockRise, hp]
      obtain h | ⟨w, h⟩ := dataBit_cases c b
      · exact .inl h
      · obtain h' | ⟨a, r, h'⟩ := takeByte_cases c w
        · exact .inl (h.trans h')
        · exact .inr (.inl ⟨a, w, r, h' ▸ h⟩)
    | idle | rdata | ignore => rw [Chip.react, clockRise_still c b (by simp [hp]) (by simp [hp])]; exact .inl ⟨rfl, rfl⟩

/-- An advance reaches the seven time registers at most (20_memory.md R60). -/
theorem advance_ram (t : Vector Byte 7) (c : Chip) : (c.advance t).ram = c.ram := by
  unfold Chip.advance
  cases c.halted <;> rfl

/-! ### The addresses of RAM -/

/-- RAM in its canonical form with no address past the 31 bytes (20_memory.md R55). -/
def Chip.RamOk (c : Chip) : Prop := c.ram.wf = true ∧ ∀ x ∈ c.ram, x.1 < 31

theorem memoryOk_iff (s : State) : memoryOk s = true ↔ ChipHas Chip.RamOk s := by
  cases h : s.chip <;> simp [memoryOk, ChipHas, Chip.RamOk, h]

/-- A write lists no address but the one it writes. -/
theorem mem_write {m : Memory} {a : Nat} {v : Byte} {x : Host.Cell} (h : x ∈ m.write a v) : x ∈ m ∨ x = (a, v) := by
  induction m with
  | nil =>
    rw [Memory.write] at h
    split at h
    · exact .inl h
    · exact .inr (List.mem_singleton.1 h)
  | cons y rest ih =>
    rw [Memory.write] at h
    split at h
    · split at h
      · exact .inl h
      · exact (List.mem_cons.1 h).symm
    · split at h
      · split at h
        · exact .inl (List.mem_cons_of_mem _ h)
        · exact (List.mem_cons.1 h).symm.imp_left (List.mem_cons_of_mem _)
      · obtain rfl | h := List.mem_cons.1 h
        · exact .inl (List.mem_cons_self ..)
        · exact (ih h).imp_left (List.mem_cons_of_mem _)

/-- What a store does to RAM: it writes one of the 31 bytes of an unprotected chip, or nothing (20_memory.md R58). -/
theorem store_ram (c : Chip) (a : Nat) (w : Byte) (r : Bool) :
    (c.store a w r).ram = if r = true ∧ c.writeProtected = false ∧ a < 31 then c.ram.write a w else c.ram := by
  unfold Chip.store
  cases r <;> cases hp : c.writeProtected <;> by_cases ha : a < 31 <;> simp [ha] <;> repeat' split
  all_goals rfl

theorem ramOk_store (c : Chip) (a : Nat) (w : Byte) (r : Bool) (h : c.RamOk) : (c.store a w r).RamOk := by
  refine ⟨store_ram_wf c a w r h.1, ?_⟩
  rw [store_ram]
  split
  · next hw =>
    intro x hx
    obtain hx | rfl := mem_write hx
    · exact h.2 x hx
    · exact hw.2.2
  · exact h.2

theorem ramOk_of_ram {c d : Chip} (e : d.ram = c.ram) (h : c.RamOk) : d.RamOk := by
  rw [Chip.RamOk, e]; exact h

theorem ramOk_kept : KeptByChip Chip.RamOk where
  react e b c h := by
    obtain hc | ⟨a, w, r, hc⟩ | hc := react_cases e b c
    · exact ramOk_of_ram hc.ram h
    · exact ramOk_of_ram hc.ram (ramOk_store c a w r h)
    · exact ramOk_of_ram hc.2 h
  advance t c h := ramOk_of_ram (advance_ram t c) h
  inFrame f c h := ramOk_of_ram (inFrame_ram f c) h

/-! ### The bits the chip does not implement -/

theorem bankGet_setIfInBounds {n : Nat} (v : Vector Byte n) (a : Nat) (w : Byte) (j : Nat) (hj : j < n) :
    bankGet (v.setIfInBounds a w) j = if a = j then w else bankGet v j := by
  unfold bankGet
  rw [Vector.getElem?_setIfInBounds]
  split
  · next h => subst h; simp [hj]
  · rfl

theorem bankGet_ofFn {n : Nat} (f : Fin n → Byte) (j : Nat) (hj : j < n) : bankGet (Vector.ofFn f) j = f ⟨j, hj⟩ := by
  simp [bankGet, hj]

/-- A register bank with 0 in every bit the chip does not implement (20_memory.md R58). -/
def Masked (ck : Vector Byte 9) : Prop := ∀ j < 9, bankGet ck j &&& ~~~bankGet chipMask j = 0

theorem chipMasked_iff (s : State) : chipMasked s = true ↔ ChipHas (fun c => Masked c.ck) s := by
  cases h : s.chip <;> simp [chipMasked, ChipHas, Masked, h]

theorem and_and_not_self (w m : Byte) : w &&& m &&& ~~~m = 0 := by
  rw [BitVec.and_assoc, BitVec.and_not_self]
  exact BitVec.and_zero

theorem masked_set (ck : Vector Byte 9) (a : Nat) (w : Byte) (h : Masked ck) :
    Masked (ck.setIfInBounds a (w &&& bankGet chipMask a)) := by
  intro j hj
  rw [bankGet_setIfInBounds _ _ _ _ hj]
  split
  · next e => rw [e, and_and_not_self]
  · exact h j hj

theorem masked_store (c : Chip) (a : Nat) (w : Byte) (r : Bool) (h : Masked c.ck) : Masked (c.store a w r).ck := by
  obtain ⟨_, _, e⟩ | ⟨_, e⟩ | ⟨_, _, e⟩ | ⟨_, _, e⟩ | e := store_cases c a w r <;> rw [e]
  · exact masked_set c.ck 7 w h
  · exact h
  · exact h
  · exact masked_set c.ck a w h
  · exact h

theorem masked_burstCommit (ck : Vector Byte 9) (b : List Byte) (h : Masked ck) : Masked (burstCommit ck b) := by
  intro j hj
  rw [burstCommit, bankGet_ofFn _ j hj]
  split
  · exact and_and_not_self _ _
  · exact h j hj

theorem masked_advance (t : Vector Byte 7) (c : Chip) (h : Masked c.ck) : Masked (c.advance t).ck := by
  unfold Chip.advance
  cases c.halted
  · intro j hj
    rw [cond_false, bankGet_ofFn _ j hj]
    split
    · next e => obtain rfl : j = 0 := e; exact BitVec.and_zero
    · split
      · exact and_and_not_self _ _
      · exact h j hj
  · exact h

theorem masked_kept : KeptByChip fun c => Masked c.ck where
  react e b c h := by
    obtain hc | ⟨a, w, r, hc⟩ | hc := react_cases e b c
    · rw [hc.ck]; exact h
    · rw [hc.ck]; exact masked_store c a w r h
    · rw [hc.1]; exact masked_burstCommit c.ck c.wbuf h
  advance := masked_advance
  inFrame _ _ h := h

/-- Settles O34: edges, advances and `rst` keep both properties of the chip, so every step does. -/
theorem stepKeepsTheChip : Obligations.StepKeepsTheChip := by
  intro s t h
  rw [memoryOk_iff, memoryOk_iff, chipMasked_iff, chipMasked_iff]
  exact ⟨fun hs => ramOk_kept.step s t hs h, fun hs => masked_kept.step s t hs h⟩

end Sys2Proof.Machine
end

section
/-! PROOFS. A write frame of one byte: what it stores in the chip, whatever its command byte (20_memory.md R48, R56, R58;
30_encoding.md R76, R80). -/

namespace Sys2Proof.Machine

open Sys2Proof.Safety

/-! ### Rules of a store -/

/-- What a store does to the registers: it writes one of them within the bits the chip implements, register 7 of a
protected chip too, or nothing (20_memory.md R58). -/
theorem store_ck (c : Chip) (a : Nat) (w : Byte) (r : Bool) :
    (c.store a w r).ck = if r = false ∧ (a = 7 ∨ c.writeProtected = false ∧ a < 9) then
      c.ck.setIfInBounds a (w &&& bankGet chipMask a) else c.ck := by
  unfold Chip.store
  by_cases h7 : a = 7
  · subst h7
    cases r
    · rfl
    · cases c.writeProtected <;> rfl
  · cases r <;> cases c.writeProtected <;> simp [h7] <;> split <;> rfl

theorem SameMemory.writeProtected {c d : Chip} (h : SameMemory c d) : c.writeProtected = d.writeProtected := by
  rw [Chip.writeProtected, h.ck]; rfl

theorem SameMemory.store {c d : Chip} (h : SameMemory c d) (a : Nat) (w : Byte) (r : Bool) :
    SameMemory (c.store a w r) (d.store a w r) :=
  ⟨by rw [store_ck, store_ck, h.ck, h.writeProtected], by rw [store_ram, store_ram, h.ram, h.writeProtected]⟩

theorem write_blank_below (m : Memory) (lo a : Nat) (h : Memory.wfAbove lo m = true) (ha : a < lo) :
    m.write a Memory.blank = m := by
  cases m with
  | nil => rfl
  | cons x rest =>
    obtain ⟨k, b⟩ := x
    simp only [Memory.wfAbove, Bool.and_eq_true, decide_eq_true_eq] at h
    rw [Memory.write, if_pos (by omega), if_pos rfl]

theorem write_write_above (m : Memory) (lo a : Nat) (v : Byte) (h : Memory.wfAbove lo m = true) :
    (m.write a v).write a v = m.write a v := by
  have again (rest : Memory) (hv : v ≠ Memory.blank) : Memory.write ((a, v) :: rest) a v = (a, v) :: rest := by
    rw [Memory.write, if_neg (Nat.lt_irrefl a), if_pos rfl, if_neg hv]
  induction m generalizing lo with
  | nil =>
    by_cases hv : v = Memory.blank
    · simp [Memory.write, hv]
    · rw [Memory.write, if_neg hv, again [] hv]
  | cons x rest ih =>
    obtain ⟨k, b⟩ := x
    have hrest : Memory.wfAbove (k + 1) rest = true := by
      simp only [Memory.wfAbove, Bool.and_eq_true] at h; exact h.2
    rw [Memory.write]
    by_cases hlt : a < k
    · rw [if_pos hlt]
      by_cases hv : v = Memory.blank
      · rw [if_pos hv, Memory.write, if_pos hlt, if_pos hv]
      · rw [if_neg hv, again _ hv]
    · rw [if_neg hlt]
      by_cases hk : a = k
      · rw [if_pos hk]
        by_cases hv : v = Memory.blank
        · rw [if_pos hv, hv, write_blank_below rest (k + 1) a hrest (by omega)]
        · rw [if_neg hv, again _ hv]
      · rw [if_neg hk, Memory.write, if_neg hlt, if_neg hk, ih (k + 1) hrest]

/-- The second of two equal writes changes nothing. -/
theorem write_write (m : Memory) (a : Nat) (v : Byte) (h : m.wf = true) : (m.write a v).write a v = m.write a v :=
  write_write_above m 0 a v h

/-- The second of two equal stores changes no register and no byte of RAM. -/
theorem store_store (c : Chip) (a : Nat) (w : Byte) (r : Bool) (h : c.ram.wf = true) :
    SameMemory ((c.store a w r).store a w r) (c.store a w r) := by
  constructor
  · rw [store_ck (c.store a w r)]
    split
    · next h2 =>
      rw [store_ck]
      split
      · exact Vector.setIfInBounds_setIfInBounds _
      · next h1 =>
        have hck : (c.store a w r).ck = c.ck := by rw [store_ck, if_neg h1]
        rw [Chip.writeProtected, hck] at h2
        exact absurd h2 h1
    · rfl
  · rw [store_ram (c.store a w r)]
    split
    · rw [store_ram]
      split
      · exact write_write c.ram a w h
      · next h2 h1 =>
        obtain ⟨hr, hp, ha⟩ := h2
        have hck : (c.store a w r).ck = c.ck := by rw [store_ck, hr]; rfl
        rw [Chip.writeProtected, hck] at hp
        exact absurd ⟨hr, hp, ha⟩ h1
    · rfl

theorem store_wbuf (c : Chip) (a : Nat) (w : Byte) (r : Bool) : (c.store a w r).wbuf = c.wbuf := by
  obtain ⟨_, _, e⟩ | ⟨_, e⟩ | ⟨_, _, e⟩ | ⟨_, _, e⟩ | e := store_cases c a w r <;> rw [e]

/-! ### A command byte taken -/

theorem phaseAfterCommand_cases (a : Byte) :
    phaseAfterCommand a = .wdata ∨ phaseAfterCommand a = .rdata ∨ phaseAfterCommand a = .ignore := by
  unfold phaseAfterCommand
  cases cbOne a <;> cases cbRead a <;> simp

theorem phaseAfterCommand_wdata_iff (a : Byte) : phaseAfterCommand a = .wdata ↔ cbOne a = true ∧ cbRead a = false := by
  unfold phaseAfterCommand
  cases cbOne a <;> cases cbRead a <;> simp

theorem commanded_same (c : Chip) (a : Byte) : SameMemory (c.commanded a) c := by
  unfold Chip.commanded
  split <;> exact ⟨rfl, rfl⟩

theorem commanded_phase (c : Chip) (a : Byte) : (c.commanded a).phase = phaseAfterCommand a := by
  unfold Chip.commanded
  split <;> simp_all

/-- A chip just selected that has taken `a` as the command byte of a write (20_memory.md R56). -/
def Chip.opened (c : Chip) (a : Byte) : Chip := { c.select with cmd := a, n := 0, phase := .wdata, w := 0 }

theorem commanded_wdata (c : Chip) (a : Byte) (h : phaseAfterCommand a = .wdata) :
    c.select.commanded a = c.opened a := by
  rw [Chip.commanded, h]; rfl

theorem commanded_drive (c : Chip) (a : Byte) : (c.commanded a).drive = c.drive := by
  unfold Chip.commanded
  split <;> rfl

/-- A command byte sent, of a read too, with the falling edge of its last bit. -/
theorem chip_out8_falling (a : Byte) (s : State) (c : Chip) (h : sendPins s) (hc : s.chip = some c)
    (hd : c.drive = none) (hp : c.phase = .cmd) (hn : c.n = 0) (h0 : c.cmd = 0) :
    (runEntries (out8 a false) s).chip = some (c.commanded a).clockFall := by
  obtain ⟨t, ht, hs, hx⟩ := chip_seven a false s c h hc hd (.inl ⟨hp, hn⟩)
  have h7 := sevenSent_cmd c a hp hn h0
  rw [ht, chip_outBit_low a false 7 t _ hs hx (by rw [h7]; exact hd) rfl, h7, eighth_command c a hp]

/-- A frame begun and its command byte sent. -/
theorem frame_begun (a : Byte) (s : State) (c : Chip) (hr : atRest s = true) (hq : ChipQuiet s c) :
    sendPins (runEntries (startList ++ out8 a false) s) ∧
      (runEntries (startList ++ out8 a false) s).chip = some (c.select.commanded a).clockFall := by
  obtain ⟨hc, hd⟩ := hq
  have hs := sendPins_start s hr
  rw [runEntries_append]
  exact ⟨sendPins_out8 a _ hs, chip_out8_falling a _ c.select hs (chip_start s c hr hc) hd rfl rfl rfl⟩

/-- A frame that commits nothing ends with the chip quiet and its memory as it is. -/
theorem frame_ended (x : Transfer) (s : State) (c : Chip) (hs : sendPins s) (hc : s.chip = some c)
    (hn : c.commits = false) : ∃ c', ChipQuiet (runEntries (stopList x) s) c' ∧ SameMemory c' c := by
  obtain ⟨hd, ho, -⟩ := hs
  exact ⟨c.deselect, ⟨chip_stop x s c (by rw [hd]) ho hc, rfl⟩, deselect_same c hn⟩

/-! ### A chip that answers while the block sends -/

/-- The micro-operation does not write CE. -/
def MicroOp.sparesCe (m : MicroOp) : Bool :=
  match m with
  | .dir .ce _ => false
  | .lvl .ce _ => false
  | _ => true

/-- CE is driven high, and a chip with the memory of `c` answers a read. -/
structure Answers (s : State) (c : Chip) : Prop where
  dir : s.pinDir.ce = true
  out : s.pinOut.ce = true
  chip : ∃ c', s.chip = some c' ∧ c'.phase = .rdata ∧ SameMemory c' c

theorem dirAfter_sparesCe (m : MicroOp) (r : PinLatch) (h : m.sparesCe = true) : (m.dirAfter r).ce = r.ce := by
  cases m with
  | dir p d =>
    cases p with
    | ce => cases h
    | sclk | io => rfl
  | lvl | get | nop2 => rfl

theorem outAfter_sparesCe (m : MicroOp) (r : PinLatch) (h : m.sparesCe = true) : (m.outAfter r).ce = r.ce := by
  cases m with
  | lvl p v =>
    cases p with
    | ce => cases h
    | sclk | io => rfl
  | dir | get | nop2 => rfl

theorem clockFall_phase (c : Chip) : c.clockFall.phase = c.phase := by
  unfold Chip.clockFall
  split
  · split <;> rfl
  all_goals rfl

/-- Edges of SCLK leave an answering chip answering, and its memory as it is (20_memory.md R57). -/
theorem react_rdata (e : ChipEdge) (b : Bool) (c : Chip) (hp : c.phase = .rdata) (hr : e ≠ .ceRise) (hf : e ≠ .ceFall) :
    (c.react e b).phase = .rdata ∧ SameMemory (c.react e b) c := by
  cases e with
  | none => exact ⟨hp, .refl c⟩
  | ceRise => exact absurd rfl hr
  | ceFall => exact absurd rfl hf
  | sclkRise => rw [Chip.react, clockRise_still c b (by simp [hp]) (by simp [hp])]; exact ⟨hp, .refl c⟩
  | sclkFall => exact ⟨(clockFall_phase c).trans hp, clockFall_same c⟩

/-- Between two states that drive CE high the chip sees no edge of CE. -/
theorem edgeBetween_ceHigh (s t : State) (hs : driven s .ce = some true) (ht : driven t .ce = some true) :
    edgeBetween s t ≠ .ceRise ∧ edgeBetween s t ≠ .ceFall := by
  unfold edgeBetween
  rw [hs, ht]
  dsimp only
  split <;> exact ⟨by decide, by decide⟩

theorem Answers.entryExec {s : State} {c : Chip} (h : Answers s c) (e : Entry) (he : e.op.sparesCe = true) :
    Answers (e.exec s) c := by
  obtain ⟨hd, ho, c', hc, hp, hm⟩ := h
  have hd' := (dirAfter_sparesCe e.op s.pinDir he).trans hd
  have ho' := (outAfter_sparesCe e.op s.pinOut he).trans ho
  obtain ⟨hrise, hfall⟩ := edgeBetween_ceHigh s (e.op.onPins s)
    (by simp [driven, PinLatch.get, hd, ho]) (by simp [driven, PinLatch.get, MicroOp.onPins, hd', ho'])
  obtain ⟨hp', hm'⟩ := react_rdata _ (ioAtChip (e.op.onPins s)) c' hp hrise hfall
  exact ⟨by rw [entryExec_pinDir, hd'], by rw [entryExec_pinOut, ho'], _,
    by rw [entryExec_chip, microExec_chip_some _ s c' hc], hp', hm'.trans hm⟩

theorem Answers.runEntries {s : State} {c : Chip} (h : Answers s c) (es : List Entry)
    (hes : es.all (fun e => e.op.sparesCe) = true) : Answers (runEntries es s) c := by
  induction es generalizing s with
  | nil => exact h
  | cons e rest ih =>
    rw [List.all_cons, Bool.and_eq_true] at hes
    exact ih (h.entryExec e hes.1) hes.2

/-! ### A write frame of one byte -/

/-- Where the one data byte of a write frame goes: the register or byte of RAM of its number, the first byte of RAM in a
burst (20_memory.md R56). No register has the number 31 of a clock burst. -/
def writeAddress (a : Byte) : Nat := if cbRam a = true ∧ cbReg a = 31 then 0 else cbReg a

/-- The chip's memory after a write frame of command byte `a` and the one byte `d` (20_memory.md R56, R58). -/
def Chip.written (c : Chip) (a d : Byte) : Chip :=
  if phaseAfterCommand a = .wdata then c.store (writeAddress a) d (cbRam a) else c

/-- The first data byte of a write frame is a store at the frame's address. -/
theorem takeByte_store (c : Chip) (w : Byte) (hk : c.k = 0) :
    SameMemory (c.takeByte w) (c.store (writeAddress c.cmd) w (cbRam c.cmd)) := by
  by_cases hb : cbReg c.cmd = 31
  · cases hr : cbRam c.cmd
    · have hburst : c.takeByte w = { c with wbuf := c.wbuf ++ [w] } := by simp [Chip.takeByte, hb, hr]
      have haddr : writeAddress c.cmd = 31 := by simp [writeAddress, hb, hr]
      rw [hburst, haddr]
      exact ⟨by rw [store_ck]; simp, by rw [store_ram]; simp⟩
    · have hram : c.takeByte w = c.store 0 w true := by simp [Chip.takeByte, hb, hr, hk]
      have haddr : writeAddress c.cmd = 0 := by simp [writeAddress, hb, hr]
      rw [hram, haddr]
      exact .refl _
  · have haddr : writeAddress c.cmd = cbReg c.cmd := if_neg fun h => hb h.2
    rw [Chip.takeByte, if_neg hb, haddr]
    exact .refl _

theorem takeByte_wbuf (c : Chip) (w : Byte) : (c.takeByte w).wbuf.length ≤ c.wbuf.length + 1 := by
  unfold Chip.takeByte
  split
  · cases cbRam c.cmd
    · simp
    · rw [cond_true, store_wbuf]; omega
  · rw [store_wbuf]; omega

/-- Without eight bytes of a clock burst nothing is committed. -/
theorem commits_of_length (c : Chip) (h : c.wbuf.length ≠ 8) : c.commits = false := by
  simp [Chip.commits, h]

theorem commits_of_phase (c : Chip) (h : c.phase ≠ .wdata) : c.commits = false := by
  simp [Chip.commits, h]

/-- The data byte, by what the chip makes of the command byte before it. -/
theorem dataByte_chip (a d : Byte) (s : State) (c : Chip) (hs : sendPins s)
    (hc : s.chip = some (c.select.commanded a).clockFall) (hd : c.drive = none) :
    ∃ c', (runEntries (out8 d false) s).chip = some c' ∧ c'.commits = false ∧ SameMemory c' (c.written a d) := by
  have hphase := commanded_phase c.select a
  have hmem : SameMemory (c.select.commanded a) c := (commanded_same c.select a).trans ⟨rfl, rfl⟩
  have hdrive := (commanded_drive c.select a).trans hd
  rcases phaseAfterCommand_cases a with hw | hread | hignore
  · rw [Chip.written, if_pos hw]
    rw [clockFall_phase_ne _ (by simp [hphase, hw]), commanded_wdata c a hw] at hc
    have hlen : ((c.opened a).takeByte d).wbuf.length ≤ 1 := takeByte_wbuf (c.opened a) d
    have hstore := takeByte_store (c.opened a) d rfl
    have hopened : SameMemory (c.opened a) c := ⟨rfl, rfl⟩
    have hshort : ((c.opened a).takeByte d).wbuf.length ≠ 8 := by omega
    exact ⟨_, chip_out8_data d s _ hs hc hd rfl rfl rfl, commits_of_length _ hshort,
      SameMemory.trans ⟨hstore.ck, hstore.ram⟩ (hopened.store _ _ _)⟩
  · rw [Chip.written, if_neg (by simp [hread])]
    have hanswers : Answers s c := ⟨by rw [hs.1], hs.2.1, _, hc, by rw [clockFall_phase, hphase, hread],
      (clockFall_same _).trans hmem⟩
    obtain ⟨-, -, c', hc', hp', hm'⟩ := hanswers.runEntries (out8 d false) rfl
    exact ⟨c', hc', commits_of_phase c' (by simp [hp']), hm'⟩
  · rw [Chip.written, if_neg (by simp [hignore])]
    rw [clockFall_phase_ne _ (by simp [hphase, hignore])] at hc
    exact ⟨_, chip_out8_ignore d s _ hs hc hdrive (hphase.trans hignore), commits_of_phase _ (by simp [hphase, hignore]),
      hmem⟩

theorem memWrite_chip (a d : Byte) (s : State) (c : Chip) (hr : atRest s = true) (hq : ChipQuiet s c) :
    ∃ c', ChipQuiet (runEntries (memWrite a [d] .none) s) c' ∧ SameMemory c' (c.written a d) := by
  obtain ⟨hs, hc⟩ := frame_begun a s c hr hq
  obtain ⟨c₁, hc₁, hn, hm⟩ := dataByte_chip a d _ c hs hc hq.2
  obtain ⟨c', hq', hm'⟩ := frame_ended .none _ c₁ (sendPins_out8 d _ hs) hc₁ hn
  rw [memWrite, List.flatMap_singleton, runEntries_append, runEntries_append]
  exact ⟨c', hq', hm'.trans hm⟩

/-! ### WRREG -/

/-- An instruction begun at rest ends at rest. -/
theorem exec_atRest (i : Instr) (s t : State) (h : exec i s = .next t) (hr : atRest s = true) : atRest t = true := by
  obtain ⟨b, ht⟩ := exec_leavesAs i s t h
  rw [atRest, ht.pinDir, ht.pinOut, runEntries_pinDir, runEntries_pinOut]
  exact (runsList_stepsOf i s).restPins _ _ hr

/-- An instruction run on an idle block leaves it idle. -/
theorem exec_idle (i : Instr) (s t : State) (h : exec i s = .next t) (hb : s.busy = false) : t.busy = false := by
  obtain ⟨b, ht⟩ := exec_leavesAs i s t h
  rw [ht.busy, runEntries_busy, mark_busy, hb]

/-- WRREG begun at rest with a quiet chip is a write frame of one byte, and ends as it began. -/
theorem exec_wrreg_chip (a d : Byte) (s : State) (c : Chip) (hb : s.busy = false) (hr : atRest s = true)
    (hq : ChipQuiet s c) :
    ∃ t c', exec (.wrreg a d) s = .next t ∧ t.busy = false ∧ atRest t = true ∧ ChipQuiet t c' ∧
      SameMemory c' (c.written a d) := by
  obtain ⟨t, ht, -⟩ := exec_marks (.wrreg a d) s
  obtain ⟨b, hchip⟩ := exec_chip _ s t ht
  rw [stepsOf_idle _ s hb] at hchip
  obtain ⟨c', hq', hm⟩ := memWrite_chip a d (mark b s) c hr hq
  exact ⟨t, c', ht, exec_idle _ s t ht hb, exec_atRest _ s t ht hr, ⟨hchip.trans hq'.1, hq'.2⟩, hm⟩

theorem cbReg_le (a : Byte) : cbReg a ≤ 31 := Nat.le_of_lt_succ (a.extractLsb' 1 5).isLt

/-- A write frame writes the byte of RAM at its address, in an unprotected chip that takes it as a write to RAM. -/
theorem written_ram (c : Chip) (a d : Byte) :
    (c.written a d).ram =
      if cbRam a = true ∧ c.writeProtected = false ∧ cbOne a = true ∧ cbRead a = false then
        c.ram.write (if cbReg a = 31 then 0 else cbReg a) d
      else c.ram := by
  unfold Chip.written
  by_cases hw : phaseAfterCommand a = .wdata
  · obtain ⟨hone, hread⟩ := (phaseAfterCommand_wdata_iff a).1 hw
    rw [if_pos hw, store_ram]
    cases hram : cbRam a
    · simp
    · have haddr : writeAddress a = if cbReg a = 31 then 0 else cbReg a := by
        simp [writeAddress, hram]
      have hlt : (if cbReg a = 31 then 0 else cbReg a) < 31 := by have := cbReg_le a; split <;> omega
      simp [haddr, hlt, hone, hread]
  · have hnot := mt (phaseAfterCommand_wdata_iff a).2 hw
    rw [if_neg hw, if_neg fun h => hnot h.2.2]

/-- Settles O39: the RAM after WRREG is that of a write frame, and a read of it is a read after that write. -/
theorem wrregLeavesOtherMemory : Obligations.WrregLeavesOtherMemory := by
  intro s c a d hb hr hq hwf
  obtain ⟨t, c', ht, -, -, hq', hm⟩ := exec_wrreg_chip a d s c hb hr hq
  refine ⟨t, c', ht, hq'.1, fun j hj => ?_, fun h => ?_, fun hram hp hone hread => ?_⟩ <;> rw [hm.ram, written_ram]
  · split
    · rw [read_write _ _ _ hwf, if_neg hj]
    · rfl
  · refine if_neg fun ⟨hram, hp, hone, hread⟩ => ?_
    simp [hram, hp, hone, hread] at h
  · rw [if_pos ⟨hram, hp, hone, hread⟩, read_write _ _ _ hwf, if_pos rfl]

theorem SameMemory.written {c d : Chip} (h : SameMemory c d) (a v : Byte) :
    SameMemory (c.written a v) (d.written a v) := by
  unfold Chip.written
  split
  · exact h.store _ _ _
  · exact h

theorem written_written (c : Chip) (a v : Byte) (h : c.ram.wf = true) :
    SameMemory ((c.written a v).written a v) (c.written a v) := by
  unfold Chip.written
  split
  · exact store_store c _ _ _ h
  · exact .refl c

/-- Settles O44: the second write frame stores at the address of the first, where the same byte stands. -/
theorem repeatedWriteChangesNothing : Obligations.RepeatedWriteChangesNothing := by
  intro s c a d hb hr hq _ hwf
  obtain ⟨t, c', ht, htb, htr, hq', hm⟩ := exec_wrreg_chip a d s c hb hr hq
  obtain ⟨u, c'', hu, -, -, hq'', hm'⟩ := exec_wrreg_chip a d t c' htb htr hq'
  have hsame : SameMemory c'' c' := ((hm'.trans (hm.written a d)).trans (written_written c a d hwf)).trans hm.symm
  exact ⟨t, u, c', c'', ht, hu, hq'.1, hq''.1, hsame.ck, hsame.ram⟩

end Sys2Proof.Machine
end

section
/-! PROOFS. The record through the chip and back: a clock burst written and committed, a halted chip left alone by its
oscillator, a burst read (20_memory.md R56 to R61; 41_link_operations.md R124, R125). -/

namespace Sys2Proof.Machine

open Sys2Proof.Safety

/-! ### A clock burst written -/

/-- A chip just selected that has taken `a` as the command byte of a clock burst write, and the bytes `v` after it. -/
def Chip.filled (c : Chip) (a : Byte) (v : List Byte) : Chip := { c.opened a with wbuf := v, k := v.length }

theorem takeByte_filled (c : Chip) (a b : Byte) (v : List Byte) (h31 : cbReg a = 31) (hram : cbRam a = false) :
    { (c.filled a v).takeByte b with k := (c.filled a v).k + 1, n := 0, w := 0 } = c.filled a (v ++ [b]) := by
  have hreg : cbReg (c.filled a v).cmd = 31 := h31
  have hclock : cbRam (c.filled a v).cmd = false := hram
  have htake : (c.filled a v).takeByte b = { c.filled a v with wbuf := v ++ [b] } := by
    rw [Chip.takeByte, if_pos hreg, hclock]; rfl
  rw [htake, Chip.filled, Chip.filled, List.length_append]
  rfl

theorem chip_burstBytes (a : Byte) (u v : List Byte) (s : State) (c : Chip) (hs : sendPins s)
    (hc : s.chip = some (c.filled a u)) (hd : c.drive = none) (h31 : cbReg a = 31) (hram : cbRam a = false) :
    (runEntries (v.flatMap fun b => out8 b false) s).chip = some (c.filled a (u ++ v)) := by
  induction v generalizing u s with
  | nil => rw [List.append_nil]; exact hc
  | cons b rest ih =>
    have hbyte := chip_out8_data b s _ hs hc hd rfl rfl rfl
    rw [takeByte_filled c a b u h31 hram] at hbyte
    rw [List.flatMap_cons, runEntries_append, ih (u ++ [b]) _ (sendPins_out8 b s hs) hbyte, List.append_assoc]
    rfl

/-- Eight bytes of a clock burst are committed, if the chip is not protected (20_memory.md R58). -/
theorem commits_filled (c : Chip) (a : Byte) (v : List Byte) (h31 : cbReg a = 31) (hram : cbRam a = false)
    (h8 : v.length = 8) : (c.filled a v).commits = !c.writeProtected := by
  have hreg : cbReg (c.filled a v).cmd = 31 := h31
  have hclock : cbRam (c.filled a v).cmd = false := hram
  have hlen : (c.filled a v).wbuf.length = 8 := h8
  have hphase : (c.filled a v).phase = .wdata := rfl
  have hp : (c.filled a v).writeProtected = c.writeProtected := rfl
  simp [Chip.commits, hreg, hclock, hlen, hphase, hp]

/-- A write frame of a clock burst with its eight bytes replaces the registers of an unprotected chip. -/
theorem memWrite_burst (a : Byte) (v : List Byte) (s : State) (c : Chip) (hr : atRest s = true) (hq : ChipQuiet s c)
    (hw : phaseAfterCommand a = .wdata) (h31 : cbReg a = 31) (hram : cbRam a = false) (h8 : v.length = 8) :
    ∃ c', ChipQuiet (runEntries (memWrite a v .none) s) c' ∧
      SameMemory c' { c with ck := bif c.writeProtected then c.ck else burstCommit c.ck v } := by
  obtain ⟨hs, hc⟩ := frame_begun a s c hr hq
  rw [clockFall_phase_ne _ (by simp [commanded_phase, hw]), commanded_wdata c a hw] at hc
  have hfilled := chip_burstBytes a [] v _ c hs hc hq.2 h31 hram
  obtain ⟨hd, ho, -⟩ := sendPins_bytes v _ hs
  have hck : (c.filled a v).deselect.ck = bif c.writeProtected then c.ck else burstCommit c.ck v := by
    rw [Chip.deselect, commits_filled c a v h31 hram h8]
    cases c.writeProtected <;> rfl
  rw [memWrite, runEntries_append, runEntries_append]
  exact ⟨_, ⟨chip_stop .none _ _ (by rw [hd]) ho hfilled, rfl⟩, hck, rfl⟩

/-- BWRITE begun at rest with a quiet chip commits the record to an unprotected one, and ends as it began. -/
theorem exec_bwrite_chip (a d : Byte) (s : State) (c : Chip) (hp : s.params = Config.params) (hb : s.busy = false)
    (hr : atRest s = true) (hq : ChipQuiet s c) :
    ∃ t c', exec (.bwrite a d) s = .next t ∧ t.params = Config.params ∧ t.busy = false ∧ atRest t = true ∧
      ChipQuiet t c' ∧
      SameMemory c' { c with ck := bif c.writeProtected then c.ck else burstCommit c.ck s.record.bytes } := by
  obtain ⟨t, ht, htp, -⟩ := exec_marks (.bwrite a d) s
  obtain ⟨b, hchip⟩ := exec_chip _ s t ht
  rw [stepsOf_idle _ s hb, instrList, bwriteList, hp] at hchip
  obtain ⟨c', hq', hm⟩ := memWrite_burst Config.params.cmdBurst s.record.bytes (mark b s) c hr hq (by decide) (by decide)
    (by decide) rfl
  exact ⟨t, c', ht, htp.trans hp, exec_idle _ s t ht hb, exec_atRest _ s t ht hr, ⟨hchip.trans hq'.1, hq'.2⟩, hm⟩

/-! ### A burst read -/

/-- The chip answers a read with the bytes `f`, and the next it sends is that of index `k` (20_memory.md R57). -/
structure Streams (f : Nat → Byte) (k : Nat) (s : State) : Prop where
  pins : readPins s
  chip : ∃ c, s.chip = some c ∧ c.phase = .rdata ∧ c.n = 0 ∧ c.k = k ∧ c.out = f k ∧ ∀ j, c.readByte c.cmd j = f j

/-- `START` and the command byte of a read: the chip answers with its registers as they are (20_memory.md R56, R59). -/
theorem streams_begun (a : Byte) (s : State) (c : Chip) (hr : atRest s = true) (hq : ChipQuiet s c)
    (ha : phaseAfterCommand a = .rdata) :
    Streams (Chip.readByte { c with latch := c.ck } a) 0 (runEntries (startList ++ out8 a true) s) := by
  obtain ⟨hc, hd⟩ := hq
  have hs := sendPins_start s hr
  have hcommanded := chip_out8_release a _ c.select hs (chip_start s c hr hc) hd rfl rfl rfl
  rw [Chip.commanded, ha] at hcommanded
  rw [runEntries_append]
  refine ⟨⟨?_, ?_⟩, _, hcommanded, rfl, rfl, rfl, readByte_congr _ _ _ _ rfl rfl, fun j => readByte_congr _ _ _ _ rfl rfl⟩
  · rw [runEntries_pinDir, dirAfter_out8_release, hs.1]
  · rw [runEntries_pinOut, outAfter_out8_release]; exact hs.2.1

section

variable {f : Nat → Byte} {k : Nat} {s : State}

/-- `IN8` receives the next byte of the chip. -/
theorem Streams.next (h : Streams f k s) (x : Transfer) (hx : x ≠ .clearShreg) :
    (runEntries (in8 x) s).shreg = f k ∧ Streams f (k + 1) (runEntries (in8 x) s) := by
  obtain ⟨hpins, c, hc, hphase, hn, rfl, hout, hf⟩ := h
  obtain ⟨hsh, hpins', hc'⟩ := in8_chip x s c hpins hc hphase hn hx
  exact ⟨hsh.trans hout, hpins', _, hc', hphase, rfl, rfl, hf _,
    fun j => (readByte_congr _ c _ _ rfl rfl).trans (hf j)⟩

theorem record_in8_toRecord (i : Fin 8) (s : State) :
    (runEntries (in8 (.toRecord i)) s).record = s.record.set i (runEntries (in8 (.toRecord i)) s).shreg := by
  obtain ⟨t, ht, hrec, -⟩ := in8_transfer (.toRecord i) s
  rw [ht, ← hrec]; rfl

/-- Bytes of consecutive index received into `REC`. -/
theorem Streams.record (h : Streams f k s) (ks : List (Fin 8)) (hks : ks.map Fin.val = List.range' k ks.length)
    (j : Fin 8) :
    (runEntries ((ks.map Transfer.toRecord).flatMap in8) s).record.get j = if j ∈ ks then f j else s.record.get j := by
  induction ks generalizing k s with
  | nil => rfl
  | cons i rest ih =>
    rw [List.map_cons, List.length_cons, List.range'_succ, List.cons.injEq] at hks
    obtain ⟨hi, hrest⟩ := hks
    obtain ⟨hsh, hnext⟩ := h.next (.toRecord i) (by simp)
    rw [List.map_cons, List.flatMap_cons, runEntries_append, ih hnext hrest, record_in8_toRecord, hsh]
    by_cases hj : j = i
    · subst hj; simp [hi]
    · simp [hj, record_get_set_ne _ _ _ _ hj]

end

/-- A read frame into the whole of `REC`. -/
theorem memRead_record (a : Byte) (s : State) (c : Chip) (hr : atRest s = true) (hq : ChipQuiet s c)
    (ha : phaseAfterCommand a = .rdata) (j : Fin 8) :
    (runEntries (memRead a (byteOrder.map .toRecord)) s).record.get j = Chip.readByte { c with latch := c.ck } a j := by
  rw [memRead, runEntries_append, runEntries_append, (runEntries_record (stopList .none) _ rfl).1,
    (streams_begun a s c hr hq ha).record byteOrder (by decide), if_pos (by revert j; decide)]

/-- BREAD begun at rest with a quiet chip reads its eight registers into `REC`. -/
theorem exec_bread_record (a d : Byte) (s : State) (c : Chip) (hp : s.params = Config.params) (hb : s.busy = false)
    (hr : atRest s = true) (hq : ChipQuiet s c) :
    ∃ t, exec (.bread a d) s = .next t ∧ ∀ k : Fin 8, t.record.get k = bankGet c.ck k := by
  obtain ⟨t, ht, -⟩ := exec_marks (.bread a d) s
  obtain ⟨b, hleaves⟩ := exec_leavesAs _ s t ht
  refine ⟨t, ht, fun k => ?_⟩
  rw [hleaves.record, stepsOf_idle _ s hb, instrList, breadList, hp,
    memRead_record (toReadAddress Config.params.cmdBurst) (mark b s) c hr hq (by decide)]
  have h31 : cbReg (toReadAddress Config.params.cmdBurst) = 31 := by decide
  have hclock : cbRam (toReadAddress Config.params.cmdBurst) = false := by decide
  simp [Chip.readByte, h31, hclock]

/-! ### The record and the registers -/

theorem record_ext (r q : Record) (h : ∀ k, r.get k = q.get k) : r = q := by
  obtain ⟨_, _, _, _, _, _, _, _⟩ := r
  obtain ⟨_, _, _, _, _, _, _, _⟩ := q
  exact Record.mk.injEq .. ▸ ⟨h 0, h 1, h 2, h 3, h 4, h 5, h 6, h 7⟩

theorem getD_bytes (r : Record) (k : Fin 8) : r.bytes.getD k 0 = r.get k := by
  fin_cases k <;> rfl

theorem and_eq_left_of_and_not (x m : Byte) (h : x &&& ~~~m = 0) : x &&& m = x := by
  calc x &&& m = x &&& m ||| x &&& ~~~m := by rw [h]; exact BitVec.or_zero.symm
    _ = x := by ext i; simp [← Bool.and_or_distrib_left]

/-- A record within the bits the chip implements is what its commit leaves in the registers. -/
theorem bankGet_burstCommit_record (ck : Vector Byte 9) (r : Record) (k : Fin 8)
    (h : r.get k &&& ~~~bankGet chipMask k = 0) : bankGet (burstCommit ck r.bytes) k = r.get k := by
  rw [burstCommit, bankGet_ofFn _ _ (by omega), if_pos k.isLt, getD_bytes]
  exact and_eq_left_of_and_not _ _ h

/-- A halted chip does not advance (20_memory.md R60). -/
theorem advanceChip_halted (t : Vector Byte 7) (s : State) (c : Chip) (hc : s.chip = some c) (hh : c.halted = true) :
    advanceChip t s = s := by
  have hadvance : s.chip.map (Chip.advance t) = s.chip := by simp [hc, Chip.advance, hh]
  rw [advanceChip, hadvance]

theorem advances_halted (times : List (Vector Byte 7)) (s : State) (c : Chip) (hc : s.chip = some c)
    (h : c.halted = true ∨ times = []) : times.foldl (fun x time => advanceChip time x) s = s := by
  obtain hh | rfl := h
  · exact List.foldl_fixed' (fun time => advanceChip_halted time s c hc hh) times
  · rfl

/-- Settles O43: the registers hold the record from the commit to the burst read, since no advance reaches them. -/
theorem recordRoundTrip : Obligations.RecordRoundTrip := by
  intro s c scrambled times a d a' d' hp hb hr hq hwp hmask hstill
  obtain ⟨t, c', ht, htp, htb, htr, hq', hm⟩ := exec_bwrite_chip a d s c hp hb hr hq
  have hregs (k : Fin 8) : bankGet c'.ck k = s.record.get k := by
    rw [hm.ck, hwp]
    exact bankGet_burstCommit_record c.ck s.record k (hmask k)
  have hhalted : c'.halted = s.record.haltFlag := congrArg (BitVec.getLsbD · 7) (hregs 0)
  obtain ⟨u, hu, hrec⟩ := exec_bread_record a' d' { t with record := scrambled } c' htp htb htr hq'
  refine ⟨t, u, ht, ?_, record_ext _ _ fun k => (hrec k).trans (hregs k)⟩
  rw [advances_halted times { t with record := scrambled } c' hq'.1 (by rwa [hhalted])]
  exact hu

end Sys2Proof.Machine
end

section
/-! PROOFS. Decoding and encoding, each undone by the other, also through bytes, and the row a command word selects
(30_encoding.md R71, R72, R73, R76). -/

namespace Sys2Proof.Laws

open Sys2Proof Sys2Proof.Machine Sys2Proof.Safety

/-! ### Command words -/

theorem encode_decodeCommand (w : CmdWord) : encode (decodeCommand w) = .command w := by
  have fields (o : BitVec 3) (h : opField w = o) : commandWord o (addrField w) (dataField w) = w := by
    rw [← h, commandWord_fields]
  rcases decodeCommand_cases w with h | h | h | h | h | h | h | h
  all_goals
    rw [h.2]
    exact congrArg Code.command (fields _ h.1)

theorem wellFormed_decodeCommand (w : CmdWord) : (decodeCommand w).wellFormed = true := by
  rcases decodeCommand_cases w with h | h | h | h | h | h | h | h <;> rw [h.2] <;> rfl

/-! ### Command bytes -/

/-- A command byte is its bits 7:1 and the read flag (30_encoding.md R75). -/
theorem append_readFlag (b : Byte) : b.extractLsb' 1 7 ++ BitVec.ofBool (b.getLsbD 0) = b := by
  apply BitVec.eq_of_getLsbD_eq
  intro i hi
  cases i with
  | zero => rw [BitVec.getLsbD_append]; simp
  | succ n => rw [BitVec.getLsbD_append]; simp [Nat.add_comm]; omega

/-- What a command byte decodes to: the row that names it, or else the generic form with its bits 7:1 (log entry 12). -/
theorem decodeByte_cases (b : Byte) :
    (b = 0x8E ∧ decodeByte b = .cbWpWrite) ∨ (b = 0x90 ∧ decodeByte b = .cbTcsWrite) ∨
    (b = 0xBE ∧ decodeByte b = .cbBurstWrite) ∨ (b = 0xBF ∧ decodeByte b = .cbBurstRead) ∨
    (b = 0x80 ∧ decodeByte b = .cbSecWrite) ∨ (b = 0x81 ∧ decodeByte b = .cbSecRead) ∨
    (∃ a, a ∉ namedWriteForms ∧ b = a ++ 0#1 ∧ decodeByte b = .cbAnyWrite a) ∨
    (∃ a, a ∉ namedReadForms ∧ b = a ++ 1#1 ∧ decodeByte b = .cbAnyRead a) := by
  unfold decodeByte
  split
  iterate 6
    · next h => simp [← BitVec.toNat_inj, h]
  next h1 h2 h3 h4 h5 h6 =>
    have hb := append_readFlag b
    generalize b.extractLsb' 1 7 = a at hb ⊢
    cases hf : b.getLsbD 0 <;> rw [hf] at hb
    · have hn : a ∉ namedWriteForms := by
        intro hc
        fin_cases hc <;> subst hb <;> contradiction
      simp [hn, ← hb]
    · have hn : a ∉ namedReadForms := by
        intro hc
        fin_cases hc <;> subst hb <;> contradiction
      simp [hn, ← hb]

theorem encode_decodeByte (b : Byte) : encode (decodeByte b) = .wire b := by
  rcases decodeByte_cases b with ⟨rfl, h⟩ | ⟨rfl, h⟩ | ⟨rfl, h⟩ | ⟨rfl, h⟩ | ⟨rfl, h⟩ | ⟨rfl, h⟩ | ⟨a, -, rfl, h⟩ |
    ⟨a, -, rfl, h⟩ <;> rw [h] <;> rfl

theorem wellFormed_decodeByte (b : Byte) : (decodeByte b).wellFormed = true := by
  rcases decodeByte_cases b with ⟨-, h⟩ | ⟨-, h⟩ | ⟨-, h⟩ | ⟨-, h⟩ | ⟨-, h⟩ | ⟨-, h⟩ | ⟨a, hn, -, h⟩ | ⟨a, hn, -, h⟩
  iterate 6
    · rw [h]; rfl
  all_goals simp [h, Instr.wellFormed, hn]

/-- A write form that no row names decodes to the generic one; there are 128 forms. -/
theorem decodeByte_writeForm (a : BitVec 7) (h : a ∉ namedWriteForms) : decodeByte (a ++ 0#1) = .cbAnyWrite a := by
  revert a; decide

/-- A read form that no row names decodes to the generic one; there are 128 forms. -/
theorem decodeByte_readForm (a : BitVec 7) (h : a ∉ namedReadForms) : decodeByte (a ++ 1#1) = .cbAnyRead a := by
  revert a; decide

/-! ### The round trips -/

/-- Settles O2: a command word's fields are read back, a named byte's row stands first, and any other byte is generic. -/
theorem decodeOfEncode : Obligations.DecodeOfEncode := by
  intro i hi
  cases i with
  | init | wrreg | rdreg | rd1 | bwrite | bread | sample | reserved => simp [encode, decode, decodeCommand]
  | cbWpWrite | cbTcsWrite | cbBurstWrite | cbBurstRead | cbSecWrite | cbSecRead => rfl
  | cbAnyWrite a => exact decodeByte_writeForm a (by simpa [Instr.wellFormed] using hi)
  | cbAnyRead a => exact decodeByte_readForm a (by simpa [Instr.wellFormed] using hi)

/-- The three bytes of a command word, cut to the width of the command port, are the word (log entry 18). -/
theorem setWidth_bytes (o : BitVec 3) (a d : Byte) :
    (o.setWidth 8 ++ a ++ d).setWidth 19 = commandWord o a d := by
  apply BitVec.eq_of_toNat_eq
  rw [BitVec.toNat_setWidth, commandWord_toNat, BitVec.toNat_append, BitVec.toNat_append,
    ← Nat.shiftLeft_add_eq_or_of_lt d.isLt, ← Nat.shiftLeft_add_eq_or_of_lt a.isLt, BitVec.toNat_setWidth,
    Nat.shiftLeft_eq, Nat.shiftLeft_eq]
  omega

/-- The three bytes of a command word hold all of it, and nothing above bit 18 (log entry 18). -/
theorem codeOfBytes_bytesOfCode (c : Code) : codeOfBytes (bytesOfCode c) = .ok c := by
  cases c with
  | wire b => rfl
  | command w =>
    have htop : ((w.extractLsb' 16 3).setWidth 8).toNat < 8 := by
      rw [BitVec.toNat_setWidth, field_toNat]; omega
    have hw := (setWidth_bytes (opField w) (addrField w) (dataField w)).trans (commandWord_fields w)
    exact (if_pos htop).trans (congrArg (fun v => Except.ok (Code.command v)) hw)

/-- Settles O3: the operation code or the byte names the instruction, whose code has the same fields. -/
theorem encodeOfDecode : Obligations.EncodeOfDecode := by
  intro c
  have hcode : encode (decode c) = c := by
    cases c with
    | command w => exact encode_decodeCommand w
    | wire b => exact encode_decodeByte b
  have hwf : (decode c).wellFormed = true := by
    cases c with
    | command w => exact wellFormed_decodeCommand w
    | wire b => exact wellFormed_decodeByte b
  exact ⟨hcode, hwf, decode c, by rw [decodeBytes, codeOfBytes_bytesOfCode], hcode⟩

/-- Settles O1: each word evaluated. -/
theorem tableWordsDecode : Obligations.TableWordsDecode := by
  unfold Obligations.TableWordsDecode
  decide

/-! ### The rows of the table -/

/-- The mnemonic of an operation code (30_encoding.md R72). -/
def opMnemonic (o : BitVec 3) : String := (decodeCommand (commandWord o 0 0)).mnemonic

theorem mnemonic_decodeCommand (w : CmdWord) : (decodeCommand w).mnemonic = opMnemonic (opField w) := by
  rcases decodeCommand_cases w with h | h | h | h | h | h | h | h <;> rw [h.1, h.2] <;> rfl

/-- Each operation code has a row of its own, which tests the code and nothing else (30_encoding.md R72). -/
theorem commandRows_eq : commandRows =
    [0, 1, 2, 3, 4, 5, 6, 7].map fun o => ⟨opMnemonic o, commandWord o 0 0, 0x70000⟩ := rfl

theorem opMnemonic_inj (o p : BitVec 3) (h : opMnemonic o = opMnemonic p) : o = p := by
  revert o p; decide

/-- Settles O4: masked, a word is its operation code, and both the patterns and the mnemonics tell the codes apart. -/
theorem commandWordSelectsItsRow : Obligations.CommandWordSelectsItsRow := by
  intro w r hr
  rw [commandRows_eq] at hr
  obtain ⟨o, -, rfl⟩ := List.mem_map.1 hr
  have hmask : w &&& 0x70000 = commandWord (opField w) 0 0 := by
    have h := commandWord_masked (opField w) (addrField w) (dataField w)
    rwa [commandWord_fields] at h
  change w &&& 0x70000 = commandWord o 0 0 ↔ (decodeCommand w).mnemonic = opMnemonic o
  rw [hmask, mnemonic_decodeCommand]
  constructor
  · intro h
    have hop : opField w = o := by simpa using congrArg opField h
    rw [hop]
  · intro h
    rw [opMnemonic_inj _ _ h]

/-! ### The reserved code -/

/-- Settles O19: acceptance alone, its mark, and the mnemonic of every operation code. -/
theorem reservedCodeDoesNothing : Obligations.ReservedCodeDoesNothing := by
  refine ⟨fun s a d hb => ?_, fun s w rest hb hs hop hi => ?_, fun w => ?_⟩
  · refine (whenIdle_idle (accept 0b111 a d false) s hb).trans ?_
    rw [← hb]; rfl
  · exact contractStep_word s rest w _ hs hb (.inl hi) (by rw [hop]; rfl)
  · rw [mnemonic_decodeCommand]
    generalize opField w = o
    revert o; decide

end Sys2Proof.Laws
end

section
/-! PROOFS. What the operand fields reach, and the rows of format CB as the frames of the operations (30_encoding.md R73,
R75, R76, R77; log entry 7). -/

namespace Sys2Proof.Machine

open Sys2Proof.Safety

/-! ### The operand fields -/

/-- WRREG alone is marked for its address. -/
theorem breachOf_addr (op : BitVec 3) (a a' : Byte) (s : State) (h : op.toNat ≠ 1) :
    breachOf op a' s = breachOf op a s := by
  unfold breachOf
  split
  case h_2 h1 => exact absurd h1 h
  all_goals rfl

/-- Two LINK operations of one list and one mark end in states that differ in the latches of acceptance alone. -/
theorem perform_relatch (op : BitVec 3) (a d : Byte) (es : List Entry) (s : State) (hb : s.busy = false) :
    ∃ t, whenIdle (perform op a d es) s = .next t ∧ t.op = op ∧ t.addr = a ∧ t.data = d ∧
      ∀ op' a' d', breachOf op' a' s = breachOf op a s →
        whenIdle (perform op' a' d' es) s = .next { t with op := op', addr := a', data := d' } := by
  refine ⟨_, (whenIdle_idle _ s hb).trans (congrArg _ (perform_eq op a d es s)), rfl, rfl, rfl, fun op' a' d' hm => ?_⟩
  rw [whenIdle_idle _ s hb, perform_eq, hm]
  rfl

/-- An operation whose list depends on neither field only latches them (30_encoding.md R73). -/
theorem perform_ignores (op : BitVec 3) (a d a' d' : Byte) (es : List Entry) (s : State) (hop : op.toNat ≠ 1)
    (hb : s.busy = false) :
    ∃ t, whenIdle (perform op a d es) s = .next t ∧ t.addr = a ∧ t.data = d ∧
      whenIdle (perform op a' d' es) s = .next { t with addr := a', data := d' } := by
  obtain ⟨t, ht, rfl, ha, hd, hrelatch⟩ := perform_relatch op a d es s hb
  exact ⟨t, ht, ha, hd, hrelatch t.op a' d' (breachOf_addr t.op a a' s hop)⟩

/-- An operation whose list does not depend on `data` only latches it (30_encoding.md R73). -/
theorem perform_ignores_data (op : BitVec 3) (a d d' : Byte) (es : List Entry) (s : State) (hb : s.busy = false) :
    ∃ t, whenIdle (perform op a d es) s = .next t ∧ t.data = d ∧
      whenIdle (perform op a d' es) s = .next { t with data := d' } := by
  obtain ⟨t, ht, rfl, rfl, hd, hrelatch⟩ := perform_relatch op a d es s hb
  exact ⟨t, ht, hd, hrelatch t.op t.addr d' rfl⟩

/-- Settles O20: of the lists only WRREG's depends on `data`, and only WRREG's and the single reads' depend on `addr`. -/
theorem ignoredFieldsOnlyReachTheLatches : Obligations.IgnoredFieldsOnlyReachTheLatches := by
  intro s a d a' d' hb
  refine ⟨?_, ?_, ?_, ?_, ?_, ?_, ?_⟩
  · exact perform_ignores 0b000 a d a' d' _ s (by decide) hb
  · exact perform_ignores_data 0b010 a d d' _ s hb
  · exact perform_ignores_data 0b011 a d d' _ s hb
  · exact perform_ignores 0b100 a d a' d' _ s (by decide) hb
  · exact perform_ignores 0b101 a d a' d' _ s (by decide) hb
  · exact ⟨_, whenIdle_idle (fun t => sampleButtons (accept 0b110 a d false t)) s hb, rfl, rfl,
      whenIdle_idle (fun t => sampleButtons (accept 0b110 a' d' false t)) s hb⟩
  · exact ⟨_, whenIdle_idle (accept 0b111 a d false) s hb, rfl, rfl, whenIdle_idle (accept 0b111 a' d' false) s hb⟩

/-! ### The read flag -/

/-- The read flag is forced: a command byte that has it keeps it (30_encoding.md R75). -/
theorem toReadAddress_toReadAddress (a : Byte) : toReadAddress (toReadAddress a) = toReadAddress a := by
  rw [toReadAddress, toReadAddress, BitVec.or_assoc, BitVec.or_self]

theorem toReadAddress_readForm (a : BitVec 7) : toReadAddress (a ++ 1#1) = a ++ 1#1 := by
  revert a; decide

/-- Settles O24: both forms of a register send the same list, and RD1 the list of RDREG. -/
theorem readFlagIsForced : Obligations.ReadFlagIsForced := by
  intro s a d hb
  have hlist : rdregList (toReadAddress a) = rdregList a := by rw [rdregList, rdregList, toReadAddress_toReadAddress]
  obtain ⟨t, ht, hop, rfl, rfl, hrelatch⟩ := perform_relatch 0b010 a d (rdregList a) s hb
  refine ⟨t, ht, ?_, hrelatch 0b011 t.addr t.data rfl⟩
  have hodd := hrelatch 0b010 (toReadAddress t.addr) t.data rfl
  rw [← hlist] at hodd
  exact hodd.trans (by rw [hop]; rfl)

/-! ### The rows of format CB -/

/-- A frame by itself keeps the latches of acceptance (log entry 7). -/
theorem keepsLatches_sendFrame (b : Option Breach) (es : List Entry) (s : State) : KeepsLatches s (sendFrame b es s) := by
  simp [KeepsLatches, sendFrame]

/-- An operation on an idle block is its frame by itself, but for the latches. -/
theorem frame_of_operation (op : BitVec 3) (a d : Byte) (u : BitVec 9) (es : List Entry) (s : State)
    (f : State → State) (hf : f s = sendFrame (breachOf op a s) es s) (hu : BitVec.ofNat 9 (min es.length upcMax) = u)
    (hb : s.busy = false) :
    ∃ t, whenIdle f s = .next t ∧ KeepsLatches s t ∧
      whenIdle (perform op a d es) s = .next { t with op := op, addr := a, data := d, upc := u } := by
  have hk := keepsLatches_sendFrame (breachOf op a s) es s
  refine ⟨_, (whenIdle_idle f s hb).trans (congrArg _ hf), hk, ?_⟩
  obtain ⟨-, -, -, -, hbusy⟩ := hk
  rw [whenIdle_idle _ s hb, perform_eq, ← sendFrame_eq, hu, State.withLatches, ← hb, ← hbusy]

/-- A write frame of one byte is WRREG's, but for the latches. -/
theorem writeFrame_wrreg (c v : Byte) (s : State) (hb : s.busy = false) :
    ∃ t, whenIdle (writeFrame c v) s = .next t ∧ KeepsLatches s t ∧
      exec (.wrreg c v) s = .next { t with op := 0b001, addr := c, data := v, upc := 101 } :=
  frame_of_operation 0b001 c v 101 (wrregList c v) s (writeFrame c v) rfl rfl hb

/-- A write frame of the byte in `DATA` is WRREG's, but for the latches other than `DATA`. -/
theorem writeFrame_wrreg_data (c : Byte) (s : State) (hb : s.busy = false) :
    ∃ t, whenIdle (writeFrame c s.data) s = .next t ∧ KeepsLatches s t ∧
      exec (.wrreg c s.data) s = .next { t with op := 0b001, addr := c, upc := 101 } := by
  obtain ⟨t, ht, hk, hw⟩ := writeFrame_wrreg c s.data s hb
  obtain ⟨hop, haddr, hdata, hrest⟩ := hk
  exact ⟨t, ht, ⟨hop, haddr, hdata, hrest⟩, hw.trans (by rw [← hdata])⟩

/-- Settles O22: the frame of each row is the list of WRREG or of BWRITE. -/
theorem writeCommandBytesSendTheirFrame : Obligations.WriteCommandBytesSendTheirFrame := by
  intro s hb
  refine ⟨writeFrame_wrreg _ _ s hb, writeFrame_wrreg _ _ s hb, ?_, writeFrame_wrreg_data _ s hb,
    fun a => writeFrame_wrreg_data _ s hb⟩
  have hburst : sendFrame (breachOf 0b100 s.params.cmdBurst s) (bwriteList s.params s.record) s =
      sendFrame (breachOf 0b100 0x00 s) (bwriteList s.params s.record) s := by
    rw [breachOf_addr 0b100 0x00 _ s (by decide)]
  exact frame_of_operation 0b100 0x00 0x00 436 (bwriteList s.params s.record) s
    (fun t => sendFrame (breachOf 0b100 t.params.cmdBurst t) (bwriteList t.params t.record) t) hburst
    (by rw [bwriteList, length_memWrite]; rfl) hb

/-- Settles O23: the frame of each row is the list of BREAD, RD1 or RDREG. -/
theorem readCommandBytesSendTheirFrame : Obligations.ReadCommandBytesSendTheirFrame := by
  intro s hb
  refine ⟨?_, ?_, fun a => ?_⟩
  · exact frame_of_operation 0b101 0x00 0x00 372 (breadList s.params) s
      (readFrame (toReadAddress s.params.cmdBurst) (byteOrder.map .toRecord)) rfl
      (by rw [breadList, length_memRead]; rfl) hb
  · exact frame_of_operation 0b011 s.params.cmdSec 0x00 92 (rd1List s.params.cmdSec) s
      (readFrame (toReadAddress s.params.cmdSec) [.toRdata]) rfl rfl hb
  · have hframe : readFrame (a ++ 1#1) [.toRdata] s = sendFrame (breachBeforeInit s) (rdregList (a ++ 1#1)) s := by
      rw [readFrame, rdregList, toReadAddress_readForm]
    exact frame_of_operation 0b010 (a ++ 1#1) 0x00 92 (rdregList (a ++ 1#1)) s (readFrame (a ++ 1#1) [.toRdata]) hframe
      rfl hb

end Sys2Proof.Machine
end

section
/-! PROOFS. WRREG of an odd command byte: when the block and the chip drive IO at once (30_encoding.md R80 (a),
93_implementation_defined.md U5). -/

namespace Sys2Proof.Machine

open Sys2Proof.Safety

/-! ### A chip that drives IO does so until its frame ends -/

/-- The micro-operation neither lowers CE nor turns it. -/
def MicroOp.keepsFrame (m : MicroOp) : Bool :=
  match m with
  | .dir .ce _ => false
  | .lvl .ce false => false
  | _ => true

theorem driven_ce_keepsFrame (m : MicroOp) (s : State) (h : m.keepsFrame = true) :
    driven (m.onPins s) .ce = driven s .ce ∨ driven (m.onPins s) .ce ≠ some false := by
  cases m with
  | dir p d =>
    cases p with
    | ce => cases h
    | sclk | io => exact .inl rfl
  | lvl p v =>
    cases p with
    | ce =>
      cases v with
      | false => cases h
      | true =>
        refine .inr ?_
        cases hd : s.pinDir.ce <;> simp [driven, PinLatch.get, PinLatch.set, MicroOp.dirAfter, MicroOp.outAfter, hd]
    | sclk | io => exact .inl rfl
  | get | nop2 => exact .inl rfl

/-- A falling edge of CE ends at a line driven low that was not so before. -/
theorem edgeBetween_ceFall (s t : State) (h : edgeBetween s t = .ceFall) :
    driven t .ce = some false ∧ driven s .ce ≠ some false := by
  unfold edgeBetween at h
  split at h
  · split at h <;> cases h
  · cases h
  · cases h
  · next ht hlow => exact ⟨ht, hlow⟩
  · cases h

theorem edgeBetween_keepsFrame (m : MicroOp) (s : State) (h : m.keepsFrame = true) :
    edgeBetween s (m.onPins s) ≠ .ceFall := by
  intro he
  obtain ⟨hlow, hs⟩ := edgeBetween_ceFall _ _ he
  rcases driven_ce_keepsFrame m s h with hd | hd
  · exact hs (hd.symm.trans hlow)
  · exact hd hlow

theorem store_drive (c : Chip) (a : Nat) (w : Byte) (r : Bool) : (c.store a w r).drive = c.drive := by
  obtain ⟨_, _, e⟩ | ⟨_, e⟩ | ⟨_, _, e⟩ | ⟨_, _, e⟩ | e := store_cases c a w r <;> rw [e]

theorem takeByte_drive (c : Chip) (w : Byte) : (c.takeByte w).drive = c.drive := by
  unfold Chip.takeByte
  split
  · cases cbRam c.cmd
    · rfl
    · exact store_drive ..
  · exact store_drive ..

theorem clockRise_drive (c : Chip) (b : Bool) : (c.clockRise b).drive = c.drive := by
  unfold Chip.clockRise
  split
  · unfold Chip.commandBit
    dsimp only
    split
    · split <;> rfl
    · rfl
  · unfold Chip.dataBit
    dsimp only
    split
    · exact takeByte_drive ..
    · rfl
  all_goals rfl

theorem clockFall_drive (c : Chip) (h : c.clockFall.drive = none) : c.drive = none := by
  unfold Chip.clockFall at h
  split at h
  · split at h <;> cases h
  all_goals exact h

/-- Only the end of a frame takes the chip off IO (20_memory.md R57, R58). -/
theorem react_drive (e : ChipEdge) (b : Bool) (c : Chip) (he : e ≠ .ceFall) (h : (c.react e b).drive = none) :
    c.drive = none := by
  cases e with
  | none | ceRise => exact h
  | ceFall => exact absurd rfl he
  | sclkRise => exact (clockRise_drive c b).symm.trans h
  | sclkFall => exact clockFall_drive c h

theorem peerDrive_io (s : State) : peerDrive s .io = s.chip.bind (·.drive) := by
  cases h : s.chip <;> simp [peerDrive, h]

theorem entryExec_peerDrive (e : Entry) (s : State) (he : e.op.keepsFrame = true)
    (h : peerDrive (e.exec s) .io = none) : peerDrive s .io = none := by
  rw [peerDrive_io] at h ⊢
  rw [entryExec_chip, microExec_chip] at h
  cases hc : s.chip with
  | none => rfl
  | some c =>
    rw [hc] at h
    exact react_drive _ _ c (edgeBetween_keepsFrame e.op s he) h

/-- A chip that drives nothing after steps of one frame drove nothing before them. -/
theorem runEntries_peerDrive (es : List Entry) (s : State) (hes : es.all (fun e => e.op.keepsFrame) = true)
    (h : peerDrive (runEntries es s) .io = none) : peerDrive s .io = none := by
  induction es generalizing s with
  | nil => exact h
  | cons e rest ih =>
    rw [List.all_cons, Bool.and_eq_true] at hes
    exact entryExec_peerDrive e s hes.1 (ih _ hes.2 h)

/-! ### Contention on IO -/

theorem contended_eq (s : State) : contended s = (s.pinDir.io && (peerDrive s .io).isSome) := by
  unfold contended line driven
  cases hd : s.pinDir.io <;> cases peerDrive s .io <;> simp [PinLatch.get, hd]

/-- The chip sees no edge where the lines stay as they are. -/
theorem edgeBetween_same (s t : State) (h : ∀ p, driven t p = driven s p) : edgeBetween s t = .none := by
  unfold edgeBetween
  rw [h .ce, h .sclk]
  rcases driven s .ce with _ | _ | _
  · rfl
  · rfl
  · rcases driven s .sclk with _ | _ | _ <;> rfl

theorem chip_nop2 (s : State) : (MicroOp.nop2.exec s).chip = s.chip := by
  rw [microExec_chip, edgeBetween_same s (MicroOp.nop2.onPins s) fun _ => rfl]
  cases s.chip <;> rfl

theorem contended_nop2 (s : State) : contended (runEntries [{ op := .nop2 }] s) = contended s := by
  rw [contended_eq, contended_eq, peerDrive_io, peerDrive_io]
  simp only [runEntries_cons, runEntries_nil, entryExec_chip, chip_nop2]
  rfl

/-- A command byte sent up to where the line turns round for a read: the chip has taken it and drives nothing yet. -/
theorem peerDrive_commandByte (a : Byte) (s : State) (c : Chip) (hr : atRest s = true) (hq : ChipQuiet s c) :
    peerDrive (runEntries (startList ++ out8 a true) s) .io = none := by
  obtain ⟨hc, hd⟩ := hq
  rw [runEntries_append, peerDrive_io,
    chip_out8_release a _ c.select (sendPins_start s hr) (chip_start s c hr hc) hd rfl rfl rfl]
  exact (commanded_drive c.select a).trans hd

/-- The falling edge after an odd command byte makes the chip drive the line on which the block still sends. -/
theorem contended_commandByte (a : Byte) (s : State) (c : Chip) (hr : atRest s = true) (hq : ChipQuiet s c)
    (hodd : cbRead a = true) (hone : cbOne a = true) : contended (runEntries (startList ++ out8 a false) s) = true := by
  obtain ⟨⟨hpins, -⟩, hc⟩ := frame_begun a s c hr hq
  have hphase : (c.select.commanded a).phase = .rdata := by
    rw [commanded_phase, phaseAfterCommand, hone, hodd]; rfl
  have hdrive : (c.select.commanded a).clockFall.drive.isSome = true := by
    unfold Chip.clockFall
    rw [hphase]
    dsimp only
    split <;> rfl
  rw [contended_eq, peerDrive_io, hc, hpins]
  exact hdrive

/-- WRREG of an odd command byte is marked, whether INIT has run or not. -/
theorem breachOf_odd_ne_none (a : Byte) (s : State) (h : cbRead a = true) : breachOf 0b001 a s ≠ none := by
  cases hi : s.inited
  · rw [breachOf_beforeInit 0b001 a s (by decide) (by decide) hi]; exact Option.some_ne_none _
  · rw [breachOf_oddWrite 0b001 a s rfl hi h]; exact Option.some_ne_none _

/-- Settles O51: after its eighth clock falls the chip drives IO; a level driven earlier in the frame would have lasted to
the end of the command byte, where there is none. -/
theorem oddWriteAddressContends : Obligations.OddWriteAddressContends := by
  intro s c a d hb hr hq hodd hone
  refine ⟨fun n hn => ?_, ?_, ?_⟩
  · have hprefix : (wrregList a d).take n = (startList ++ out8 a true).take n := by
      have h49 : (wrregList a d).take 49 = (startList ++ out8 a true).take 49 := rfl
      rw [← Nat.min_eq_left hn, ← List.take_take, h49, List.take_take]
    have hsilent := peerDrive_commandByte a s c hr hq
    have hkeeps : (startList ++ out8 a true).all (fun e => e.op.keepsFrame) = true := rfl
    rw [← List.take_append_drop n (startList ++ out8 a true), runEntries_append] at hsilent
    rw [← List.take_append_drop n (startList ++ out8 a true), List.all_append, Bool.and_eq_true] at hkeeps
    rw [hprefix, contended_eq, runEntries_peerDrive _ _ hkeeps.2 hsilent]
    exact Bool.and_false _
  · have hlist : startList ++ out8 a false = (wrregList a d).take 50 ++ [{ op := .nop2 }] := rfl
    have h := contended_commandByte a s c hr hq hodd hone
    rwa [hlist, runEntries_append, contended_nop2] at h
  · obtain ⟨t, ht, -, hbreach⟩ := exec_marks (.wrreg a d) s
    refine ⟨t, ht, ?_⟩
    rw [hbreach, hb, cond_false, Ne, Option.or_eq_none_iff]
    exact fun h => breachOf_odd_ne_none a s hodd h.2

end Sys2Proof.Machine
end

section
/-! PROOFS. The pins between operations, and the placement of the settle delays and of the data line around the clock's
edges (40_link_primitives.md R104, R105, R106). -/

namespace Sys2Proof.Machine

open Sys2Proof.Safety

/-! ### The pins after an instruction -/

/-- On an idle block an instruction completes, and its list alone moves the pins. -/
theorem exec_pins (i : Instr) (s : State) (hb : s.busy = false) :
    ∃ t, exec i s = .next t ∧ t.pinDir = dirAfter (instrList i s) s.pinDir ∧
      t.pinOut = outAfter (instrList i s) s.pinOut := by
  obtain ⟨t, ht, -, -⟩ := exec_marks i s
  obtain ⟨b, hl⟩ := exec_leavesAs i s t ht
  rw [stepsOf_idle i s hb] at hl
  refine ⟨t, ht, ?_, ?_⟩
  · rw [hl.pinDir, runEntries_pinDir, mark_pinDir]
  · rw [hl.pinOut, runEntries_pinOut, mark_pinOut]

/-- After a write frame begun at rest IO is an output at the last bit sent. -/
theorem exec_pins_write (i : Instr) (s : State) (c b : Byte) (v : List Byte) (hb : s.busy = false)
    (hr : atRest s = true) (hl : instrList i s = memWrite c v .none) (hv : v.getLast? = some b) :
    ∃ t, exec i s = .next t ∧ t.pinDir = ⟨true, true, true⟩ ∧ t.pinOut = ⟨false, false, bitOf b 7⟩ := by
  obtain ⟨t, ht, hd, ho⟩ := exec_pins i s hb
  obtain ⟨⟨hce, hsclk⟩, -⟩ := (restPins_iff _ _).1 hr
  refine ⟨t, ht, ?_, ?_⟩
  · rw [hd, hl, dirAfter_memWrite, hce, hsclk]
  · rw [ho, hl, outAfter_memWrite, hv]; rfl

/-- After a read frame begun at rest IO is an input. -/
theorem exec_pins_read (i : Instr) (s : State) (c : Byte) (x : Transfer) (xs : List Transfer) (hb : s.busy = false)
    (hr : atRest s = true) (hl : instrList i s = memRead c (x :: xs)) :
    ∃ t, exec i s = .next t ∧ t.pinDir = ⟨true, true, false⟩ ∧ t.pinOut.ce = false ∧ t.pinOut.sclk = false := by
  obtain ⟨t, ht, hd, ho⟩ := exec_pins i s hb
  obtain ⟨⟨hce, hsclk⟩, -⟩ := (restPins_iff _ _).1 hr
  rw [hl, outAfter_memRead] at ho
  refine ⟨t, ht, ?_, by rw [ho], by rw [ho]⟩
  rw [hd, hl, dirAfter_memRead, hce, hsclk]

/-- Settles O21: each instruction leaves the pins as its list does: INIT's, a write frame, a read frame, or nothing. -/
theorem restStateBetweenOperations : Obligations.RestStateBetweenOperations := by
  intro s a d a7 hb
  refine ⟨?_, fun hr => ⟨?_, ?_, ?_⟩⟩
  · obtain ⟨t, ht, hd, ho⟩ := exec_pins (.init a d) s hb
    exact ⟨t, ht, hd.trans (dirAfter_initList ..), ho.trans (outAfter_initList ..)⟩
  · have write (i : Instr) (c b : Byte) (v : List Byte) := exec_pins_write i s c b v hb hr
    simp only [List.forall_mem_cons]
    exact ⟨write _ _ _ _ rfl rfl, write _ _ _ _ rfl rfl, write _ _ _ _ rfl rfl, write _ _ _ _ rfl rfl,
      write _ _ _ _ rfl rfl, write _ _ _ _ rfl rfl, write _ _ _ _ rfl rfl, List.forall_mem_nil _⟩
  · have read (i : Instr) (c : Byte) (x : Transfer) (xs : List Transfer) := exec_pins_read i s c x xs hb hr
    simp only [List.forall_mem_cons]
    exact ⟨read _ _ _ _ rfl, read _ _ _ _ rfl, read _ _ _ _ rfl, read _ _ _ _ rfl, read _ _ _ _ rfl,
      read _ _ _ _ rfl, List.forall_mem_nil _⟩
  · simp only [List.forall_mem_cons]
    exact ⟨exec_pins (.sample a d) s hb, exec_pins (.reserved a d) s hb, List.forall_mem_nil _⟩

/-! ### A check that walks a list step by step -/

/-- The list takes the check from `a` to `b`: whatever comes after the list is checked from `b`. -/
def Carries {α : Type} (check : List Entry → α → Bool) (a : α) (es : List Entry) (b : α) : Prop :=
  ∀ rest, check (es ++ rest) a = check rest b

section

variable {α : Type} {check : List Entry → α → Bool}

theorem Carries.append {a b c : α} {xs ys : List Entry} (hx : Carries check a xs b) (hy : Carries check b ys c) :
    Carries check a (xs ++ ys) c := fun rest => by
  rw [List.append_assoc, hx, hy]

theorem Carries.flatMap {ι : Type} {a : α} {f : ι → List Entry} (l : List ι) (h : ∀ i ∈ l, Carries check a (f i) a) :
    Carries check a (l.flatMap f) a := by
  induction l with
  | nil => exact fun _ => rfl
  | cons i l ih =>
    rw [List.forall_mem_cons] at h
    rw [List.flatMap_cons]
    exact h.1.append (ih h.2)

theorem Carries.check_eq {a b : α} {es : List Entry} (h : Carries check a es b) : check es a = check [] b := by
  rw [← h [], List.append_nil]

/-- The steps of INIT before its first frame (41_link_operations.md R120). -/
def initPins : List Entry :=
  [{ op := .dir .ce true }, { op := .dir .sclk true }, { op := .dir .io true },
   { op := .lvl .ce false }, { op := .lvl .sclk false }, { op := .lvl .io false }]

theorem initList_eq (p : Params) :
    initList p = initPins ++ (memWrite p.cmdWp [p.valWpOff] .none ++ memWrite p.cmdTcs [p.valTcsOff] .setInited) :=
  List.append_assoc ..

/-- The check passes through the pieces of a frame: from `idle` between frames, or from `ready` where INIT has set up the
lines, to `low` in a frame with the clock low, to `turned` where the line has turned round with the clock high, and back. -/
structure PassesFrames (check : List Entry → α → Bool) (idle ready low turned : α) : Prop where
  done : check [] idle = true
  initPins : Carries check idle initPins ready
  start_ready : Carries check ready startList low
  start_idle : Carries check idle startList low
  outBit_low : ∀ b release i, (release && i == 7) = false → Carries check low (outBit b release i) low
  outBit_high : ∀ b, Carries check low (outBit b true 7) turned
  inBit_turned : ∀ x i, Carries check turned (inBit x i) low
  inBit_low : ∀ x i, Carries check low (inBit x i) low
  stop : ∀ x, Carries check low (stopList x) idle

namespace PassesFrames

variable {idle ready low turned : α} (h : PassesFrames check idle ready low turned)

include h

theorem carries_out8 (b : Byte) : Carries check low (out8 b false) low :=
  Carries.flatMap _ fun i _ => h.outBit_low b false i rfl

theorem carries_out8_release (b : Byte) : Carries check low (out8 b true) turned := by
  have hsplit : out8 b true = [0, 1, 2, 3, 4, 5, 6].flatMap (outBit b true) ++ outBit b true 7 := by
    simp [out8, bitOrder]
  rw [hsplit]
  exact (Carries.flatMap _ fun i hi => h.outBit_low b true i (by revert i; decide)).append (h.outBit_high b)

theorem carries_in8 (x : Transfer) : Carries check low (in8 x) low :=
  Carries.flatMap _ fun i _ => h.inBit_low x i

theorem carries_in8_turned (x : Transfer) : Carries check turned (in8 x) low := by
  have hsplit : in8 x = inBit x 0 ++ [1, 2, 3, 4, 5, 6, 7].flatMap (inBit x) := rfl
  rw [hsplit]
  exact (h.inBit_turned x 0).append (Carries.flatMap _ fun i _ => h.inBit_low x i)

theorem carries_memWrite {q : α} (hq : Carries check q startList low) (c : Byte) (v : List Byte) (x : Transfer) :
    Carries check q (memWrite c v x) idle :=
  ((hq.append (h.carries_out8 c)).append (Carries.flatMap v fun b _ => h.carries_out8 b)).append (h.stop x)

theorem carries_memRead (c : Byte) (x : Transfer) (xs : List Transfer) : Carries check idle (memRead c (x :: xs)) idle := by
  have bytes : Carries check turned ((x :: xs).flatMap in8) low := by
    rw [List.flatMap_cons]
    exact (h.carries_in8_turned x).append (Carries.flatMap xs fun y _ => h.carries_in8 y)
  exact ((h.start_idle.append (h.carries_out8_release c)).append bytes).append (h.stop .none)

theorem carries_initList (p : Params) : Carries check idle (initList p) idle := by
  rw [initList_eq]
  exact h.initPins.append ((h.carries_memWrite h.start_ready _ _ _).append (h.carries_memWrite h.start_idle _ _ _))

theorem carries_of_runsList {p : Params} {i : Instr} {es : List Entry} (hl : RunsList p i es) : Carries check idle es idle := by
  cases hl with
  | init => exact h.carries_initList p
  | write c v => exact h.carries_memWrite h.start_idle c v .none
  | singleRead _ c => exact h.carries_memRead c .toRdata []
  | burstRead _ c => exact h.carries_memRead c _ _
  | nothing => exact fun _ => rfl

/-- The sequencer's list is one an instruction runs, so it passes the check. -/
theorem check_expansion (s : State) : check (expansion s) idle = true := by
  rw [expansion_eq_instrList]
  exact (h.carries_of_runsList (runsList_instrList _ s)).check_eq.trans h.done

end PassesFrames

end

/-! ### Settle delays and the data line -/

/-- The check of R106, its state the levels of SCLK and CE and whether a `NOP2` has passed since the last change. -/
def settlesFrom (es : List Entry) (q : Bool × Bool × Bool) : Bool := settles es q.1 q.2.1 q.2.2

/-- In a frame, with the clock high or low, each transition comes a `NOP2` after the one before it. -/
theorem settles_passesFrames :
    PassesFrames settlesFrom (false, false, true) (false, false, true) (false, true, true) (true, true, true) where
  done := rfl
  initPins _ := rfl
  start_ready _ := rfl
  start_idle _ := rfl
  outBit_low b release i hi _ := by rw [outBit_low b release i hi]; rfl
  outBit_high _ _ := rfl
  inBit_turned _ _ _ := rfl
  inBit_low _ _ _ := rfl
  stop _ _ := rfl

/-- Settles O36: the check passes through the pieces of a frame, so through every list made of frames. -/
theorem listsSettleBetweenTransitions : Obligations.ListsSettleBetweenTransitions :=
  settles_passesFrames.check_expansion

/-- The check of R105, its state the level of SCLK, whether a `NOP2` has passed since IO was written, and whether a rising
edge still waits for one. -/
def stableFrom (es : List Entry) (q : Bool × Bool × Bool) : Bool := stable es q.1 q.2.1 q.2.2

/-- IO is written with no `NOP2` after it in two places: before INIT's first frame, where `START` brings the `NOP2`, and
where the line turns round, where the clock is high already and falls, with a `NOP2`, before it rises again. -/
theorem stable_passesFrames :
    PassesFrames stableFrom (false, true, false) (false, false, false) (false, true, false) (true, false, false) where
  done := rfl
  initPins _ := rfl
  start_ready _ := rfl
  start_idle _ := rfl
  outBit_low b release i hi _ := by rw [outBit_low b release i hi]; rfl
  outBit_high _ _ := rfl
  inBit_turned _ _ _ := rfl
  inBit_low _ _ _ := rfl
  stop _ _ := rfl

/-- Of a bit sent, the first step alone writes `PINOUT[IO]` (40_link_primitives.md R105). -/
theorem outBit_eq_head_append (b : Byte) (release : Bool) (i : Fin 8) :
    ∃ tail : List Entry,
      outBit b release i = [{ op := .lvl .io (bitOf b i) }, { op := .nop2 }, { op := .lvl .sclk true }, { op := .nop2 }] ++
        tail ∧ ∀ e ∈ tail, ∀ v, e.op ≠ .lvl .io v := by
  refine ⟨_, rfl, ?_⟩
  cases release && i == 7 <;> simp

/-- Settles O37: the shape of a bit sent, and the check through the pieces of a frame. -/
theorem listsHoldDataAcrossRisingEdges : Obligations.ListsHoldDataAcrossRisingEdges :=
  ⟨fun b release => ⟨rfl, outBit_eq_head_append b release⟩, stable_passesFrames.check_expansion⟩

end Sys2Proof.Machine
end

section
/-! PROOFS. The sizes of the lists, and the bound of `UPC` (40_link_primitives.md R108; 41_link_operations.md R126, R127). -/

namespace Sys2Proof.Machine

open Sys2Proof.Safety

/-! ### Micro-operations, cycles, frames and `GET`s -/

/-- What a list counts step by step, whatever the levels: micro-operations, least cycles, frames and `GET`s
(41_link_operations.md R126). -/
def stepCounts (es : List Entry) : Nat × Nat × Nat × Nat := (es.length, minCycles es, frameCount es, getCount es)

/-- A command byte that is read: seven bits with a falling edge, and the bit after which the line turns round. -/
theorem out8_release_eq (b : Byte) : out8 b true = [0, 1, 2, 3, 4, 5, 6].flatMap (outBit b true) ++ outBit b true 7 := by
  simp [out8, bitOrder]

theorem stepCounts_append (xs ys : List Entry) : stepCounts (xs ++ ys) = stepCounts xs + stepCounts ys := by
  simp [stepCounts, minCycles, frameCount, getCount]

theorem stepCounts_flatMap {α : Type} {f : α → List Entry} {k : Nat × Nat × Nat × Nat} (l : List α)
    (h : ∀ x ∈ l, stepCounts (f x) = k) : stepCounts (l.flatMap f) = l.length • k := by
  induction l with
  | nil => rw [List.length_nil, zero_smul]; rfl
  | cons x rest ih =>
    rw [List.forall_mem_cons] at h
    rw [List.flatMap_cons, stepCounts_append, h.1, ih h.2, List.length_cons, succ_nsmul']

theorem stepCounts_outBit_low (b : Byte) (release : Bool) (i : Fin 8) (h : (release && i == 7) = false) :
    stepCounts (outBit b release i) = (6, 9, 0, 0) := by
  rw [outBit_low b release i h]; rfl

theorem stepCounts_out8 (b : Byte) : stepCounts (out8 b false) = (48, 72, 0, 0) := by
  rw [out8, stepCounts_flatMap bitOrder fun i _ => stepCounts_outBit_low b false i rfl]; rfl

theorem stepCounts_out8_release (b : Byte) : stepCounts (out8 b true) = (47, 70, 0, 0) := by
  have last : stepCounts (outBit b true 7) = (5, 7, 0, 0) := rfl
  rw [out8_release_eq, stepCounts_append,
    stepCounts_flatMap _ fun i hi => stepCounts_outBit_low b true i (by revert i; decide), last]
  rfl

theorem stepCounts_in8 (x : Transfer) : stepCounts (in8 x) = (40, 56, 0, 8) := by
  rw [in8, stepCounts_flatMap (k := (5, 7, 0, 1)) bitOrder fun _ _ => rfl]; rfl

theorem stepCounts_memWrite (c : Byte) (v : List Byte) (x : Transfer) :
    stepCounts (memWrite c v x) = (53 + 48 * v.length, 79 + 72 * v.length, 1, 0) := by
  have start : stepCounts startList = (3, 4, 1, 0) := rfl
  have stop : stepCounts (stopList x) = (2, 3, 0, 0) := rfl
  simp only [memWrite, stepCounts_append, stepCounts_flatMap v fun b _ => stepCounts_out8 b, stepCounts_out8, start, stop,
    Prod.smul_mk, smul_eq_mul, Prod.mk_add_mk, Prod.mk.injEq]
  omega

theorem stepCounts_memRead (c : Byte) (xs : List Transfer) :
    stepCounts (memRead c xs) = (52 + 40 * xs.length, 77 + 56 * xs.length, 1, 8 * xs.length) := by
  have start : stepCounts startList = (3, 4, 1, 0) := rfl
  have stop : stepCounts (stopList .none) = (2, 3, 0, 0) := rfl
  simp only [memRead, stepCounts_append, stepCounts_flatMap xs fun x _ => stepCounts_in8 x, stepCounts_out8_release, start,
    stop, Prod.smul_mk, smul_eq_mul, Prod.mk_add_mk, Prod.mk.injEq]
  omega

theorem stepCounts_initList (p : Params) : stepCounts (initList p) = (208, 308, 2, 0) := by
  simp only [initList_eq, stepCounts_append, stepCounts_memWrite]
  rfl

/-! ### Rising edges -/

theorem risingEdges_cons (e : Entry) (es : List Entry) (o : PinLatch) :
    risingEdges (e :: es) o.sclk = risingEdges [e] o.sclk + risingEdges es (e.op.outAfter o).sclk := by
  obtain ⟨m, x⟩ := e
  cases m with
  | lvl p v => cases p <;> simp [risingEdges, MicroOp.outAfter, PinLatch.set]
  | dir | get | nop2 => simp [risingEdges, MicroOp.outAfter]

/-- The second list makes its edges from the level `m` at which the first leaves SCLK. -/
theorem risingEdges_append (xs ys : List Entry) (l m : Bool)
    (h : ∀ o : PinLatch, o.sclk = l → (outAfter xs o).sclk = m) :
    risingEdges (xs ++ ys) l = risingEdges xs l + risingEdges ys m := by
  have key (o : PinLatch) : risingEdges (xs ++ ys) o.sclk = risingEdges xs o.sclk + risingEdges ys (outAfter xs o).sclk := by
    clear h
    induction xs generalizing o with
    | nil => exact (Nat.zero_add _).symm
    | cons e rest ih => rw [List.cons_append, risingEdges_cons, risingEdges_cons e rest, ih, Nat.add_assoc]; rfl
  have hlow := key ⟨false, l, false⟩
  rwa [h _ rfl] at hlow

/-- Pieces that each make `k` edges from a low clock and leave it low. -/
theorem risingEdges_flatMap {α : Type} {f : α → List Entry} {k : Nat} (l : List α)
    (hk : ∀ x ∈ l, risingEdges (f x) false = k)
    (hlow : ∀ x ∈ l, ∀ o : PinLatch, o.sclk = false → (outAfter (f x) o).sclk = false) :
    risingEdges (l.flatMap f) false = k * l.length := by
  induction l with
  | nil => rfl
  | cons x rest ih =>
    rw [List.forall_mem_cons] at hk hlow
    rw [List.flatMap_cons, risingEdges_append _ _ _ _ hlow.1, hk.1, ih hk.2 hlow.2, List.length_cons, Nat.mul_succ,
      Nat.add_comm]

theorem sclk_flatMap {α : Type} {f : α → List Entry} (l : List α)
    (hlow : ∀ x ∈ l, ∀ o : PinLatch, o.sclk = false → (outAfter (f x) o).sclk = false) (o : PinLatch)
    (ho : o.sclk = false) : (outAfter (l.flatMap f) o).sclk = false := by
  induction l generalizing o with
  | nil => exact ho
  | cons x rest ih =>
    rw [List.forall_mem_cons] at hlow
    rw [List.flatMap_cons, outAfter_append]
    exact ih hlow.2 _ (hlow.1 o ho)

theorem risingEdges_outBit_low (b : Byte) (release : Bool) (i : Fin 8) (h : (release && i == 7) = false) :
    risingEdges (outBit b release i) false = 1 := by
  rw [outBit_low b release i h]; rfl

theorem sclk_outBit_low (b : Byte) (release : Bool) (i : Fin 8) (o : PinLatch) (h : (release && i == 7) = false) :
    (outAfter (outBit b release i) o).sclk = false := by
  rw [outAfter_outBit_low b release i o h]

theorem risingEdges_out8 (b : Byte) : risingEdges (out8 b false) false = 8 :=
  risingEdges_flatMap bitOrder (fun i _ => risingEdges_outBit_low b false i rfl)
    fun i _ o _ => sclk_outBit_low b false i o rfl

theorem risingEdges_out8_release (b : Byte) : risingEdges (out8 b true) false = 8 := by
  have seven : ∀ i ∈ [(0 : Fin 8), 1, 2, 3, 4, 5, 6], (true && i == 7) = false := by decide
  have low (i) (hi : i ∈ [(0 : Fin 8), 1, 2, 3, 4, 5, 6]) (o : PinLatch) (_ : o.sclk = false) :=
    sclk_outBit_low b true i o (seven i hi)
  have last : risingEdges (outBit b true 7) false = 1 := rfl
  rw [out8_release_eq, risingEdges_append _ _ _ false (sclk_flatMap _ low),
    risingEdges_flatMap _ (fun i hi => risingEdges_outBit_low b true i (seven i hi)) low, last]
  rfl

theorem risingEdges_in8 (x : Transfer) : risingEdges (in8 x) false = 8 :=
  risingEdges_flatMap (k := 1) bitOrder (fun _ _ => rfl) fun i _ o _ => by rw [outAfter_inBit]

/-- The clock is high where a read turns the line round, so the first byte received has seven rising edges. -/
theorem risingEdges_in8_high (x : Transfer) : risingEdges (in8 x) true = 7 := by
  have hsplit : in8 x = inBit x 0 ++ [1, 2, 3, 4, 5, 6, 7].flatMap (inBit x) := rfl
  have rest := risingEdges_flatMap (f := inBit x) (k := 1) [1, 2, 3, 4, 5, 6, 7] (fun _ _ => rfl)
    fun i _ o _ => by rw [outAfter_inBit]
  rw [hsplit, risingEdges_append _ _ _ false, rest]
  · rfl
  · intro o _; rw [outAfter_inBit]

theorem risingEdges_memWrite (c : Byte) (v : List Byte) (x : Transfer) :
    risingEdges (memWrite c v x) false = 8 + 8 * v.length := by
  have start : risingEdges startList false = 0 := rfl
  have stop : risingEdges (stopList x) false = 0 := rfl
  have bytes := risingEdges_flatMap v (fun b _ => risingEdges_out8 b) fun b _ o _ => by rw [outAfter_out8]
  rw [memWrite, risingEdges_append _ _ _ false, risingEdges_append _ _ _ false, risingEdges_append _ _ _ false, start,
    risingEdges_out8, bytes, stop]
  · omega
  · intro o h; exact h
  · intro o _; rw [outAfter_append, outAfter_out8]
  · intro o _; rw [outAfter_append, outAfter_append, outAfter_out8, outAfter_bytes _ _ rfl]

theorem risingEdges_memRead (c : Byte) (x : Transfer) (xs : List Transfer) :
    risingEdges (memRead c (x :: xs)) false = 15 + 8 * xs.length := by
  have start : risingEdges startList false = 0 := rfl
  have stop : risingEdges (stopList .none) false = 0 := rfl
  have reads := risingEdges_flatMap xs (fun x _ => risingEdges_in8 x) fun x _ o _ => by rw [outAfter_in8]
  rw [memRead, risingEdges_append _ _ _ false, risingEdges_append _ _ _ true, risingEdges_append _ _ _ false, start,
    risingEdges_out8_release, List.flatMap_cons, risingEdges_append _ _ _ false, risingEdges_in8_high, reads, stop]
  · omega
  · intro o _; rw [outAfter_in8]
  · intro o h; exact h
  · intro o _; rw [outAfter_append, outAfter_out8_release]
  · intro o _; rw [outAfter_append, outAfter_reads]

theorem risingEdges_initList (p : Params) : risingEdges (initList p) false = 32 := by
  have pins : risingEdges initPins false = 0 := rfl
  rw [initList_eq, risingEdges_append _ _ _ false, risingEdges_append _ _ _ false, pins, risingEdges_memWrite,
    risingEdges_memWrite]
  · rfl
  · intro o _; rw [outAfter_memWrite]
  · intro o _; rfl

/-- Settles O35: INIT's list is two write frames, and each other list one frame of the operation's bytes. -/
theorem expansionSizes : Obligations.ExpansionSizes := by
  intro p a d r
  have sizes {es : List Entry} {n c f g e : Nat} (h : stepCounts es = (n, c, f, g)) (he : risingEdges es false = e) :
      (es.length, minCycles es, frameCount es, risingEdges es false, getCount es) = (n, c, f, e, g) := by
    simp only [stepCounts, Prod.mk.injEq] at h ⊢
    obtain ⟨hn, hc, hf, hg⟩ := h
    exact ⟨hn, hc, hf, he, hg⟩
  have write (c : Byte) (v : List Byte) := sizes (stepCounts_memWrite c v .none) (risingEdges_memWrite c v .none)
  have read (c : Byte) (x : Transfer) (xs : List Transfer) :=
    sizes (stepCounts_memRead c (x :: xs)) (risingEdges_memRead c x xs)
  simp only [List.map_cons, List.map_nil, wrregList, rdregList, rd1List, bwriteList, breadList, burstRead_cons,
    sizes (stepCounts_initList p) (risingEdges_initList p), write, read]
  simp [Record.bytes, byteOrder]

/-! ### The bound of `UPC` -/

theorem perform_upc_le (op : BitVec 3) (a d : Byte) (es : List Entry) (s : State) :
    (perform op a d es s).upc.toNat ≤ 436 := by
  rw [perform, finish_upc, BitVec.toNat_ofNat, upcMax]
  omega

theorem whenIdle_upc_le (f : State → State) (s t : State) (hs : s.upc.toNat ≤ 436) (hf : (f s).upc.toNat ≤ 436)
    (h : whenIdle f s = .next t) : t.upc.toNat ≤ 436 := by
  cases hb : s.busy
  · obtain rfl : f s = t := by simpa [whenIdle_idle f s hb] using h
    exact hf
  · obtain rfl : mark (some .commandWhileBusy) s = t := by simpa [whenIdle_busy f s hb] using h
    exact hs

theorem sendFrame_upc (b : Option Breach) (es : List Entry) (s : State) : (sendFrame b es s).upc = s.upc := by
  simp [sendFrame]

/-- An instruction leaves `UPC` within its bound: as `finish` leaves it, 0, or as it was. -/
theorem exec_upc_le (i : Instr) (s t : State) (hs : s.upc.toNat ≤ 436) (h : exec i s = .next t) : t.upc.toNat ≤ 436 := by
  have frame (b : Option Breach) (es : List Entry) : (sendFrame b es s).upc.toNat ≤ 436 := by rwa [sendFrame_upc]
  cases i with
  | init | wrreg | rdreg | rd1 | bwrite | bread => exact whenIdle_upc_le _ s t hs (perform_upc_le _ _ _ _ _) h
  | sample a d => exact whenIdle_upc_le (fun u => sampleButtons (accept _ a d _ u)) s t hs (Nat.zero_le _) h
  | reserved a d => exact whenIdle_upc_le (accept _ a d _) s t hs (Nat.zero_le _) h
  | cbBurstWrite =>
    exact whenIdle_upc_le (fun u => sendFrame _ (bwriteList u.params u.record) u) s t hs (frame _ _) h
  | cbWpWrite | cbTcsWrite | cbSecWrite | cbAnyWrite => exact whenIdle_upc_le (writeFrame _ _) s t hs (frame _ _) h
  | cbBurstRead | cbSecRead | cbAnyRead => exact whenIdle_upc_le (readFrame _ _) s t hs (frame _ _) h

/-- An input takes the block to a `UPC` of 0, or leaves it as it is. -/
theorem fetch_upc_le (x : Input) (s : State) (hs : s.upc.toNat ≤ 436) : (fetch x s).state.upc.toNat ≤ 436 := by
  cases x with
  | present w =>
    simp only [fetch, presentWord]
    split
    · exact Nat.zero_le _
    · exact hs
  | callIfRdata v w => simp only [fetch, callIfRdata]; split <;> exact hs
  | rst => exact Nat.zero_le _
  | call | frame | writeRec | readRec | readRdata | idle | chipTime => exact hs

theorem busyStep_upc_le (s t : State) (h : busyStep s = .next t) : t.upc.toNat ≤ 436 := by
  unfold busyStep at h
  cases hr : resetRequested s
  · rw [hr, cond_false] at h
    unfold sequencerStep at h
    split at h
    · cases h
    · cases h; exact nextUpc_le _
  · obtain rfl : resetBlock (busyInput s) = t := by simpa [hr] using h
    exact Nat.zero_le _

/-- Settles O7: an idle block's input and instruction and a busy block's step keep the bound, by the lemma of each. -/
theorem upcNeverExceeds436 : Obligations.UpcNeverExceeds436 := by
  intro s t hs h
  cases hb : s.busy
  · cases hi : s.inbox with
    | nil =>
      obtain rfl : s = t := by simpa [step, hb, hi] using h
      exact hs
    | cons x rest =>
      have hf := fetch_upc_le x { s with inbox := rest } hs
      cases hq : fetch x { s with inbox := rest } with
      | run i u =>
        rw [hq] at hf
        rw [step_idle_run s u x rest i hb hi hq] at h
        exact exec_upc_le i u t hf h
      | done u =>
        rw [hq] at hf
        obtain rfl : u = t := by simpa [step_idle_done s u x rest hb hi hq] using h
        exact hf
  · exact busyStep_upc_le s t (by simpa [step, hb] using h)

end Sys2Proof.Machine
end

section
/-! PROOFS. What the six LINK operations send, receive and leave alone (41_link_operations.md R120 to R125). -/

namespace Sys2Proof.Machine

open Sys2Proof.Safety

/-! ### What a list that reads nothing leaves alone -/

/-- The list does not clear `SHREG`. -/
def keepsShreg (es : List Entry) : Bool := es.all fun e => e.xfer != .clearShreg

/-- `SHREG` is written by a `GET` and by the clearing before one only (10_state.md R18). -/
theorem runEntries_shreg (es : List Entry) (s : State) (hk : keepsShreg es = true) (hg : getCount es = 0) :
    (runEntries es s).shreg = s.shreg := by
  induction es generalizing s with
  | nil => rfl
  | cons e rest ih =>
    obtain ⟨m, x⟩ := e
    simp only [keepsShreg, List.all_cons, Bool.and_eq_true, bne_iff_ne] at hk
    obtain ⟨hx, hrest⟩ := hk
    have hstep : (Entry.exec ⟨m, x⟩ s).shreg = m.shregAfter s := by
      rw [entryExec_shreg, beq_false_of_ne hx, cond_false]
    cases m with
    | get p i => simp [getCount] at hg
    | dir | lvl | nop2 => exact (ih _ hrest (by simpa [getCount] using hg)).trans hstep

theorem keepsShreg_of_noTransfer (es : List Entry) (h : noTransfer es = true) : keepsShreg es = true := by
  simp only [noTransfer, List.all_eq_true, beq_iff_eq] at h
  simp only [keepsShreg, List.all_eq_true]
  intro e he; rw [h e he]; rfl

theorem getCount_memWrite (c : Byte) (v : List Byte) (x : Transfer) : getCount (memWrite c v x) = 0 := by
  have h := stepCounts_memWrite c v x
  simp only [stepCounts, Prod.mk.injEq] at h
  exact h.2.2.2

theorem initList_counts (p : Params) : (initList p).length = 208 ∧ getCount (initList p) = 0 := by
  have h := stepCounts_initList p
  simp only [stepCounts, Prod.mk.injEq] at h
  exact ⟨h.1, h.2.2.2⟩

/-- The list of an instruction that reads nothing holds no `GET` and does not clear `SHREG`. -/
theorem RunsList.readsNothing {p : Params} {i : Instr} {es : List Entry} (h : RunsList p i es) (hs : ¬ IsSingleRead i)
    (hb : ¬ IsBurstRead i) : keepsShreg es = true ∧ getCount es = 0 := by
  cases h with
  | init => exact ⟨initList_transfers (· != .clearShreg) p rfl rfl, (initList_counts p).2⟩
  | write c v => exact ⟨keepsShreg_of_noTransfer _ (noTransfer_memWrite c v), getCount_memWrite c v .none⟩
  | singleRead hs' => exact absurd hs' hs
  | burstRead hb' => exact absurd hb' hb
  | nothing => exact ⟨rfl, rfl⟩

/-! ### What a LINK operation leaves alone -/

section

variable {p : Params} {i : Instr} {es : List Entry} (h : RunsList p i es) (op : BitVec 3) (a d : Byte) (s : State)

theorem perform_latchesAre (es : List Entry) (u : BitVec 9) (hu : BitVec.ofNat 9 (min es.length upcMax) = u) :
    LatchesAre op a d u (perform op a d es s) := by
  simp [LatchesAre, perform, hu]

/-- The registers that the transfers write are those the list leaves. -/
theorem perform_registers (es : List Entry) :
    (perform op a d es s).shreg = (runEntries es (accept op a d true s)).shreg ∧
    (perform op a d es s).rdata = (runEntries es (accept op a d true s)).rdata ∧
    (perform op a d es s).rdataWritten = (runEntries es (accept op a d true s)).rdataWritten ∧
    (perform op a d es s).record = (runEntries es (accept op a d true s)).record ∧
    (perform op a d es s).recWritten = (runEntries es (accept op a d true s)).recWritten ∧
    (perform op a d es s).inited = (runEntries es (accept op a d true s)).inited := by
  simp [perform]

include h

/-- An operation that reads nothing writes pins, and in INIT `INITED`, alone. -/
theorem RunsList.perform_keepsAllButPins (hs : ¬ IsSingleRead i) (hb : ¬ IsBurstRead i) :
    KeepsAllButPins { s with inited := (perform op a d es s).inited, pinDir := (perform op a d es s).pinDir }
      (perform op a d es s) := by
  obtain ⟨hk, hg⟩ := h.readsNothing hs hb
  simp [KeepsAllButPins, perform, runEntries_record es _ (h.keepsRecord hb), runEntries_rdata es _ (h.keepsRdata hs),
    runEntries_shreg es _ hk hg, runEntries_ioIn es _ hg]

theorem RunsList.perform_inited (hi : ¬ IsInit i) : (perform op a d es s).inited = s.inited := by
  simp [perform, runEntries_inited es _ (h.keepsInited hi)]

theorem RunsList.perform_pinDir (hi : ¬ IsInit i) :
    (perform op a d es s).pinDir.ce = s.pinDir.ce ∧ (perform op a d es s).pinDir.sclk = s.pinDir.sclk := by
  rw [(perform_fields op a d es s).1]
  exact h.dirAfter_eq s.pinDir hi

theorem RunsList.perform_keepsInSingleRead (hi : ¬ IsInit i) (hb : ¬ IsBurstRead i) :
    KeepsInSingleRead s (perform op a d es s) := by
  obtain ⟨hce, hsclk⟩ := h.perform_pinDir op a d s hi
  have hinited := h.perform_inited op a d s hi
  refine ⟨perform_params .., ?_, ?_, hinited, ?_, ?_, ?_, ?_, hce, hsclk⟩ <;>
    simp [perform, runEntries_record es _ (h.keepsRecord hb)]

theorem RunsList.perform_keepsInBurstRead (hi : ¬ IsInit i) (hs : ¬ IsSingleRead i) :
    KeepsInBurstRead s (perform op a d es s) := by
  obtain ⟨hce, hsclk⟩ := h.perform_pinDir op a d s hi
  have hinited := h.perform_inited op a d s hi
  refine ⟨perform_params .., ?_, ?_, hinited, ?_, ?_, ?_, ?_, hce, hsclk⟩ <;>
    simp [perform, runEntries_rdata es _ (h.keepsRdata hs)]

end

/-! ### Operations that send a write frame -/

/-- An operation of one write frame: what it sends, and what it leaves alone. -/
theorem perform_memWrite (op : BitVec 3) (a d c b : Byte) (v : List Byte) (s : State) (hv : v.getLast? = some b) :
    KeepsAllButPins s (perform op a d (memWrite c v .none) s) ∧
    (perform op a d (memWrite c v .none) s).pinDir.io = true ∧
    (perform op a d (memWrite c v .none) s).pinOut = ⟨false, false, bitOf b 7⟩ ∧
    (atRest s = true → wireSince s (perform op a d (memWrite c v .none) s) =
      [WireEvent.ceUp] ++ sentByte c ++ v.flatMap sentByte ++ [WireEvent.ceDown]) := by
  have hrun : RunsList s.params (.wrreg a d) (memWrite c v .none) := .write c v
  obtain ⟨hdir, hout, -⟩ := perform_fields op a d (memWrite c v .none) s
  refine ⟨?_, by rw [hdir, dirAfter_memWrite], ?_, fun hr => ?_⟩
  · have hkeeps := hrun.perform_keepsAllButPins op a d s (by simp [IsSingleRead]) (by simp [IsBurstRead])
    have hinited := hrun.perform_inited op a d s (by simp [IsInit])
    obtain ⟨hce, hsclk⟩ := hrun.perform_pinDir op a d s (by simp [IsInit])
    simpa only [KeepsAllButPins, hinited, hce, hsclk] using hkeeps
  · rw [hout, outAfter_memWrite, hv]; rfl
  · rw [wireSince_perform]
    exact wireOf_memWrite c v .none _ hr

/-- Settles O14: WRREG is one write frame of `data`. -/
theorem wrregSendsAddressAndData : Obligations.WrregSendsAddressAndData := by
  intro s a d hb
  obtain ⟨hkeeps, hio, hout, hwire⟩ := perform_memWrite 0b001 a d a d [d] s rfl
  have hlatches := perform_latchesAre 0b001 a d s (wrregList a d) 101 (by rw [wrregList, length_memWrite]; rfl)
  rw [List.flatMap_singleton] at hwire
  exact ⟨_, whenIdle_idle _ s hb, hlatches, hkeeps, hio, hout, hwire⟩

/-- Settles O16: BWRITE is one write frame of the eight bytes of `REC`. -/
theorem bwriteSendsTheRecord : Obligations.BwriteSendsTheRecord := by
  intro s a d hb
  obtain ⟨hkeeps, hio, hout, hwire⟩ := perform_memWrite 0b100 a d s.params.cmdBurst s.record.wp s.record.bytes s rfl
  have hlatches := perform_latchesAre 0b100 a d s (bwriteList s.params s.record) 436
    (by rw [bwriteList, length_memWrite]; rfl)
  refine ⟨_, whenIdle_idle _ s hb, hlatches, hkeeps, hio, hout, fun hr => (hwire hr).trans ?_⟩
  simp [Record.bytes, byteOrder, Record.get]

/-! ### INIT -/

/-- INIT's first steps lower lines that are low: nothing to see on the wire. -/
theorem wireOf_initPins (s : State) (ho : s.pinOut.ce = false) : wireOf initPins s = [] := by
  simp [initPins, wireOf_cons, MicroOp.event, PinEvent.seen, MicroOp.dirAfter, MicroOp.outAfter, PinLatch.set, ho]

theorem atRest_initPins (s : State) : atRest (runEntries initPins s) = true := by
  rw [atRest, runEntries_pinDir, runEntries_pinOut]; rfl

theorem atRest_memWrite (c : Byte) (v : List Byte) (x : Transfer) (s : State) (hr : atRest s = true) :
    atRest (runEntries (memWrite c v x) s) = true := by
  obtain ⟨⟨hce, hsclk⟩, -⟩ := (restPins_iff _ _).1 hr
  rw [atRest, runEntries_pinDir, runEntries_pinOut, dirAfter_memWrite, outAfter_memWrite]
  exact (restPins_iff _ _).2 ⟨⟨hce, hsclk⟩, rfl, rfl⟩

theorem wireOf_initList (p : Params) (s : State) (ho : s.pinOut.ce = false) :
    wireOf (initList p) s = [WireEvent.ceUp] ++ sentByte p.cmdWp ++ sentByte p.valWpOff ++ [WireEvent.ceDown] ++
      ([WireEvent.ceUp] ++ sentByte p.cmdTcs ++ sentByte p.valTcsOff ++ [WireEvent.ceDown]) := by
  have hrest := atRest_initPins s
  rw [initList_eq, wireOf_append, wireOf_append, wireOf_initPins s ho, wireOf_memWrite _ _ _ _ hrest,
    wireOf_memWrite _ _ _ _ (atRest_memWrite _ _ _ _ hrest), List.flatMap_singleton, List.flatMap_singleton,
    List.nil_append]

/-- The last step of INIT sets `INITED` (41_link_operations.md R126). -/
theorem inited_initList (p : Params) (s : State) : (runEntries (initList p) s).inited = true := by
  rw [initList_eq, runEntries_append, runEntries_append, memWrite, runEntries_append]; rfl

/-- Settles O13: INIT's list sets up the pins and sends two write frames, the last step setting `INITED`. -/
theorem initConfiguresPinsAndSendsTwoFrames : Obligations.InitConfiguresPinsAndSendsTwoFrames := by
  intro s a d hb
  have hrun : RunsList s.params (.init a d) (initList s.params) := .init ⟨a, d, rfl⟩
  obtain ⟨hdir, hout, -⟩ := perform_fields 0b000 a d (initList s.params) s
  rw [dirAfter_initList] at hdir
  rw [outAfter_initList] at hout
  obtain ⟨-, -, -, -, -, hinited⟩ := perform_registers 0b000 a d s (initList s.params)
  rw [inited_initList] at hinited
  have hkeeps := hrun.perform_keepsAllButPins 0b000 a d s (by simp [IsSingleRead]) (by simp [IsBurstRead])
  rw [hinited, hdir] at hkeeps
  have hlatches := perform_latchesAre 0b000 a d s (initList s.params) 208 (by rw [(initList_counts _).1]; rfl)
  refine ⟨_, whenIdle_idle _ s hb, hinited, hdir, hout, hlatches, hkeeps, fun hce _ => ?_⟩
  rw [wireSince_perform, wireOf_initList _ (accept 0b000 a d true s) hce]
  simp

/-! ### Bytes received -/

/-- A read frame from the rest state (30_encoding.md R77). -/
theorem wireOf_memRead (c : Byte) (x : Transfer) (xs : List Transfer) (s : State) (hr : atRest s = true) :
    wireOf (memRead c (x :: xs)) s = [WireEvent.ceUp] ++ sentByte c ++
      wireOf ((x :: xs).flatMap in8) (runEntries (startList ++ out8 c true) s) ++ [WireEvent.ceDown] := by
  have hs := sendPins_start s hr
  obtain ⟨⟨hce, -⟩, hoc, -⟩ := (restPins_iff _ _).1 hr
  rw [memRead, wireOf_append, wireOf_append, wireOf_append, wireOf_start s hce hoc, wireOf_out8 c true _ hs, wireOf_stop]
  · simp only [runEntries_pinDir, dirAfter_append, dirAfter_start, dirAfter_out8_release, dirAfter_reads, hce]
  · simp only [runEntries_pinOut, outAfter_append, outAfter_start, outAfter_out8_release, outAfter_reads]

/-- A read frame in three parts: the command byte sent, the bytes received, `STOP`. -/
theorem runEntries_memRead (c : Byte) (xs : List Transfer) (s : State) :
    runEntries (memRead c xs) s =
      runEntries (stopList .none) (runEntries (xs.flatMap in8) (runEntries (startList ++ out8 c true) s)) := by
  rw [memRead, runEntries_append, runEntries_append]

/-- The line has turned round for the bytes received. -/
theorem io_commandByte (c : Byte) (s : State) : (runEntries (startList ++ out8 c true) s).pinDir.io = false := by
  rw [runEntries_pinDir, dirAfter_append, dirAfter_out8_release]

/-- `STOP` leaves the received bytes where they are. -/
theorem stop_keeps (s : State) :
    (runEntries (stopList .none) s).shreg = s.shreg ∧ (runEntries (stopList .none) s).rdata = s.rdata ∧
    (runEntries (stopList .none) s).rdataWritten = s.rdataWritten ∧ (runEntries (stopList .none) s).record = s.record ∧
    (runEntries (stopList .none) s).recWritten = s.recWritten := by
  obtain ⟨hrec, hrw⟩ := runEntries_record (stopList .none) s rfl
  obtain ⟨hrd, hrdw⟩ := runEntries_rdata (stopList .none) s rfl
  exact ⟨runEntries_shreg _ s rfl rfl, hrd, hrdw, hrec, hrw⟩

/-- The read flag is bit 0; the last bit of the command byte is that of the address. -/
theorem bitOf_toReadAddress (a : Byte) : bitOf (toReadAddress a) 7 = bitOf a 7 := by
  simp [bitOf, toReadAddress, Config.readFlag]

/-! ### RDREG and RD1 -/

/-- A single read frame: `RDATA` is the byte received. -/
theorem memRead_toRdata (c : Byte) (s : State) :
    (runEntries (memRead c [.toRdata]) s).rdata =
      (runEntries (in8 .toRdata) (runEntries (startList ++ out8 c true) s)).shreg ∧
    (runEntries (memRead c [.toRdata]) s).shreg = (runEntries (memRead c [.toRdata]) s).rdata ∧
    (runEntries (memRead c [.toRdata]) s).rdataWritten = true := by
  rw [runEntries_memRead, List.flatMap_singleton]
  obtain ⟨t, ht, -⟩ := in8_transfer .toRdata (runEntries (startList ++ out8 c true) s)
  obtain ⟨hsh, hrd, hrw, -⟩ := stop_keeps (runEntries (in8 .toRdata) (runEntries (startList ++ out8 c true) s))
  rw [hsh, hrd, hrw, rdata_in8_toRdata, ht]
  exact ⟨rfl, rfl, rfl⟩

theorem wireOf_memRead_toRdata (c : Byte) (s : State) (hr : atRest s = true) :
    wireOf (memRead c [.toRdata]) s = [WireEvent.ceUp] ++ sentByte c ++
      receivedByte (runEntries (memRead c [.toRdata]) s).rdata ++ [WireEvent.ceDown] := by
  rw [wireOf_memRead c .toRdata [] s hr, (memRead_toRdata c s).1, List.flatMap_singleton,
    wireOf_in8 .toRdata _ (by decide) (io_commandByte c s)]

/-- RDREG and RD1 are one frame, but for their operation code (41_link_operations.md R123). -/
theorem perform_singleRead (op : BitVec 3) (a d : Byte) (s : State) :
    LatchesAre op a d 92 (perform op a d (rdregList a) s) ∧
    KeepsInSingleRead s (perform op a d (rdregList a) s) ∧
    (perform op a d (rdregList a) s).shreg = (perform op a d (rdregList a) s).rdata ∧
    (perform op a d (rdregList a) s).rdataWritten = true ∧
    (perform op a d (rdregList a) s).pinDir.io = false ∧
    (perform op a d (rdregList a) s).pinOut = ⟨false, false, bitOf a 7⟩ ∧
    (atRest s = true → wireSince s (perform op a d (rdregList a) s) = [WireEvent.ceUp] ++ sentByte (a ||| 0x01) ++
      receivedByte (perform op a d (rdregList a) s).rdata ++ [WireEvent.ceDown]) := by
  have hrun : RunsList s.params (.rdreg a d) (rdregList a) := .singleRead (.inl ⟨a, d, rfl⟩) _
  obtain ⟨hdir, hout, -⟩ := perform_fields op a d (rdregList a) s
  obtain ⟨hsh, hrd, hrw, -⟩ := perform_registers op a d s (rdregList a)
  obtain ⟨-, hbyte, hwritten⟩ := memRead_toRdata (toReadAddress a) (accept op a d true s)
  have hlatches := perform_latchesAre op a d s (rdregList a) 92 (by rw [rdregList, length_memRead]; rfl)
  refine ⟨hlatches, hrun.perform_keepsInSingleRead op a d s (by simp [IsInit]) (by simp [IsBurstRead]),
    hsh.trans (hbyte.trans hrd.symm), hrw.trans hwritten, ?_, ?_, fun hr => ?_⟩
  · rw [hdir, rdregList, dirAfter_memRead]
  · rw [hout, rdregList, outAfter_memRead, bitOf_toReadAddress]
  · rw [wireSince_perform, hrd]
    exact wireOf_memRead_toRdata (toReadAddress a) (accept op a d true s) hr

/-- Settles O15: RDREG and RD1 are one read frame of `addr | 1`, whose byte goes to `RDATA`. -/
theorem singleReadsAssembleTheAnswer : Obligations.SingleReadsAssembleTheAnswer := fun s a d hb =>
  ⟨⟨_, whenIdle_idle _ s hb, perform_singleRead 0b010 a d s⟩, ⟨_, whenIdle_idle _ s hb, perform_singleRead 0b011 a d s⟩⟩

/-! ### BREAD -/

theorem shreg_in8_toRecord (k : Fin 8) (s : State) :
    (runEntries (in8 (.toRecord k)) s).shreg = (runEntries (in8 (.toRecord k)) s).record.get k := by
  rw [record_in8_toRecord, record_get_set_same]

theorem recWritten_in8_toRecord (k : Fin 8) (s : State) :
    (runEntries (in8 (.toRecord k)) s).recWritten = setBit s.recWritten k true := by
  obtain ⟨t, ht, -, hw, -⟩ := in8_transfer (.toRecord k) s
  rw [ht, ← hw]; rfl

/-- The bytes `ks` of `REC` received from the chip, in that order. -/
def readRecordBytes (ks : List (Fin 8)) (s : State) : State := runEntries ((ks.map Transfer.toRecord).flatMap in8) s

theorem readRecordBytes_cons (k : Fin 8) (ks : List (Fin 8)) (s : State) :
    readRecordBytes (k :: ks) s = readRecordBytes ks (runEntries (in8 (.toRecord k)) s) := by
  rw [readRecordBytes, List.map_cons, List.flatMap_cons, runEntries_append]; rfl

theorem readRecordBytes_get_of_not_mem (ks : List (Fin 8)) (s : State) (j : Fin 8) (h : j ∉ ks) :
    (readRecordBytes ks s).record.get j = s.record.get j := by
  induction ks generalizing s with
  | nil => rfl
  | cons k rest ih =>
    rw [List.mem_cons, not_or] at h
    rw [readRecordBytes_cons, ih _ h.2, record_in8_toRecord, record_get_set_ne _ _ _ _ h.1]

theorem readRecordBytes_recWritten (ks : List (Fin 8)) (s : State) :
    (readRecordBytes ks s).recWritten = ks.foldl (fun w k => setBit w k true) s.recWritten := by
  induction ks generalizing s with
  | nil => rfl
  | cons k rest ih => rw [readRecordBytes_cons, ih, recWritten_in8_toRecord]; rfl

/-- The byte received last is still in `SHREG`. -/
theorem readRecordBytes_shreg (ks : List (Fin 8)) (k : Fin 8) (s : State) :
    (readRecordBytes (ks ++ [k]) s).shreg = (readRecordBytes (ks ++ [k]) s).record.get k := by
  induction ks generalizing s with
  | nil => exact shreg_in8_toRecord k s
  | cons j rest ih => rw [List.cons_append, readRecordBytes_cons]; exact ih _

/-- What is on the wire while bytes are received is what `REC` holds when they are. -/
theorem wireOf_readRecordBytes (ks : List (Fin 8)) (s : State) (hk : ks.Nodup) (hd : s.pinDir.io = false) :
    wireOf ((ks.map Transfer.toRecord).flatMap in8) s =
      ks.flatMap fun k => receivedByte ((readRecordBytes ks s).record.get k) := by
  induction ks generalizing s with
  | nil => rfl
  | cons k rest ih =>
    rw [List.nodup_cons] at hk
    have hio : (runEntries (in8 (.toRecord k)) s).pinDir.io = false := by rw [runEntries_pinDir, dirAfter_in8, hd]
    rw [List.map_cons, List.flatMap_cons, wireOf_append, wireOf_in8 _ s (by simp) hd, ih _ hk.2 hio, List.flatMap_cons,
      readRecordBytes_cons, readRecordBytes_get_of_not_mem rest _ k hk.1, shreg_in8_toRecord]

/-- Setting every bit leaves them all set. -/
theorem setBit_byteOrder (w : Byte) : byteOrder.foldl (fun w k => setBit w k true) w = 0xFF := by
  revert w; decide +kernel

/-- A burst read frame into the whole of `REC`: its bytes are those received, and the last is still in `SHREG`. -/
theorem memRead_toRecord (c : Byte) (s : State) :
    (runEntries (memRead c (byteOrder.map .toRecord)) s).shreg =
      (runEntries (memRead c (byteOrder.map .toRecord)) s).record.wp ∧
    (runEntries (memRead c (byteOrder.map .toRecord)) s).record =
      (readRecordBytes byteOrder (runEntries (startList ++ out8 c true) s)).record ∧
    (runEntries (memRead c (byteOrder.map .toRecord)) s).recWritten = 0xFF := by
  rw [runEntries_memRead, ← readRecordBytes]
  obtain ⟨hsh, -, -, hrec, hrw⟩ := stop_keeps (readRecordBytes byteOrder (runEntries (startList ++ out8 c true) s))
  rw [hsh, hrec, hrw, readRecordBytes_recWritten, setBit_byteOrder]
  exact ⟨readRecordBytes_shreg [0, 1, 2, 3, 4, 5, 6] 7 _, rfl, rfl⟩

theorem wireOf_memRead_toRecord (c : Byte) (s : State) (hr : atRest s = true) :
    wireOf (memRead c (byteOrder.map .toRecord)) s = [WireEvent.ceUp] ++ sentByte c ++
      (byteOrder.flatMap fun k =>
        receivedByte ((runEntries (memRead c (byteOrder.map .toRecord)) s).record.get k)) ++ [WireEvent.ceDown] := by
  obtain ⟨-, hrec, -⟩ := memRead_toRecord c s
  rw [hrec, burstRead_cons, wireOf_memRead c _ _ s hr, ← burstRead_cons,
    wireOf_readRecordBytes byteOrder _ (by decide) (io_commandByte c s)]

/-- Settles O17: BREAD is one read frame of `CMD_BURST | 1`, whose bytes go to `REC` in index order. -/
theorem breadFillsTheRecord : Obligations.BreadFillsTheRecord := by
  intro s a d hb
  have hrun : RunsList s.params (.bread a d) (breadList s.params) := .burstRead (.inl ⟨a, d, rfl⟩) _
  obtain ⟨hdir, hout, -⟩ := perform_fields 0b101 a d (breadList s.params) s
  have hlatches := perform_latchesAre 0b101 a d s (breadList s.params) 372 (by rw [breadList, length_memRead]; rfl)
  obtain ⟨hsh, -, -, hrec, hrw, -⟩ := perform_registers 0b101 a d s (breadList s.params)
  obtain ⟨hmsh, -, hmrw⟩ := memRead_toRecord (toReadAddress s.params.cmdBurst) (accept 0b101 a d true s)
  refine ⟨_, whenIdle_idle _ s hb, hlatches,
    hrun.perform_keepsInBurstRead 0b101 a d s (by simp [IsInit]) (by simp [IsSingleRead]), hrw.trans hmrw, ?_, ?_, ?_,
    fun hr => ?_⟩
  · exact hsh.trans (hmsh.trans (congrArg Record.wp hrec.symm))
  · rw [hdir, breadList, burstRead_cons, dirAfter_memRead]
  · rw [hout, breadList, burstRead_cons, outAfter_memRead, bitOf_toReadAddress]
  · rw [wireSince_perform, hrec, breadList, wireOf_memRead_toRecord _ (accept 0b101 a d true s) hr]
    simp [byteOrder, Record.get, toReadAddress, Config.readFlag]

end Sys2Proof.Machine
end

section
/-! PROOFS. The LINK operations with the reference peer: what WRREG, BWRITE and INIT store in the chip, and that reads
change none of its memory (20_memory.md R48, R56 to R59; 41_link_operations.md R120 to R125). -/

namespace Sys2Proof.Machine

open Sys2Proof.Safety

/-! ### The end of a frame -/

/-- `STOP` leaves the chip, if there is one, deselected (20_memory.md R58). -/
theorem stop_deselects (x : Transfer) (s : State) (c' : Chip) (hd : s.pinDir.ce = true) (ho : s.pinOut.ce = true)
    (h : (runEntries (stopList x) s).chip = some c') : ∃ c : Chip, c' = c.deselect := by
  cases hc : s.chip with
  | none => rw [runEntries_noChip _ s hc] at h; cases h
  | some c =>
    rw [chip_stop x s c hd ho hc] at h
    exact ⟨c, (Option.some.inj h).symm⟩

theorem memWrite_deselects (a : Byte) (v : List Byte) (x : Transfer) (s : State) (c' : Chip) (hd : s.pinDir.ce = true)
    (h : (runEntries (memWrite a v x) s).chip = some c') : c'.phase = .idle := by
  rw [memWrite, runEntries_append] at h
  obtain ⟨c, rfl⟩ := stop_deselects x _ c'
    (by simp only [runEntries_pinDir, dirAfter_append, dirAfter_start, dirAfter_out8, dirAfter_bytes, hd])
    (by rw [runEntries_pinOut, outAfter_append, outAfter_append, outAfter_start, outAfter_out8, outAfter_bytes _ _ rfl]) h
  rfl

theorem memRead_deselects (a : Byte) (x : Transfer) (xs : List Transfer) (s : State) (c' : Chip)
    (hd : s.pinDir.ce = true) (h : (runEntries (memRead a (x :: xs)) s).chip = some c') : c'.phase = .idle := by
  rw [memRead, runEntries_append] at h
  obtain ⟨c, rfl⟩ := stop_deselects .none _ c'
    (by simp only [runEntries_pinDir, dirAfter_append, dirAfter_start, dirAfter_out8_release, dirAfter_reads, hd])
    (by simp only [runEntries_pinOut, outAfter_append, outAfter_start, outAfter_out8_release, outAfter_reads]) h
  rfl

/-- A list that holds a frame leaves the chip idle. -/
theorem RunsList.deselects {p : Params} {i : Instr} {es : List Entry} (h : RunsList p i es) (hne : es ≠ []) (s : State)
    (c' : Chip) (hd : s.pinDir.ce = true) (hc : (runEntries es s).chip = some c') : c'.phase = .idle := by
  cases h with
  | init =>
    rw [initList_eq, ← List.append_assoc, runEntries_append] at hc
    refine memWrite_deselects _ _ _ _ c' ?_ hc
    rw [runEntries_pinDir, dirAfter_append, dirAfter_memWrite]; rfl
  | write c v => exact memWrite_deselects c v .none s c' hd hc
  | singleRead _ c => exact memRead_deselects c .toRdata [] s c' hd hc
  | burstRead _ c => exact memRead_deselects c _ _ s c' hd hc
  | nothing => exact absurd rfl hne

/-- An instruction that sends a frame, begun at rest, leaves the chip idle. -/
theorem exec_deselects (i : Instr) (s t : State) (c' : Chip) (hb : s.busy = false) (hr : atRest s = true)
    (hne : instrList i s ≠ []) (h : exec i s = .next t) (hc : t.chip = some c') : c'.phase = .idle := by
  obtain ⟨b, hchip⟩ := exec_chip i s t h
  rw [stepsOf_idle i s hb] at hchip
  obtain ⟨⟨hce, -⟩, -⟩ := (restPins_iff _ _).1 hr
  exact (runsList_instrList i s).deselects hne (mark b s) c' hce (hchip.symm.trans hc)

/-! ### A write frame of one byte, by its command byte -/

theorem written_of_write (c : Chip) (a d : Byte) (hone : cbOne a = true) (hread : cbRead a = false) :
    c.written a d = c.store (writeAddress a) d (cbRam a) :=
  if_pos ((phaseAfterCommand_wdata_iff a).2 ⟨hone, hread⟩)

theorem written_of_ignored (c : Chip) (a d : Byte) (hone : cbOne a = false) : c.written a d = c :=
  if_neg fun h => by simpa [hone] using ((phaseAfterCommand_wdata_iff a).1 h).1

/-- Settles O38: WRREG's frame is a store at the address of its command byte; no register has a burst's number. -/
theorem wrregStoresOneByteInTheChip : Obligations.WrregStoresOneByteInTheChip := by
  intro s c a d hb hr hq hread
  obtain ⟨t, c', ht, -, htr, hq', hck, hram⟩ := exec_wrreg_chip a d s c hb hr hq
  refine ⟨t, c', ht, hq', exec_deselects (.wrreg a d) s t c' hb hr (List.cons_ne_nil _ _) ht hq'.1, htr, fun hone h31 => ?_,
    fun hone h31 hr => ?_, fun hone h31 hr => ?_, fun hone => ?_⟩
  · have haddr : writeAddress a = cbReg a := if_neg fun h => h31 h.2
    rw [hck, hram, written_of_write c a d hone hread, haddr]
    exact ⟨rfl, rfl⟩
  · have haddr : writeAddress a = 0 := if_pos ⟨hr, h31⟩
    rw [hck, hram, written_of_write c a d hone hread, haddr, hr]
    exact ⟨by rw [store_ck]; rfl, rfl⟩
  · have haddr : writeAddress a = 31 := by rw [writeAddress, hr, h31]; rfl
    rw [hck, hram, written_of_write c a d hone hread, haddr, hr, store_ck, store_ram]
    simp
  · rw [hck, hram, written_of_ignored c a d hone]
    exact ⟨rfl, rfl⟩

/-- A write frame to a single register that the chip stores (20_memory.md R58). -/
theorem written_register (c : Chip) (a d : Byte) (n : Nat) (hw : phaseAfterCommand a = .wdata) (hram : cbRam a = false)
    (hn : cbReg a = n) (hs : n = 7 ∨ c.writeProtected = false ∧ n < 9) :
    (c.written a d).ck = c.ck.setIfInBounds n (d &&& bankGet chipMask n) ∧ (c.written a d).ram = c.ram := by
  have haddr : writeAddress a = n := by rw [writeAddress, hram, hn]; rfl
  rw [Chip.written, if_pos hw, haddr, hram, store_ck, store_ram, if_pos ⟨rfl, hs⟩]
  exact ⟨rfl, rfl⟩

/-! ### BWRITE -/

theorem bankGet_burstCommit (ck : Vector Byte 9) (r : Record) (k : Fin 8) :
    bankGet (burstCommit ck r.bytes) k = r.get k &&& bankGet chipMask k := by
  rw [burstCommit, bankGet_ofFn _ _ (by omega), if_pos k.isLt, getD_bytes]

/-- The charger is no part of a clock burst (20_memory.md R58). -/
theorem bankGet_burstCommit_charger (ck : Vector Byte 9) (v : List Byte) : bankGet (burstCommit ck v) 8 = bankGet ck 8 :=
  bankGet_ofFn _ 8 (by omega)

/-- Settles O41: BWRITE's frame is a clock burst of eight bytes, which commits the record to an unprotected chip. -/
theorem bwriteCommitsTheRecordInTheChip : Obligations.BwriteCommitsTheRecordInTheChip := by
  intro s c a d hp hb hr hq
  obtain ⟨t, c', ht, -, -, htr, hq', hck, hram⟩ := exec_bwrite_chip a d s c hp hb hr hq
  refine ⟨t, c', ht, hq', exec_deselects (.bwrite a d) s t c' hb hr (List.cons_ne_nil _ _) ht hq'.1, htr, hram, ?_, fun hwp => ?_,
    fun hwp k => ?_⟩ <;> rw [hck]
  · cases c.writeProtected
    · exact bankGet_burstCommit_charger c.ck _
    · rfl
  · rw [hwp]; rfl
  · rw [hwp]; exact bankGet_burstCommit c.ck s.record k

/-! ### A read frame -/

/-- Bytes read while the chip ignores the frame leave it alone. -/
theorem reads_chip_ignore (xs : List Transfer) (s : State) (c : Chip) (h : readPins s) (hc : s.chip = some c)
    (hp : c.phase = .ignore) :
    (runEntries (xs.flatMap in8) s).chip = some c ∧ readPins (runEntries (xs.flatMap in8) s) := by
  induction xs generalizing s with
  | nil => exact ⟨hc, h⟩
  | cons x rest ih =>
    obtain ⟨hc', h'⟩ := in8_chip_ignore x s c h hc hp
    rw [List.flatMap_cons, runEntries_append]
    exact ih _ h' hc'

/-- No command byte with the read flag opens a write. -/
theorem phaseAfterCommand_read (a : Byte) (h : cbRead a = true) :
    phaseAfterCommand a = .rdata ∨ phaseAfterCommand a = .ignore :=
  (phaseAfterCommand_cases a).resolve_left fun hw => by simp [((phaseAfterCommand_wdata_iff a).1 hw).2] at h

theorem cbRead_toReadAddress (a : Byte) : cbRead (toReadAddress a) = true := by
  simp [cbRead, toReadAddress, Config.readFlag]

theorem cbOne_toReadAddress (a : Byte) : cbOne (toReadAddress a) = cbOne a := by
  simp [cbOne, toReadAddress, Config.readFlag]

/-- The command byte of a read sent, and the line turned round. -/
theorem commandByte_chip (a : Byte) (s : State) (c : Chip) (hr : atRest s = true) (hq : ChipQuiet s c) :
    readPins (runEntries (startList ++ out8 a true) s) ∧
      (runEntries (startList ++ out8 a true) s).chip = some (c.select.commanded a) := by
  obtain ⟨hc, hd⟩ := hq
  have hs := sendPins_start s hr
  rw [runEntries_append]
  refine ⟨⟨?_, ?_⟩, chip_out8_release a _ c.select hs (chip_start s c hr hc) hd rfl rfl rfl⟩
  · rw [runEntries_pinDir, dirAfter_out8_release, hs.1]
  · rw [runEntries_pinOut, outAfter_out8_release]; exact hs.2.1

/-- Up to `STOP`, a chip that answers a read or ignores it keeps its memory and takes no byte. -/
theorem reads_chip (a : Byte) (xs : List Transfer) (s : State) (c : Chip) (hr : atRest s = true) (hq : ChipQuiet s c)
    (ha : cbRead a = true) :
    ∃ c₁, (runEntries (xs.flatMap in8) (runEntries (startList ++ out8 a true) s)).chip = some c₁ ∧
      c₁.phase ≠ .wdata ∧ SameMemory c₁ c ∧
      (runEntries (xs.flatMap in8) (runEntries (startList ++ out8 a true) s)).pinDir.ce = true ∧
      (runEntries (xs.flatMap in8) (runEntries (startList ++ out8 a true) s)).pinOut.ce = true := by
  obtain ⟨hpins, hc⟩ := commandByte_chip a s c hr hq
  have hphase := commanded_phase c.select a
  have hm : SameMemory (c.select.commanded a) c := (commanded_same c.select a).trans ⟨rfl, rfl⟩
  rcases phaseAfterCommand_read a ha with hread | hignore
  · have hreads : (xs.flatMap in8).all (fun e => e.op.sparesCe) = true := by
      rw [List.all_flatMap, List.all_eq_true]
      exact fun x _ => rfl
    have hanswers : Answers _ c := ⟨by rw [hpins.1], hpins.2, _, hc, hphase.trans hread, hm⟩
    obtain ⟨hd, ho, c₁, hc₁, hp₁, hm₁⟩ := hanswers.runEntries (xs.flatMap in8) hreads
    exact ⟨c₁, hc₁, by simp [hp₁], hm₁, hd, ho⟩
  · obtain ⟨hc₁, hd, ho⟩ := reads_chip_ignore xs _ _ hpins hc (hphase.trans hignore)
    exact ⟨_, hc₁, by simp [hphase, hignore], hm, by rw [hd], ho⟩

/-- A read frame leaves the chip's memory as it is, and the chip quiet (20_memory.md R48, R59). -/
theorem memRead_chip (a : Byte) (xs : List Transfer) (s : State) (c : Chip) (hr : atRest s = true) (hq : ChipQuiet s c)
    (ha : cbRead a = true) : ∃ c', ChipQuiet (runEntries (memRead a xs) s) c' ∧ SameMemory c' c := by
  obtain ⟨c₁, hc₁, hp, hm, hd, ho⟩ := reads_chip a xs s c hr hq ha
  rw [runEntries_memRead]
  exact ⟨_, ⟨chip_stop .none _ c₁ hd ho hc₁, rfl⟩, (deselect_same c₁ (commits_of_phase c₁ hp)).trans hm⟩

/-- An instruction that is a read frame, begun at rest with a quiet chip. -/
theorem exec_read_chip (i : Instr) (s : State) (c : Chip) (a : Byte) (x : Transfer) (xs : List Transfer)
    (hl : instrList i s = memRead a (x :: xs)) (ha : cbRead a = true) (hb : s.busy = false) (hr : atRest s = true)
    (hq : ChipQuiet s c) :
    ∃ t c', exec i s = .next t ∧ ChipQuiet t c' ∧ c'.phase = .idle ∧ SameMemory c' c := by
  obtain ⟨t, ht, -⟩ := exec_marks i s
  obtain ⟨b, hchip⟩ := exec_chip i s t ht
  rw [stepsOf_idle i s hb, hl] at hchip
  obtain ⟨c', hq', hm⟩ := memRead_chip a (x :: xs) (mark b s) c hr hq ha
  exact ⟨t, c', ht, ⟨hchip.trans hq'.1, hq'.2⟩,
    exec_deselects i s t c' hb hr (by rw [hl]; exact List.cons_ne_nil _ _) ht (hchip.trans hq'.1), hm⟩

/-! ### RDREG, RD1 and BREAD -/

/-- A single read frame from a chip that answers returns its byte (20_memory.md R57, R59). -/
theorem memRead_rdata_chip (a : Byte) (s : State) (c : Chip) (hr : atRest s = true) (hq : ChipQuiet s c)
    (ha : phaseAfterCommand a = .rdata) :
    (runEntries (memRead a [.toRdata]) s).rdata = Chip.readByte { c with latch := c.ck } a 0 :=
  (memRead_toRdata a s).1.trans ((streams_begun a s c hr hq ha).next .toRdata (by decide)).1

/-- Settles O40: RDREG and RD1 are one read frame, and the byte it receives is the chip's. -/
theorem singleReadsReturnTheChipsByte : Obligations.SingleReadsReturnTheChipsByte := by
  intro s c a d hb hr hq
  have read (i : Instr) (hl : instrList i s = memRead (toReadAddress a) [.toRdata]) :
      ∃ t c', exec i s = .next t ∧ ChipQuiet t c' ∧ c'.phase = .idle ∧ c'.ck = c.ck ∧ c'.ram = c.ram ∧
        (cbOne a = true → t.rdata = Chip.readByte { c with latch := c.ck } (a ||| 0x01) 0) := by
    obtain ⟨t, c', ht, hq', hidle, hm⟩ := exec_read_chip i s c _ _ [] hl (cbRead_toReadAddress a) hb hr hq
    refine ⟨t, c', ht, hq', hidle, hm.ck, hm.ram, fun hone => ?_⟩
    have hphase : phaseAfterCommand (toReadAddress a) = .rdata := by
      rw [phaseAfterCommand, cbOne_toReadAddress, hone, cbRead_toReadAddress]; rfl
    obtain ⟨b, hleaves⟩ := exec_leavesAs i s t ht
    rw [hleaves.rdata, stepsOf_idle i s hb, hl]
    exact memRead_rdata_chip (toReadAddress a) (mark b s) c hr hq hphase
  simp only [List.forall_mem_cons]
  exact ⟨read _ rfl, read _ rfl, List.forall_mem_nil _⟩

/-- Settles O42: BREAD's frame reads the registers into `REC`, and a read frame changes none of the chip's memory. -/
theorem breadReadsTheChipsClock : Obligations.BreadReadsTheChipsClock := by
  intro s c a d hp hb hr hq
  obtain ⟨t, ht, hrec⟩ := exec_bread_record a d s c hp hb hr hq
  obtain ⟨u, c', hu, hq', hidle, hm⟩ := exec_read_chip (.bread a d) s c (toReadAddress s.params.cmdBurst) (.toRecord 0)
    (byteOrder.tail.map .toRecord) rfl (cbRead_toReadAddress _) hb hr hq
  obtain rfl : t = u := Host.Outcome.next.inj (ht.symm.trans hu)
  exact ⟨t, c', ht, hq', hidle, hm.ck, hm.ram, hrec⟩

/-! ### INIT -/

/-- The transfer beside the last step of a frame does not reach the chip. -/
theorem memWrite_chip_transfer (a : Byte) (v : List Byte) (x : Transfer) (s : State) :
    (runEntries (memWrite a v x) s).chip = (runEntries (memWrite a v .none) s).chip := by
  rw [memWrite, memWrite, runEntries_append, runEntries_append _ (stopList .none)]
  exact transfer_chip x _

/-- INIT's first steps make no edge on lines at rest. -/
theorem chip_initPins_atRest (s : State) (c : Chip) (hr : atRest s = true) (hc : s.chip = some c) :
    (runEntries initPins s).chip = some c := by
  obtain ⟨⟨hdc, hds⟩, hoc, hos⟩ := (restPins_iff _ _).1 hr
  simp [initPins, entryExec_def, Transfer.apply, hc, Chip.react, edgeBetween, driven, PinLatch.get, PinLatch.set,
    MicroOp.dirAfter, MicroOp.outAfter, hdc, hds, hoc, hos]

/-- INIT's first steps take up CE, undriven before, at its low level: to the chip, `CEv` (log entry 10). -/
theorem chip_initPins_undriven (s : State) (c : Chip) (hd : s.pinDir = ⟨false, false, false⟩)
    (ho : s.pinOut = ⟨false, false, false⟩) (hc : s.chip = some c) :
    (runEntries initPins s).chip = some c.deselect := by
  simp [initPins, entryExec_def, Transfer.apply, hc, Chip.react, edgeBetween, driven, PinLatch.get, PinLatch.set,
    MicroOp.dirAfter, MicroOp.outAfter, hd, ho]

/-- INIT, from the chip as its first steps leave it, is two write frames of one byte. -/
theorem initList_chip (p : Params) (s : State) (c : Chip) (hq : ChipQuiet (runEntries initPins s) c) :
    ∃ c', ChipQuiet (runEntries (initList p) s) c' ∧ c'.phase = .idle ∧
      SameMemory c' ((c.written p.cmdWp p.valWpOff).written p.cmdTcs p.valTcsOff) := by
  have hr₀ := atRest_initPins s
  have hr₁ := atRest_memWrite p.cmdWp [p.valWpOff] .none _ hr₀
  obtain ⟨c₁, hq₁, hm₁⟩ := memWrite_chip p.cmdWp p.valWpOff _ c hr₀ hq
  obtain ⟨c₂, hq₂, hm₂⟩ := memWrite_chip p.cmdTcs p.valTcsOff _ c₁ hr₁ hq₁
  obtain ⟨⟨hce, -⟩, -⟩ := (restPins_iff _ _).1 hr₁
  rw [initList_eq, runEntries_append, runEntries_append]
  exact ⟨c₂, ⟨(memWrite_chip_transfer _ _ _ _).trans hq₂.1, hq₂.2⟩, memWrite_deselects _ _ .none _ c₂ hce hq₂.1,
    hm₂.trans (hm₁.written _ _)⟩

/-- What INIT's two frames leave in the chip: 0 in the control and charger registers, the rest as it was. -/
theorem written_initFrames (c : Chip) :
    ((c.written Config.params.cmdWp Config.params.valWpOff).written Config.params.cmdTcs Config.params.valTcsOff).ck =
      (c.ck.setIfInBounds 7 0).setIfInBounds 8 0 ∧
    ((c.written Config.params.cmdWp Config.params.valWpOff).written Config.params.cmdTcs Config.params.valTcsOff).ram =
      c.ram := by
  obtain ⟨hck₁, hram₁⟩ := written_register c Config.params.cmdWp Config.params.valWpOff 7 (by decide) (by decide)
    (by decide) (.inl rfl)
  have hoff : (c.written Config.params.cmdWp Config.params.valWpOff).writeProtected = false := by
    rw [Chip.writeProtected, hck₁, bankGet_setIfInBounds _ _ _ _ (by omega), if_pos rfl]
    decide
  obtain ⟨hck₂, hram₂⟩ := written_register (c.written Config.params.cmdWp Config.params.valWpOff) Config.params.cmdTcs
    Config.params.valTcsOff 8 (by decide) (by decide) (by decide) (.inr ⟨hoff, by omega⟩)
  rw [hck₂, hram₂, hck₁, hram₁]
  exact ⟨rfl, rfl⟩

/-- The chip as INIT's frames find it: itself, or deselected by the first edge of CE. -/
theorem quiet_initPins (s : State) (c : Chip) (hc : s.chip = some c)
    (hstart : s.pinDir = ⟨false, false, false⟩ ∧ s.pinOut = ⟨false, false, false⟩ ∨ atRest s = true ∧ c.drive = none) :
    ∃ c₀, ChipQuiet (runEntries initPins s) c₀ ∧ c₀.ram = c.ram ∧
      (c.commits = false ∨ atRest s = true → c₀.ck = c.ck) := by
  obtain ⟨hd, ho⟩ | ⟨hr, hdrive⟩ := hstart
  · have hnot : atRest s = false := by rw [atRest, hd, ho]; rfl
    refine ⟨c.deselect, ⟨chip_initPins_undriven s c hd ho hc, rfl⟩, rfl, fun h => ?_⟩
    exact (deselect_same c (h.resolve_right (by simp [hnot]))).ck
  · exact ⟨c, ⟨chip_initPins_atRest s c hr hc, hdrive⟩, rfl, fun _ => rfl⟩

/-- Settles O45: INIT's frames write 0 to the control register, protected or not, and then to the charger. -/
theorem initTurnsProtectionAndChargerOff : Obligations.InitTurnsProtectionAndChargerOff := by
  intro s c a d hp hb hc hstart
  obtain ⟨t, ht, -, hdir, hout, -⟩ := initConfiguresPinsAndSendsTwoFrames s a d hb
  obtain ⟨b, hchip⟩ := exec_chip _ s t ht
  rw [stepsOf_idle _ s hb, instrList, hp] at hchip
  obtain ⟨c₀, hq₀, hram₀, hck₀⟩ := quiet_initPins (mark b s) c hc hstart
  obtain ⟨c', hq', hidle, hck, hram⟩ := initList_chip Config.params (mark b s) c₀ hq₀
  obtain ⟨hck₁, hram₁⟩ := written_initFrames c₀
  have reg (k : Nat) (hk : k < 9) :
      bankGet c'.ck k = if 8 = k then 0 else if 7 = k then 0 else bankGet c₀.ck k := by
    rw [hck, hck₁, bankGet_setIfInBounds _ _ _ _ hk, bankGet_setIfInBounds _ _ _ _ hk]
  refine ⟨t, c', ht, ⟨hchip.trans hq'.1, hq'.2⟩, hidle, by rw [atRest, hdir, hout]; rfl, (reg 7 (by omega)).trans rfl,
    (reg 8 (by omega)).trans rfl, hram.trans (hram₁.trans hram₀), fun h k hk => ?_⟩
  rw [reg k (by omega), if_neg (by omega), if_neg (by omega), hck₀ h]

end Sys2Proof.Machine
end

section
/-! PROOFS. The host idioms HALT, RESUME and HEARTBEAT as steps of the machine (41_link_operations.md R131 to R133). -/

namespace Sys2Proof.Machine

open Sys2Proof.Safety

/-! ### A command word called -/

/-- A command word called runs the instruction that it encodes (30_encoding.md R72). -/
theorem step_call (s : State) (i : Instr) (w : CmdWord) (rest : List Input) (hb : s.busy = false)
    (hi : s.inbox = .call w :: rest) (hw : encode i = .command w) (hwf : i.wellFormed = true) :
    step s = exec i { s with inbox := rest } := by
  have hdecode : decodeCommand w = i := by
    have h := Laws.decodeOfEncode i hwf
    rwa [hw] at h
  rw [← hdecode]
  exact step_idle_run s _ (.call w) rest _ hb hi rfl

/-- WRREG called at rest with a quiet chip is a write frame of one byte, and ends as it began. -/
theorem step_wrreg_chip (s : State) (c : Chip) (a d : Byte) (rest : List Input) (hb : s.busy = false)
    (hr : atRest s = true) (hq : ChipQuiet s c) (hi : s.inbox = .call (commandWord 0b001 a d) :: rest) :
    ∃ t c', step s = .next t ∧ t.busy = false ∧ atRest t = true ∧ t.inbox = rest ∧ ChipQuiet t c' ∧
      SameMemory c' (c.written a d) := by
  obtain ⟨t, c', ht, htb, htr, hq', hm⟩ := exec_wrreg_chip a d { s with inbox := rest } c hb hr hq
  obtain ⟨u, hu, -, hkeeps, -⟩ := wrregSendsAddressAndData { s with inbox := rest } a d hb
  obtain rfl : u = t := Host.Outcome.next.inj (hu.symm.trans ht)
  obtain ⟨-, -, -, -, -, -, -, -, -, -, -, hinbox, -⟩ := hkeeps
  exact ⟨u, c', (step_call s (.wrreg a d) _ rest hb hi rfl rfl).trans ht, htb, htr, hinbox, hq', hm⟩

/-! ### HALT and RESUME -/

theorem bankGet_set_same {n : Nat} (v : Vector Byte n) (a : Nat) (w : Byte) (ha : a < n) :
    bankGet (v.setIfInBounds a w) a = w := by
  rw [bankGet_setIfInBounds _ _ _ _ ha, if_pos rfl]

/-- A write frame to the seconds of an unprotected chip: all eight bits are implemented (20_memory.md R58, R60). -/
theorem written_seconds (c : Chip) (d : Byte) (hp : c.writeProtected = false) :
    bankGet (c.written Config.params.cmdSec d).ck 0 = d ∧ (c.written Config.params.cmdSec d).writeProtected = false := by
  obtain ⟨hck, -⟩ := written_register c Config.params.cmdSec d 0 (by decide) (by decide) (by decide) (.inr ⟨hp, by omega⟩)
  have hmask : bankGet chipMask 0 = BitVec.allOnes 8 := by decide
  rw [Chip.writeProtected, hck, hmask, BitVec.and_allOnes]
  refine ⟨bankGet_set_same _ _ _ (by omega), ?_⟩
  rw [bankGet_setIfInBounds _ _ _ _ (by omega), if_neg (by omega)]
  exact hp

/-- An advance of a halted chip takes its input and nothing else (20_memory.md R60). -/
theorem step_chipTime_halted (s : State) (c : Chip) (time : Vector Byte 7) (rest : List Input) (hb : s.busy = false)
    (hc : s.chip = some c) (hh : c.halted = true) (hi : s.inbox = .chipTime time :: rest) :
    step s = .next { s with inbox := rest } :=
  (step_idle_done s _ _ rest hb hi rfl).trans (congrArg _ (advanceChip_halted time { s with inbox := rest } c hc hh))

/-- Settles O48: both idioms are a write frame to the seconds, and the halted chip's time stands still between them. -/
theorem haltStopsTheOscillatorAndResumeStartsIt : Obligations.HaltStopsTheOscillatorAndResumeStartsIt := by
  intro s c low time hb hr hq hp hi
  obtain ⟨t, c', ht, htb, htr, hti, hq', hm⟩ := step_wrreg_chip s c _ _ _ hb hr hq hi
  obtain ⟨hsec, hoff⟩ := written_seconds c (1#1 ++ low) hp
  have hsec' : bankGet c'.ck 0 = 1#1 ++ low := by rw [hm.ck, hsec]
  have hhalted : c'.halted = true := by
    rw [Chip.halted, hsec', BitVec.getLsbD_append]
    rfl
  have hp' : c'.writeProtected = false := hm.writeProtected.trans hoff
  have hu := step_chipTime_halted t c' time _ htb hq'.1 hhalted hti
  obtain ⟨v, c'', hv, -, -, -, hq'', hm''⟩ := step_wrreg_chip { t with inbox := resumeOscillator Config.params } c' _ _ []
    htb htr hq' rfl
  have hsec'' : bankGet c''.ck 0 = 0 := by rw [hm''.ck, (written_seconds c' 0x00 hp').1]
  exact ⟨t, _, v, c', c'', ht, hq'.1, hhalted, hsec', hu, hq'.1, hv, hq''.1, by rw [Chip.halted, hsec'']; rfl, hsec''⟩

/-! ### HEARTBEAT -/

/-- RD1 called completes with `RDATA` written. -/
theorem step_rd1 (s : State) (a d : Byte) (rest : List Input) (hb : s.busy = false)
    (hi : s.inbox = .call (commandWord 0b011 a d) :: rest) :
    ∃ t, step s = .next t ∧ t.busy = false ∧ t.inbox = rest ∧ t.rdataWritten = true := by
  obtain ⟨-, t, ht, hlatches, hkeeps, -, hwritten, -⟩ := singleReadsAssembleTheAnswer { s with inbox := rest } a d hb
  obtain ⟨-, -, -, -, htb⟩ := hlatches
  obtain ⟨-, -, -, -, -, -, -, hinbox, -⟩ := hkeeps
  exact ⟨t, (step_call s (.rd1 a d) _ rest hb hi rfl rfl).trans ht, htb, hinbox, hwritten⟩

/-- A host read of a result that has been written marks nothing. -/
theorem readResult_written (s : State) (h : s.rdataWritten = true) : readResult s = s := by
  rw [readResult, h, cond_true, mark, Option.or_none]

/-- Settles O49: the probe is an RD1, after which the read of `RDATA` is within the contract and chooses the word. -/
theorem heartbeatReadsTheRecordOnlyAtZero : Obligations.HeartbeatReadsTheRecordOnlyAtZero := by
  intro s t hb hi ht
  obtain ⟨u, hu, hub, hinbox, hwritten⟩ := step_rd1 s _ _ _ hb hi
  obtain rfl : u = t := Host.Outcome.next.inj (hu.symm.trans ht)
  have hread := readResult_written { u with inbox := [] } hwritten
  refine ⟨hwritten, fun hne => ?_, fun hz => ?_⟩
  · exact (step_idle_done u _ _ [] hub hinbox (if_neg hne)).trans (congrArg _ hread)
  · have hrun := step_idle_run u _ _ [] _ hub hinbox (if_pos hz)
    rw [hread] at hrun
    exact hrun

end Sys2Proof.Machine
end

section
/-! PROOFS. BTN: SAMPLE's shift, the edges it reports, and their alternation (42_button_tracker.md R140 to R143). -/

namespace Sys2Proof.Machine

/-! ### SAMPLE -/

/-- SAMPLE on an idle block takes the levels in the step that accepts it (42_button_tracker.md R140). -/
theorem exec_sample (a d : Byte) (s : State) (hb : s.busy = false) :
    exec (.sample a d) s = .next (sampleButtons (accept 0b110 a d false s)) :=
  whenIdle_idle (fun t => sampleButtons (accept 0b110 a d false t)) s hb

theorem mark_none (s : State) : mark none s = s := by rw [mark, Option.or_none]

/-- Accepting SAMPLE marks nothing and latches the word (10_state.md R19). -/
theorem accept_sample (a d : Byte) (s : State) : accept 0b110 a d false s = s.withLatches 0b110 a d 0 false :=
  congrArg (State.withLatches · 0b110 a d 0 false) (mark_none s)

/-- The levels that the environment gives are the levels sampled (10_state.md R25). -/
theorem buttonLevels_of_btnIn (s : State) (b : Buttons) (rest : List Buttons) (h : s.btnIn = b :: rest) :
    buttonLevels s = b := by
  rw [buttonLevels, h, List.headD_cons]

/-- Settles O18: acceptance writes the latches and clears `BUSY`, which is clear already; the shift writes the rest. -/
theorem sampleShiftsTheLevels : Obligations.SampleShiftsTheLevels := by
  intro s a d hb
  refine ⟨_, exec_sample a d s hb, ?_, fun b rest h => ?_⟩
  · rw [accept_sample, ← hb]
    rfl
  · rw [sampleButtons_cur]
    exact buttonLevels_of_btnIn _ b rest (by rwa [accept_btnIn])

/-! ### Edges -/

/-- Button `b` left level `v` between the two most recent samples: a press from `true`, a release from `false`. -/
def EdgeFrom (v : Bool) (b : Nat) (s : State) : Prop := s.prev.getLsbD b = v ∧ s.cur.getLsbD b = !v

theorem press_iff (s : State) (b : Nat) (hb : b < 3) : (press s).getLsbD b = true ↔ EdgeFrom true b s := by
  simp [press, EdgeFrom, hb]

theorem release_iff (s : State) (b : Nat) (hb : b < 3) : (release s).getLsbD b = true ↔ EdgeFrom false b s := by
  simp [release, EdgeFrom, hb]

/-- Settles O26: the flags are the edges from the released and from the pressed level. -/
theorem pressAndReleaseAreTheEdges : Obligations.PressAndReleaseAreTheEdges :=
  fun s b hb => ⟨press_iff s b hb, release_iff s b hb⟩

/-! ### Alternation -/

/-- A sequence that is `v` at `i` and not at `j` leaves `v` at some step between them. -/
theorem exists_leaves (c : Nat → Bool) (v : Bool) (i j : Nat) (hij : i ≤ j) (hi : c i = v) (hj : c j = !v) :
    ∃ n, i ≤ n ∧ n < j ∧ c n = v ∧ c (n + 1) = !v := by
  induction j, hij using Nat.le_induction with
  | base => simp [hi] at hj
  | succ m him ih =>
    by_cases hm : c m = v
    · exact ⟨m, him, m.lt_succ_self, hm, hj⟩
    · obtain ⟨n, hin, hnm, hn⟩ := ih (Bool.eq_not_of_ne hm)
      exact ⟨n, hin, hnm.trans m.lt_succ_self, hn⟩

/-- Between a sample that finds level `v` and a later edge back to it, the button leaves `v`. -/
theorem exists_edgeFrom_between (q : Nat → State) (hq : ∀ n, (q (n + 1)).prev = (q n).cur) (v : Bool) (b i j : Nat)
    (hij : i < j) (hi : (q i).cur.getLsbD b = v) (hj : EdgeFrom (!v) b (q j)) :
    ∃ k, i < k ∧ k < j ∧ EdgeFrom v b (q k) := by
  obtain ⟨m, rfl⟩ : ∃ m, j = m + 1 := Nat.exists_eq_add_one.mpr (by omega)
  obtain ⟨hprev, -⟩ := hj
  rw [hq] at hprev
  obtain ⟨n, hin, hnm, hn, hn'⟩ := exists_leaves (fun n => (q n).cur.getLsbD b) v i m (by omega) hi hprev
  exact ⟨n + 1, by omega, by omega, by rwa [hq], hn'⟩

/-- Settles O27: each sample's `PREV` is the `CUR` before it, so an edge finds the level that the last edge left. -/
theorem pressesAndReleasesAlternate : Obligations.PressesAndReleasesAlternate := by
  intro q a d hrun b i j hb
  have hq (n : Nat) : (q (n + 1)).prev = (q n).cur := by
    obtain ⟨hidle, hn⟩ := hrun n
    rw [← Host.Outcome.next.inj ((exec_sample (a n) (d n) (q n) hidle).symm.trans hn), sampleButtons_prev, accept_cur]
  simp only [press_iff _ b hb, release_iff _ b hb]
  refine ⟨fun hij ⟨_, hlow⟩ hj => ?_, fun hij ⟨_, hhigh⟩ hj => ?_, fun hc hp hj => ?_⟩
  · exact exists_edgeFrom_between q hq false b i j hij hlow hj
  · exact exists_edgeFrom_between q hq true b i j hij hhigh hj
  · have hhigh : (0b111 : Buttons).getLsbD b = true := by interval_cases b <;> rfl
    have hpos : 0 < j := by
      refine Nat.pos_of_ne_zero fun h0 => ?_
      obtain ⟨hlow, -⟩ := hj
      rw [h0, hp, hhigh] at hlow
      exact Bool.noConfusion hlow
    obtain ⟨k, -, hk⟩ := exists_edgeFrom_between q hq true b 0 j hpos (hc ▸ hhigh) hj
    exact ⟨k, hk⟩

end Sys2Proof.Machine
end

section
/-! PROOFS. Every step completes on its list, and it marks the run exactly where its input is outside the contract
(60_exceptions.md R150, R151). -/

namespace Sys2Proof.Machine

open Sys2Proof.Safety

/-! ### What is marked is what is not allowed -/

theorem breachBeforeInit_eq_none (s : State) : breachBeforeInit s = none ↔ s.inited = true := by
  cases hi : s.inited <;> simp [hi]

theorem breachOf_wrreg_eq_none (a : Byte) (s : State) :
    breachOf 0b001 a s = none ↔ (s.inited && !cbRead a) = true := by
  change (breachBeforeInit s).or (bif cbRead a then some .oddWriteAddress else none) = none ↔ _
  cases hi : s.inited <;> cases ha : cbRead a <;> simp [hi]

theorem breachOf_bwrite_eq_none (a : Byte) (s : State) :
    breachOf 0b100 a s = none ↔ (s.inited && s.recWritten == 0xFF) = true := by
  change (breachBeforeInit s).or (bif s.recWritten == 0xFF then none else some .unwrittenRecord) = none ↔ _
  cases hi : s.inited <;> cases hw : s.recWritten == 0xFF <;> simp [hi]

/-- Acceptance of a word marks an idle block exactly where the host may not issue it. -/
theorem breachOf_word_eq_none (w : CmdWord) (s : State) :
    breachOf (opField w) (addrField w) s = none ↔ wordAllowed s w = true := by
  unfold wordAllowed
  rcases Laws.decodeCommand_cases w with h | h | h | h | h | h | h | h <;> rw [h.1]
  · cases hi : s.inited <;> simp [breachOf, hi]
  · exact breachOf_wrreg_eq_none _ s
  · exact breachBeforeInit_eq_none s
  · exact breachBeforeInit_eq_none s
  · exact breachOf_bwrite_eq_none _ s
  · exact breachBeforeInit_eq_none s
  · exact iff_of_true rfl rfl
  · exact iff_of_false (by simp [breachOf]) (by simp)

/-- A frame by itself marks an idle block exactly where the bench may not send it (log entry 7). -/
theorem instrBreach_frame_eq_none (b : Byte) (s : State) :
    instrBreach (decodeByte b) s = none ↔ frameAllowed s b = true := by
  have read : breachBeforeInit s = none ↔ (s.inited && true) = true := by
    rw [Bool.and_true]; exact breachBeforeInit_eq_none s
  have anyWrite (a : BitVec 7) : breachOf 0b001 (a ++ 0#1) s = none ↔ (s.inited && true) = true := by
    have heven : cbRead (a ++ 0#1) = false := by rw [cbRead, BitVec.getLsbD_append]; rfl
    rw [breachOf_wrreg_eq_none, heven]; rfl
  unfold frameAllowed
  rcases Laws.decodeByte_cases b with h | h | h | h | h | h | ⟨a, -, h⟩ | ⟨a, -, h⟩ <;> rw [h.2]
  · exact breachOf_wrreg_eq_none _ s
  · exact breachOf_wrreg_eq_none _ s
  · exact breachOf_bwrite_eq_none s.params.cmdBurst s
  · exact read
  · exact breachOf_wrreg_eq_none _ s
  · exact read
  · exact anyWrite a
  · exact read

/-! ### The step of an idle block -/

/-- The mark that the run carries once what an input asks for is run. -/
def Fetched.breach (f : Fetched) : Option Breach :=
  match f with
  | .run i t => t.breach.or (instrBreach i t)
  | .done t => t.breach

theorem fetch_word_breach_eq_none (w : CmdWord) (s : State) (hs : s.breach = none) :
    (Fetched.run (decodeCommand w) s).breach = none ↔ wordAllowed s w = true := by
  rw [Fetched.breach, hs, Option.none_or, instrBreach_decodeCommand]
  exact breachOf_word_eq_none w s

/-- An input marks an unmarked idle block exactly where it is outside the contract. -/
theorem fetch_breach_eq_none (x : Input) (s : State) (hs : s.breach = none) (hb : s.busy = false) :
    (fetch x s).breach = none ↔ idleAllowed s x = true := by
  cases x with
  | call w => exact fetch_word_breach_eq_none w s hs
  | present w =>
    by_cases hop : (opField w).toNat < 6
    · have haccept : (fetch (.present w) s).breach = breachOf (opField w) (addrField w) s := by
        rw [fetch, presentWord, if_pos hop, Fetched.breach, accept_breach, hs, Option.none_or]
      rw [haccept]
      exact breachOf_word_eq_none w s
    · rw [fetch, presentWord, if_neg hop]
      exact fetch_word_breach_eq_none w s hs
  | callIfRdata v w =>
    cases hr : s.rdataWritten
    · have hmark := readResult_breach_unwritten s hs hr
      by_cases hv : s.rdata = v <;> simp [fetch, callIfRdata, hv, Fetched.breach, hmark, idleAllowed, hr]
    · have hread : readResult s = s := readResult_written s hr
      by_cases hv : s.rdata = v
      · rw [fetch, callIfRdata, if_pos hv, hread, fetch_word_breach_eq_none w s hs]
        simp [idleAllowed, hr, hv]
      · simp [fetch, callIfRdata, hv, hread, Fetched.breach, hs, idleAllowed, hr]
  | frame b =>
    rw [fetch, Fetched.breach, hs, Option.none_or]
    exact instrBreach_frame_eq_none b s
  | readRec k => cases hk : bitOf s.recWritten k <;> simp [fetch, Fetched.breach, readRecord_eq, hs, idleAllowed, hk]
  | readRdata => cases hr : s.rdataWritten <;> simp [fetch, Fetched.breach, readResult_eq, hs, idleAllowed, hr]
  | rst => exact iff_of_true (by simp [fetch, Fetched.breach, hs, hb]) rfl
  | writeRec | idle | chipTime => exact iff_of_true hs rfl

/-- An idle block's step runs what its input asks for, and leaves the mark of that. -/
theorem step_idle_marks (s : State) (x : Input) (rest : List Input) (hb : s.busy = false) (hi : s.inbox = x :: rest) :
    ∃ t, step s = .next t ∧ t.breach = (fetch x { s with inbox := rest }).breach := by
  cases hf : fetch x { s with inbox := rest } with
  | run i u =>
    obtain ⟨b, rfl⟩ := fetch_run x _ u i hf
    obtain ⟨t, ht, -, hm⟩ := exec_marks i (mark b { s with inbox := rest })
    rw [mark_busy, hb, cond_false] at hm
    exact ⟨t, (step_idle_run s _ x rest i hb hi hf).trans ht, hm⟩
  | done u => exact ⟨u, step_idle_done s u x rest hb hi hf, rfl⟩

/-! ### The step of a busy block -/

/-- A busy block on its list steps, and leaves the mark of its input. -/
theorem step_busy_marks (s : State) (hb : s.busy = true) (hok : sequencerOk s = true) :
    ∃ t, step s = .next t ∧
      t.breach = (busyInput s).breach.or (bif resetRequested s then some .resetWhileBusy else none) := by
  cases hr : resetRequested s
  · have hlt : (busyInput s).upc.toNat < (expansion (busyInput s)).length := by
      simpa using (sequencerOk_busy s hb).1 hok
    obtain ⟨t, ht⟩ := sequencerStep_next _ hlt
    exact ⟨t, (step_busy_sequencer s hb hr).trans ht, by simp [(sequencerStep_keeps _ t ht).2]⟩
  · exact ⟨resetBlock (busyInput s), by rw [step, hb, cond_true, busyStep, hr, cond_true], by simp [hb]⟩

/-- An input marks an unmarked busy block exactly where it is outside the contract. -/
theorem busyInput_breach_eq_none (s : State) (hs : s.breach = none) (hb : s.busy = true) :
    (busyInput s).breach.or (bif resetRequested s then some .resetWhileBusy else none) = none ↔ allowed s = true := by
  cases hi : s.inbox with
  | nil => simp [busyInput, resetRequested, allowed, hi, hs]
  | cons x rest => cases x <;> simp [busyInput, resetRequested, allowed, busyAllowed, hi, hs, hb]

/-! ### Every step -/

/-- A block on its list steps, and a run so far unmarked stays so exactly where the input is within the contract. -/
theorem step_next (s : State) (hok : sequencerOk s = true) :
    ∃ t, step s = .next t ∧ (s.breach = none → (t.breach = none ↔ allowed s = true)) := by
  cases hb : s.busy with
  | true =>
    obtain ⟨t, ht, hm⟩ := step_busy_marks s hb hok
    exact ⟨t, ht, fun hs => hm ▸ busyInput_breach_eq_none s hs hb⟩
  | false =>
    cases hi : s.inbox with
    | nil => exact ⟨s, by simp [step, hb, hi], fun hs => iff_of_true hs (by simp [allowed, hi])⟩
    | cons x rest =>
      obtain ⟨t, ht, hm⟩ := step_idle_marks s x rest hb hi
      refine ⟨t, ht, fun hs => ?_⟩
      have hallowed : allowed s = idleAllowed s x := by simp [allowed, hi, hb]
      rw [hm, hallowed]
      exact fetch_breach_eq_none x { s with inbox := rest } hs hb

/-- Settles O28: an instruction completes on an idle block and on a busy one, and so does a step on the list. -/
theorem everyInstructionCompletes : Obligations.EveryInstructionCompletes := by
  refine ⟨fun i s => ?_, fun s hok => ?_⟩
  · obtain ⟨t, ht, -⟩ := exec_marks i s
    exact ⟨t, ht⟩
  · obtain ⟨t, ht, -⟩ := step_next s hok
    exact ⟨t, ht⟩

theorem contractStep_unmarked (s t : State) (h : step s = .next t) (hm : t.breach = none) :
    contractStep s = .next t := by
  simp [contractStep, h, hm]

/-- Settles O53: the contract step looks at the mark, which is there exactly where the input is outside the contract. -/
theorem contractStepRunsEverythingElse : Obligations.ContractStepRunsEverythingElse := by
  refine ⟨fun s hs hok => ?_, contractStep_unmarked⟩
  obtain ⟨t, ht, hiff⟩ := step_next s hok
  refine ⟨fun ha => ?_, fun ha => ?_⟩
  · have hm : t.breach = none := (hiff hs).2 ha
    exact ⟨t, ht, contractStep_unmarked s t ht hm, hm⟩
  · have hm : t.breach ≠ none := fun h => by simp [(hiff hs).1 h] at ha
    obtain ⟨b, hb⟩ := Option.ne_none_iff_exists'.1 hm
    exact ⟨b, contractStep_marked s t b ht hb⟩

end Sys2Proof.Machine
end

section
/-! PROOFS. `rst` from any state, and the chip over it (10_state.md R28; 70_reset_and_hazards.md R170 to R173). -/

namespace Sys2Proof.Machine

open Sys2Proof.Safety

/-- `rst` resets the block whatever it was doing (70_reset_and_hazards.md R170, 60_exceptions.md R156). -/
theorem step_rst (s : State) (rest : List Input) (hi : s.inbox = .rst :: rest) :
    step s = .next (resetBlock { s with inbox := rest }) := by
  by_cases hb : s.busy = true
  · simp [step, hb, busyStep, resetRequested, busyInput, hi]
  · exact step_idle_done s _ .rst rest (Bool.eq_false_of_not_eq_true hb) hi rfl

/-- A block just reset drives no line (70_reset_and_hazards.md R171). -/
theorem portLine_resetBlock (s : State) (p : Pin) : portLine (resetBlock s) p = none := by
  cases p <;> rfl

/-- No button is pressed or released by `rst`: both are left at the reset level (10_state.md R22, R23). -/
theorem flags_resetBlock (s : State) : press (resetBlock s) = 0 ∧ release (resetBlock s) = 0 := by
  rw [press, release, resetBlock_prev, resetBlock_cur]
  decide

/-- Settles O12: the state after `rst` is `resetBlock`, whose registers are those of the reset state. -/
theorem resetFromAnyState : Obligations.ResetFromAnyState := by
  intro s rest hi
  obtain ⟨hpress, hrelease⟩ := flags_resetBlock { s with inbox := rest }
  exact ⟨_, step_rst s rest hi, rfl, rfl, rfl, rfl, rfl, rfl, rfl, hpress, hrelease, portLine_resetBlock _, rfl, rfl⟩

/-- Settles O46: the chip after `rst` is the one before it in another frame, and INIT finds undriven low pins. -/
theorem chipKeepsItsRegistersOverReset : Obligations.ChipKeepsItsRegistersOverReset := by
  intro s c rest a d hb hc hi
  have hchip := chipAfterReset_idle { s with inbox := rest } c hb hc
  refine ⟨_, _, step_rst s rest hi, hchip, inFrame_ck _ c, inFrame_ram _ c, fun hp => ?_⟩
  obtain ⟨u, c'', hu, hq, -, -, hwp, htcs, hram, -⟩ :=
    initTurnsProtectionAndChargerOff (resetBlock { s with inbox := rest }) _ a d hp rfl hchip (.inl ⟨rfl, rfl⟩)
  exact ⟨u, c'', hu, hq, hwp, htcs, hram⟩

end Sys2Proof.Machine
end

section
/-! PROOFS. Write protection set by a burst (70_reset_and_hazards.md R186). -/

namespace Sys2Proof.Machine

open Sys2Proof.Safety

/-- A protected chip ignores a write frame to any register but the control register (20_memory.md R58). -/
theorem written_protected (c : Chip) (a d : Byte) (hp : c.writeProtected = true) (h7 : cbReg a ≠ 7) :
    SameMemory (c.written a d) c := by
  have haddr : writeAddress a ≠ 7 := by unfold writeAddress; split <;> omega
  unfold Chip.written
  split
  · exact ⟨by simp [store_ck, hp, haddr], by simp [store_ram, hp]⟩
  · exact .refl c

/-- Settles O47: the burst commits bit 7 of `REC[7]` to the control register, which protects the chip from the resume. -/
theorem writeProtectRidesInTheBurst : Obligations.WriteProtectRidesInTheBurst := by
  intro s c a d hp hb hr hq hopen hwp
  obtain ⟨t, c', ht, hq', -, htr, -, -, -, hcommit⟩ := bwriteCommitsTheRecordInTheChip s c a d hp hb hr hq
  have hprotected : c'.writeProtected = true := by
    have hcontrol : bankGet c'.ck 7 = s.record.wp &&& bankGet chipMask 7 := hcommit hopen 7
    rw [Chip.writeProtected, hcontrol, BitVec.getLsbD_and, hwp]
    decide
  obtain ⟨u, c'', hu, -, -, hq'', hm⟩ := exec_wrreg_chip s.params.cmdSec 0x00 t c' (exec_idle _ s t ht hb) htr hq'
  have hignored := written_protected c' s.params.cmdSec 0x00 hprotected (by rw [hp]; decide)
  exact ⟨t, u, c', c'', ht, hq'.1, hprotected, hu, hq''.1, (hm.trans hignored).ck⟩

end Sys2Proof.Machine
end

section
/-! PROOFS. The block and the chip never drive IO at once within the contract (70_reset_and_hazards.md R183). -/

namespace Sys2Proof.Machine

open Sys2Proof.Safety

/-! ### Lists without contention -/

/-- At no point of the list, its two ends among them, do the block and the chip drive IO at once. -/
def Uncontended (es : List Entry) (s : State) : Prop := ∀ n, contended (runEntries (es.take n) s) = false

theorem uncontended_nil (s : State) (h : contended s = false) : Uncontended [] s := fun n => by
  rw [List.take_nil]; exact h

theorem uncontended_cons (e : Entry) (es : List Entry) (s : State) (h : contended s = false)
    (hes : Uncontended es (e.exec s)) : Uncontended (e :: es) s
  | 0 => h
  | n + 1 => hes n

theorem Uncontended.append {xs ys : List Entry} {s : State} (hx : Uncontended xs s)
    (hy : Uncontended ys (runEntries xs s)) : Uncontended (xs ++ ys) s := by
  induction xs generalizing s with
  | nil => exact hy
  | cons e xs ih => exact uncontended_cons e _ s (hx 0) (ih (fun n => hx (n + 1)) hy)

/-- A property of states that rules out contention and that every step of the list keeps. -/
theorem uncontended_of_invariant (P : State → Prop) (spares : MicroOp → Bool) (hP : ∀ s, P s → contended s = false)
    (hstep : ∀ (e : Entry) s, spares e.op = true → P s → P (e.exec s)) (es : List Entry) (s : State)
    (hes : es.all (fun e => spares e.op) = true) (hs : P s) : Uncontended es s := by
  induction es generalizing s with
  | nil => exact uncontended_nil s (hP s hs)
  | cons e es ih =>
    rw [List.all_cons, Bool.and_eq_true] at hes
    exact uncontended_cons e es s (hP s hs) (ih _ hes.2 (hstep e s hes.1 hs))

/-! ### Three reasons for no contention -/

theorem contended_of_silent (s : State) (h : peerDrive s .io = none) : contended s = false := by
  rw [contended_eq, h]; exact Bool.and_false _

/-- Within one frame, a chip that is silent at the end was silent all along. -/
theorem uncontended_of_silent_end (es : List Entry) (s : State) (hes : es.all (fun e => e.op.keepsFrame) = true)
    (h : peerDrive (runEntries es s) .io = none) : Uncontended es s := by
  induction es generalizing s with
  | nil => exact uncontended_nil s (contended_of_silent s h)
  | cons e es ih =>
    have hs := contended_of_silent s (runEntries_peerDrive (e :: es) s hes h)
    rw [List.all_cons, Bool.and_eq_true] at hes
    exact uncontended_cons e es s hs (ih _ hes.2 h)

/-- The micro-operation does not make IO an output. -/
def MicroOp.sparesIo (m : MicroOp) : Bool :=
  match m with
  | .dir .io true => false
  | _ => true

theorem dirAfter_sparesIo (m : MicroOp) (r : PinLatch) (h : m.sparesIo = true) (hr : r.io = false) :
    (m.dirAfter r).io = false := by
  cases m with
  | dir p d =>
    cases p with
    | io =>
      cases d with
      | false => rfl
      | true => cases h
    | ce | sclk => exact hr
  | lvl | get | nop2 => exact hr

/-- While IO is an input, the block does not drive it. -/
theorem uncontended_of_input (es : List Entry) (s : State) (hes : es.all (fun e => e.op.sparesIo) = true)
    (hs : s.pinDir.io = false) : Uncontended es s :=
  uncontended_of_invariant (fun s => s.pinDir.io = false) MicroOp.sparesIo
    (fun s h => by rw [contended_eq, h]; exact Bool.false_and _)
    (fun e s he h => by rw [entryExec_pinDir]; exact dirAfter_sparesIo e.op _ he h) es s hes hs

/-! ### A chip that stays silent until it is selected again -/

/-- The chip drives nothing, and neither takes a command byte nor answers one (20_memory.md R56, R57). -/
structure Chip.Mute (c : Chip) : Prop where
  drive : c.drive = none
  not_cmd : c.phase ≠ .cmd
  not_rdata : c.phase ≠ .rdata

theorem clockRise_phase (c : Chip) (b : Bool) (h : c.phase ≠ .cmd) : (c.clockRise b).phase = c.phase := by
  by_cases hw : c.phase = .wdata
  · simp only [Chip.clockRise, hw, Chip.dataBit]
    split
    · exact (takeByte_phase c _).trans hw
    · rfl
  · rw [clockRise_still c b h hw]

/-- Only `CE^` opens a frame (20_memory.md R56). -/
theorem Chip.Mute.react {c : Chip} (h : c.Mute) (e : ChipEdge) (b : Bool) (he : e ≠ .ceRise) : (c.react e b).Mute := by
  obtain ⟨hdrive, hcmd, hrdata⟩ := h
  cases e with
  | none => exact ⟨hdrive, hcmd, hrdata⟩
  | ceRise => exact absurd rfl he
  | ceFall => exact ⟨rfl, Phase.noConfusion, Phase.noConfusion⟩
  | sclkRise =>
    have hphase := clockRise_phase c b hcmd
    exact ⟨(clockRise_drive c b).trans hdrive, hphase ▸ hcmd, hphase ▸ hrdata⟩
  | sclkFall =>
    rw [Chip.react, clockFall_phase_ne c hrdata]
    exact ⟨hdrive, hcmd, hrdata⟩

/-- The micro-operation neither raises CE nor makes it an output. -/
def MicroOp.sparesSelect (m : MicroOp) : Bool :=
  match m with
  | .dir .ce true => false
  | .lvl .ce true => false
  | _ => true

/-- A rising edge of CE ends at a line driven high that was not so before. -/
theorem edgeBetween_ceRise (s t : State) (h : edgeBetween s t = .ceRise) :
    driven t .ce = some true ∧ driven s .ce ≠ some true := by
  unfold edgeBetween at h
  split at h
  · split at h <;> cases h
  · next ht hhigh => exact ⟨ht, fun hs => hhigh hs⟩
  · cases h
  · cases h
  · cases h

theorem driven_eq_some (s : State) (p : Pin) (v : Bool) :
    driven s p = some v ↔ s.pinDir.get p = true ∧ s.pinOut.get p = v := by
  unfold driven
  cases s.pinDir.get p <;> simp

theorem driven_ce_sparesSelect (m : MicroOp) (s : State) (h : m.sparesSelect = true)
    (hm : driven (m.onPins s) .ce = some true) : driven s .ce = some true := by
  cases m with
  | dir p d =>
    cases p with
    | ce =>
      cases d with
      | false => exact absurd ((driven_eq_some _ _ _).1 hm).1 Bool.noConfusion
      | true => cases h
    | sclk | io => exact hm
  | lvl p v =>
    cases p with
    | ce =>
      cases v with
      | false => exact absurd ((driven_eq_some _ _ _).1 hm).2 Bool.noConfusion
      | true => cases h
    | sclk | io => exact hm
  | get | nop2 => exact hm

theorem edgeBetween_sparesSelect (m : MicroOp) (s : State) (h : m.sparesSelect = true) :
    edgeBetween s (m.onPins s) ≠ .ceRise := fun he =>
  have ⟨hhigh, hs⟩ := edgeBetween_ceRise _ _ he
  hs (driven_ce_sparesSelect m s h hhigh)

theorem peerDrive_of_mute (s : State) (h : ChipHas Chip.Mute s) : peerDrive s .io = none := by
  rw [peerDrive_io]
  cases hc : s.chip with
  | none => rfl
  | some c => exact (h c hc).drive

/-- Until CE rises, a mute chip does not drive IO. -/
theorem uncontended_of_mute (es : List Entry) (s : State) (hes : es.all (fun e => e.op.sparesSelect) = true)
    (hs : ChipHas Chip.Mute s) : Uncontended es s :=
  uncontended_of_invariant (ChipHas Chip.Mute) MicroOp.sparesSelect
    (fun s h => contended_of_silent s (peerDrive_of_mute s h))
    (fun e s he h => h.of_map (fun _ hc => hc.react _ _ (edgeBetween_sparesSelect e.op s he)) (entryExec_chip e s))
    es s hes hs

/-! ### The frames and INIT -/

/-- A command byte without the read flag is not answered (30_encoding.md R76, 20_memory.md R56). -/
theorem mute_commanded (c : Chip) (a : Byte) (hd : c.drive = none) (ha : cbRead a = false) : (c.commanded a).Mute := by
  have hphase := commanded_phase c a
  have hnot : phaseAfterCommand a ≠ .cmd ∧ phaseAfterCommand a ≠ .rdata := by
    unfold phaseAfterCommand
    rw [ha]
    cases cbOne a <;> decide
  exact ⟨(commanded_drive c a).trans hd, hphase ▸ hnot.1, hphase ▸ hnot.2⟩

/-- A write frame: the chip is silent up to the end of the command byte, and mute from there on. -/
theorem uncontended_memWrite (a : Byte) (v : List Byte) (x : Transfer) (s : State) (c : Chip) (hr : atRest s = true)
    (hq : ChipQuiet s c) (ha : cbRead a = false) : Uncontended (memWrite a v x) s := by
  have hmute := mute_commanded c.select a hq.2 ha
  obtain ⟨-, hc⟩ := frame_begun a s c hr hq
  rw [clockFall_phase_ne _ hmute.not_rdata] at hc
  have hhas : ChipHas Chip.Mute (runEntries (startList ++ out8 a false) s) := fun c' hc' =>
    Option.some.inj (hc.symm.trans hc') ▸ hmute
  have htail : (v.flatMap (fun b => out8 b false) ++ stopList x).all (fun e => e.op.sparesSelect) = true := by
    rw [List.all_append, List.all_flatMap, Bool.and_eq_true, List.all_eq_true]
    exact ⟨fun _ _ => rfl, rfl⟩
  rw [memWrite, List.append_assoc]
  exact (uncontended_of_silent_end _ s rfl (peerDrive_of_mute _ hhas)).append (uncontended_of_mute _ _ htail hhas)

/-- A read frame: the chip is silent until the line turns round, and the block does not drive it from there on. -/
theorem uncontended_memRead (a : Byte) (xs : List Transfer) (s : State) (c : Chip) (hr : atRest s = true)
    (hq : ChipQuiet s c) : Uncontended (memRead a xs) s := by
  have hinput : (runEntries (startList ++ out8 a true) s).pinDir.io = false := by
    rw [runEntries_pinDir, dirAfter_append, dirAfter_out8_release]
  have htail : (xs.flatMap in8 ++ stopList .none).all (fun e => e.op.sparesIo) = true := by
    rw [List.all_append, List.all_flatMap, Bool.and_eq_true, List.all_eq_true]
    exact ⟨fun _ _ => rfl, rfl⟩
  rw [memRead, List.append_assoc]
  exact (uncontended_of_silent_end _ s rfl (peerDrive_commandByte a s c hr hq)).append
    (uncontended_of_input _ _ htail hinput)

/-- The first step of INIT takes up CE, undriven before, at its low level, which deselects the chip (log entry 10). -/
theorem mute_takeUpCe (s : State) (c : Chip) (hd : s.pinDir = ⟨false, false, false⟩)
    (ho : s.pinOut = ⟨false, false, false⟩) (hc : s.chip = some c) :
    ChipHas Chip.Mute (runEntries [{ op := .dir .ce true }] s) := by
  have hedge : edgeBetween s ((MicroOp.dir .ce true).onPins s) = .ceFall := by
    simp [edgeBetween, driven, PinLatch.get, PinLatch.set, MicroOp.dirAfter, MicroOp.outAfter, MicroOp.onPins, hd, ho]
  refine ChipHas.of_eq (s := { s with chip := some c.deselect }) ?_ ?_
  · rintro _ ⟨⟩
    exact ⟨rfl, Phase.noConfusion, Phase.noConfusion⟩
  · rw [runEntries_cons, runEntries_nil, entryExec_chip, microExec_chip_some _ s c hc, hedge]; rfl

/-- INIT's first steps on undriven low pins: IO is an input until the chip is deselected. -/
theorem uncontended_initPins (s : State) (c : Chip) (hd : s.pinDir = ⟨false, false, false⟩)
    (ho : s.pinOut = ⟨false, false, false⟩) (hc : s.chip = some c) : Uncontended initPins s :=
  Uncontended.append (xs := [{ op := .dir .ce true }]) (uncontended_of_input _ s rfl (by rw [hd]))
    (uncontended_of_mute initPins.tail _ rfl (mute_takeUpCe s c hd ho hc))

theorem uncontended_initList (p : Params) (s : State) (c : Chip) (hd : s.pinDir = ⟨false, false, false⟩)
    (ho : s.pinOut = ⟨false, false, false⟩) (hc : s.chip = some c) (hwp : cbRead p.cmdWp = false)
    (htcs : cbRead p.cmdTcs = false) : Uncontended (initList p) s := by
  have hr₀ := atRest_initPins s
  obtain ⟨c₀, hq₀, -⟩ := quiet_initPins s c hc (.inl ⟨hd, ho⟩)
  obtain ⟨c₁, hq₁, -⟩ := memWrite_chip p.cmdWp p.valWpOff _ c₀ hr₀ hq₀
  rw [initList_eq]
  exact (uncontended_initPins s c hd ho hc).append ((uncontended_memWrite _ _ _ _ c₀ hr₀ hq₀ hwp).append
    (uncontended_memWrite _ _ _ _ c₁ (atRest_memWrite _ _ _ _ hr₀) hq₁ htcs))

/-- Of the command words, operation code 0 is INIT (30_encoding.md R72). -/
theorem isInit_decodeCommand (w : CmdWord) (h : opField w = 0) : IsInit (decodeCommand w) := by
  rcases Laws.decodeCommand_cases w with hw | hw
  · exact ⟨_, _, hw.2⟩
  · simp [h] at hw

/-- The operations other than INIT, at rest with a quiet chip. -/
theorem uncontended_operation (w : CmdWord) (s t : State) (c : Chip) (hr : atRest t = true) (hq : ChipQuiet t c)
    (hburst : cbRead s.params.cmdBurst = false) (hinit : opField w ≠ 0)
    (hwrreg : opField w = 1 → cbRead (addrField w) = false) : Uncontended (instrList (decodeCommand w) s) t := by
  have hnothing : Uncontended [] t :=
    uncontended_nil t (contended_of_silent t (by rw [peerDrive_io, hq.1]; exact hq.2))
  rcases Laws.decodeCommand_cases w with ⟨hop, hi⟩ | ⟨hop, hi⟩ | ⟨-, hi⟩ | ⟨-, hi⟩ | ⟨-, hi⟩ | ⟨-, hi⟩ | ⟨-, hi⟩ |
    ⟨-, hi⟩ <;> rw [hi]
  · exact absurd hop hinit
  · exact uncontended_memWrite _ _ _ t c hr hq (hwrreg hop)
  · exact uncontended_memRead _ _ t c hr hq
  · exact uncontended_memRead _ _ t c hr hq
  · exact uncontended_memWrite _ _ _ t c hr hq hburst
  · exact uncontended_memRead _ _ t c hr hq
  · exact hnothing
  · exact hnothing

/-- Settles O50: the list of each operation is INIT's, a write frame with a write form, or a read frame. -/
theorem noContentionWithinTheContract : Obligations.NoContentionWithinTheContract := by
  intro s c w n _ hc hforms hinit hother _ hwrreg
  simp only [writeForms, Bool.and_eq_true, Bool.not_eq_true'] at hforms
  obtain ⟨⟨⟨hwp, htcs⟩, hburst⟩, -⟩ := hforms
  rw [expansion_accept]
  by_cases hop : opField w = 0
  · obtain ⟨hdir, hout⟩ := hinit (by rw [hop]; rfl)
    obtain ⟨a, d, hi⟩ := isInit_decodeCommand w hop
    rw [hi]
    exact uncontended_initList s.params (accept _ _ _ _ s) c hdir hout hc hwp htcs n
  · obtain ⟨hr, hd⟩ := hother fun h => hop (BitVec.eq_of_toNat_eq h)
    exact uncontended_operation w s (accept _ _ _ _ s) c hr ⟨hc, hd⟩ hburst hop (fun h => hwrreg (by rw [h]; rfl)) n

end Sys2Proof.Machine
end
